-- ==== Sys2Proof/Word.lean ====
section
/-! DEFINITION. The machine's data types (10_state.md R20, 20_memory.md R70): bytes, half-words, words and the
short fields that name registers. Bit positions in this package are conventional (bit 0 least significant);
manual bit n of a word is bit 31 - n (00_scope.md R11). -/

namespace Sys2Proof

/-- A byte of memory. -/
abbrev Byte := BitVec 8

/-- A 32-bit machine word. -/
abbrev Word := BitVec 32

/-- A 4-bit general register number, GR0 to GR15 (10_state.md R23). -/
abbrev GReg := BitVec 4

/-- A 3-bit segment register number, SR0 to SR7 (10_state.md R27). -/
abbrev SReg := BitVec 3

/-- A 5-bit control register number, CR0 to CR31 (10_state.md R38). -/
abbrev CReg := BitVec 5

end Sys2Proof
end

