-- ==== Sys2Proof/Config.lean ====
section
/-! DEFINITION. The implementation parameters of 00_scope.md R10 and the free values: what an implementation or
the environment decides. A parameter for which R10 states a default is a plain definition with that default
(notes/assumptions/7.md); a value the spec leaves open altogether is an opaque constant, which nothing can evaluate. -/

namespace Sys2Proof.Config

/-! ### Parameters with the default of R10 -/

/-- What a non-zero reserved instruction field does (30_encoding.md R132). -/
inductive ReservedPolicy where
  | refuse
  | ignore
  | trap5
deriving DecidableEq, Repr

/-- The convention of ST.CB after SUB (43_computational.md R246). -/
inductive SubCarry where
  | borrow
  | adderCarry
deriving DecidableEq, Repr

/-- The access-rights field from which GATE takes the new level (42_branch.md R224). -/
inductive GateLevel where
  | pl1
  | pl2
deriving DecidableEq, Repr

/-- `ST_CB_BIT`: manual bit 12 of the saved status word, here as a conventional bit position (10_state.md R33). -/
def stCbBit : Nat := 31 - 12

/-- `RESET_VECTOR` (70_reset_and_hazards.md R392). DESIGN CHOICE: the spec leaves it open; 0x1000 is where its own
programs start (notes/assumptions/2.md). -/
def resetVector : Word := 0x00001000#32

/-- `RESERVED_POLICY`, default `refuse` (30_encoding.md R132). -/
def reservedPolicy : ReservedPolicy := .refuse

/-- `PRIV_SR_WRITE`, default SR4 to SR7 (44_system_control.md R281). -/
def privSrWrite (n : SReg) : Bool := decide (4 ≤ n.toNat)

/-- `PRIV_CR_WRITE`, default every control register but CR2 (44_system_control.md R281). -/
def privCrWrite (n : CReg) : Bool := decide (n.toNat ≠ 2)

/-- `SEG0_BYPASS`, default true (20_memory.md R92). -/
def seg0Bypass : Bool := true

/-- `TLB_SPLIT`, default true (10_state.md R51). -/
def tlbSplit : Bool := true

/-- `CB_FUNC` for SUB, default borrow (43_computational.md R246). -/
def subCarry : SubCarry := .borrow

/-- `PHYS_MEM_SIZE` (20_memory.md R78). DESIGN CHOICE: the spec leaves it open; the largest size R10 allows
(notes/assumptions/3.md). -/
def physMemSize : Nat := 0xF0000000

/-- First address of the I/O range (20_memory.md R76). -/
def ioBase : Nat := 0xF0000000

/-- `CACHE_LINE_BYTES`, default 4 (20_memory.md R120). -/
def cacheLineBytes : Nat := 4

/-- `STWC_MAY_FAIL`, default true (40_memory_reference.md R192). -/
def stwcMayFail : Bool := true

/-- `GATE_LEVEL_FIELD`, default PL1 (42_branch.md R225). -/
def gateLevelField : GateLevel := .pl1

/-! ### Free constants of the implementation -/

/-- How many entries beyond one the instruction TLB can hold. -/
opaque tlbExtraI : Nat

/-- How many entries beyond one the data TLB can hold. -/
opaque tlbExtraD : Nat

/-- `TLB_CAPACITY_I`, left open by R10 but at least 1 (notes/assumptions/8.md). -/
def tlbCapacityI : Nat := tlbExtraI + 1

/-- `TLB_CAPACITY_D`, left open by R10 but at least 1 (notes/assumptions/8.md). -/
def tlbCapacityD : Nat := tlbExtraD + 1

/-- `TRAP_DIRTY`: the number, left open, of the trap of the TLB entry bit D (20_memory.md R108, notes/assumptions/9.md). -/
opaque trapDirty : BitVec 5

/-- `TRAP_DATA_REF`: the number, left open, of the trap of the TLB entry bit B (20_memory.md R109, notes/assumptions/9.md). -/
opaque trapDataRef : BitVec 5

/-! ### Free values, indexed by the state's counter of draws -/

/-- The byte that a physical address holds before anything has written it (70_reset_and_hazards.md R395 gives none,
notes/assumptions/4.md). Indexed by the address. -/
opaque initialByte : Nat → Byte

/-- The environment's answer to a load from the I/O range (20_memory.md R78, notes/assumptions/10.md). -/
opaque ioAnswer : Nat → Word

/-- The environment's answer to a read of the switch register (10_state.md R39, notes/assumptions/11.md). -/
opaque switches : Nat → Word

/-- What a trap parameter register holds after a trap that has no such parameter (60_exceptions.md R344,
notes/assumptions/15.md). -/
opaque noParameter : Nat → Word

/-- Whether STWC fails although the reservation is intact (40_memory_reference.md R192, notes/assumptions/19.md). -/
opaque stwcFails : Nat → Bool

/-- A TLB field group that no ITLB has written (10_state.md R22, notes/assumptions/20.md). -/
opaque unwrittenTlbWord : Nat → Word

/-- Which entry a full TLB gives up (10_state.md R57, notes/assumptions/21.md). -/
opaque tlbVictim : Nat → Nat

end Sys2Proof.Config
end

