-- ==== Sys2Proof/Syntax.lean ====
section
/-! DEFINITION. The instructions: one constructor per row of spec/opcode_table.json, its arguments the fields of
30_encoding.md R149. Immediates and offsets are kept as the field's bits; what they mean is Machine/Operands.lean. -/

namespace Sys2Proof

/-- The access widths of the operand modes (30_encoding.md R141). -/
inductive Width where
  | word
  | half
  | byte
deriving DecidableEq, Repr

/-- The second operand of an operand-format instruction: the 32 operand modes of 30_encoding.md R134. -/
inductive Operand where
  /-- Mode 0: a 14-bit low-sign-extended immediate. -/
  | imm (val : BitVec 14)
  /-- Mode 1: the inputs are zero and GR[b]. -/
  | reg (b : GReg)
  /-- Mode 2: the inputs are GR[a] and GR[b]. -/
  | regs (a b : GReg)
  /-- Mode 3, undefined. -/
  | mode3 (arg : BitVec 14)
  /-- Modes 4, 5 and 6: memory at GR[a] + GR[b]. -/
  | regIdx (w : Width) (seg : BitVec 2) (a b : GReg)
  /-- Mode 7, undefined. -/
  | mode7 (arg : BitVec 14)
  /-- Modes 8 to 31: memory at GR[8 + base] + ofs. -/
  | indexed (w : Width) (base : BitVec 3) (seg : BitVec 2) (ofs : BitVec 12)
deriving DecidableEq, Repr

/-- The conditions of CMP and CBR (43_computational.md R252, 42_branch.md R226). -/
inductive CmpCond where
  | eq | lt | gt | ls | ne | le | ge | hi
deriving DecidableEq, Repr

/-- The conditions of CMR and TBR (43_computational.md R253, 42_branch.md R227). -/
inductive TestCond where
  | eq | lt | gt | ev | ne | le | ge | od
deriving DecidableEq, Repr

/-- The four modes of MST (44_system_control.md R283). -/
inductive MstMode where
  /-- Mode 0: replace bits 26..31 by those of GR[b]. -/
  | replace (b : GReg)
  /-- Mode 1: set the bits of the mask. -/
  | set (val : BitVec 6)
  /-- Mode 2: clear the bits of the mask. -/
  | clear (val : BitVec 6)
  /-- Mode 3, undefined. -/
  | mode3 (val : BitVec 6)
deriving DecidableEq, Repr

/-- The instructions of VCPU-32. LDW, LDH and LDB have two constructors each, as the table has two rows for them:
`…Reg` is the register-indexed form (operand modes 4 to 6), `…Ofs` the indexed one (8 to 31). -/
inductive Instr where
  -- memory reference (40_memory_reference.md)
  | ldwReg (r : GReg) (seg : BitVec 2) (a b : GReg)
  | ldwOfs (r : GReg) (base : BitVec 3) (seg : BitVec 2) (ofs : BitVec 12)
  | ldhReg (r : GReg) (seg : BitVec 2) (a b : GReg)
  | ldhOfs (r : GReg) (base : BitVec 3) (seg : BitVec 2) (ofs : BitVec 12)
  | ldbReg (r : GReg) (seg : BitVec 2) (a b : GReg)
  | ldbOfs (r : GReg) (base : BitVec 3) (seg : BitVec 2) (ofs : BitVec 12)
  | stw (r : GReg) (base : BitVec 3) (seg : BitVec 2) (ofs : BitVec 12)
  | sth (r : GReg) (base : BitVec 3) (seg : BitVec 2) (ofs : BitVec 12)
  | stb (r : GReg) (base : BitVec 3) (seg : BitVec 2) (ofs : BitVec 12)
  | ldwr (r : GReg) (base : BitVec 3) (seg : BitVec 2) (ofs : BitVec 12)
  | stwc (r : GReg) (base : BitVec 3) (seg : BitVec 2) (ofs : BitVec 12)
  | ldwa (r : GReg) (ofs : BitVec 18) (b : GReg)
  | ldwax (r a b : GReg)
  | stwa (r : GReg) (ofs : BitVec 18) (b : GReg)
  -- immediate (41_immediate.md)
  | ldil (r : GReg) (val : BitVec 22)
  | addil (r : GReg) (val : BitVec 22)
  | ldo (r : GReg) (opd : Operand)
  -- branch (42_branch.md)
  | b (ofs : BitVec 22)
  | bl (r : GReg) (ofs : BitVec 22)
  | br (b : GReg)
  | blr (r b : GReg)
  | bv (b : GReg)
  | bvr (a b : GReg)
  | be (ofs : BitVec 18) (a : BitVec 4) (b : GReg)
  | ble (ofs : BitVec 18) (a : BitVec 4) (b : GReg)
  | gate (r : GReg) (ofs : BitVec 22)
  | cbr (cond : CmpCond) (ofs : BitVec 15) (a b : GReg)
  | tbr (cond : TestCond) (ofs : BitVec 15) (b : GReg)
  -- computational (43_computational.md)
  | add (r : GReg) (c l o : Bool) (opd : Operand)
  | sub (r : GReg) (c l o : Bool) (opd : Operand)
  | and (r : GReg) (n c : Bool) (opd : Operand)
  | or (r : GReg) (n c : Bool) (opd : Operand)
  | xor (r : GReg) (n c : Bool) (opd : Operand)
  | cmp (r : GReg) (cond : CmpCond) (opd : Operand)
  | cmr (r : GReg) (cond : TestCond) (a b : GReg)
  | extr (r : GReg) (s a : Bool) (len pos : BitVec 5) (b : GReg)
  | dep (r : GReg) (z a i : Bool) (len pos : BitVec 5) (b : GReg)
  | dsr (r : GReg) (a : Bool) (shamt : BitVec 5) (ra rb : GReg)
  | shla (r : GReg) (z l o : Bool) (sa : BitVec 2) (a b : GReg)
  | lsid (r b : GReg)
  -- system control (44_system_control.md)
  | mr (r : GReg) (z d m : Bool) (s : BitVec 6)
  | mst (r : GReg) (mode : MstMode)
  | ldpa (r : GReg) (seg : BitVec 2) (a : BitVec 4) (b : GReg)
  | prb (r : GReg) (seg : BitVec 2) (m : Bool) (a : BitVec 4) (b : GReg)
  | itlb (r : GReg) (t m : Bool) (a : BitVec 4) (b : GReg)
  | ptlb (t : Bool) (a : BitVec 4) (b : GReg)
  | pca (t f : Bool) (a : BitVec 4) (b : GReg)
  | diag (r a b : GReg)
  | rfi
  | brk (info1 : BitVec 4) (info2 : BitVec 16)
deriving DecidableEq, Repr

end Sys2Proof
end

