-- ==== Sys2Proof/Machine/State.lean ====
section
/-! DEFINITION. The state of the machine (10_state.md), the reasons a step can stop, and the state after reset
(70_reset_and_hazards.md R390 to R396). -/

namespace Sys2Proof.Machine

/-- The ten implemented bits of the status register (10_state.md R32). Reserved bits read as 0 and are not stored. -/
structure Status where
  /-- Machine check: checks are disabled. -/
  m : Bool
  /-- Instruction translation enable. -/
  c : Bool
  /-- Execution level: true is user mode. -/
  x : Bool
  /-- Carry of ADD and SUB. -/
  cb : Bool
  u26 : Bool
  u27 : Bool
  u28 : Bool
  /-- Protection id check enable. -/
  p : Bool
  /-- Data translation enable. -/
  d : Bool
  /-- External interrupt enable. -/
  e : Bool
deriving DecidableEq, Repr

/-- The status register with every bit 0 (70_reset_and_hazards.md R391, 60_exceptions.md R341). -/
def Status.zero : Status :=
  { m := false, c := false, x := false, cb := false, u26 := false, u27 := false, u28 := false,
    p := false, d := false, e := false }

/-- The address part of a TLB entry, written by ITLB with M = 0 (10_state.md R54). -/
structure TlbAddr where
  cpuId : BitVec 4
  bank : BitVec 4
  ppn : BitVec 20
deriving DecidableEq, Repr

/-- The protection part of a TLB entry, written by ITLB with M = 1 (10_state.md R54). -/
structure TlbProt where
  /-- Un-cacheable. -/
  u : Bool
  /-- Page reference trap. -/
  t : Bool
  /-- Dirty trap. -/
  d : Bool
  /-- Data reference trap. -/
  b : Bool
  /-- Page type: 0 read-only, 1 read-write, 2 execute, 3 gateway (20_memory.md R96). -/
  type : BitVec 2
  pl1 : Bool
  pl2 : Bool
  pid16 : BitVec 16
deriving DecidableEq, Repr

/-- One TLB entry with its key (10_state.md R55). -/
structure TlbEntry where
  seg : Word
  vpn : BitVec 20
  v : Bool
  addr : TlbAddr
  prot : TlbProt
deriving DecidableEq, Repr

/-- A TLB: entries with strictly rising keys, at most one for a key (10_state.md R55). -/
abbrev Tlb := List TlbEntry

/-- Physical memory: the bytes that hold a value, with strictly rising addresses (10_state.md R50). -/
abbrev Memory := List Host.Cell

/-- One access handed to the environment (20_memory.md R78, 10_state.md R39). -/
inductive EnvEvent where
  /-- A load from the I/O range: address, width, the answer. -/
  | ioRead (pa : Word) (w : Width) (v : Word)
  /-- A store to the I/O range: address, width, the value. -/
  | ioWrite (pa : Word) (w : Width) (v : Word)
  /-- A read of the switch register and its answer. -/
  | swrRead (v : Word)
  /-- A write to the switch register. -/
  | swrWrite (v : Word)
deriving DecidableEq, Repr

/-- The state of the machine: the spec's own (10_state.md R20, R21), then the environment's inputs, then three
fields of the model. -/
structure State where
  /-- GR0 to GR15 (R23). -/
  gr : Vector Word 16
  /-- SR0 to SR7 (R27). -/
  sr : Vector Word 8
  /-- CR0 to CR31 (R38); CR0 is not stored, its slot stays 0 (R39). -/
  cr : Vector Word 32
  /-- IA-SEG (R29). -/
  iaSeg : Word
  /-- IA-OFS, its low two bits 0 (R29). -/
  iaOfs : Word
  /-- ST (R32). -/
  st : Status
  /-- Physical memory of bank 0 (R50). -/
  mem : Memory
  /-- The instruction TLB (R51). -/
  itlb : Tlb
  /-- The data TLB (R51). -/
  dtlb : Tlb
  /-- The LDWR reservation: the word's physical address while it is valid (R60). -/
  resv : Option Word
  /-- The word addresses whose `needs_flush` is true, strictly rising (R61, 20_memory.md R120). -/
  needsFlush : List Nat
  /-- The word addresses whose `needs_purge` is true, strictly rising (R61, 20_memory.md R120). -/
  needsPurge : List Nat
  /-- `EXT_IRQ`, the environment's request word at this moment (60_exceptions.md R356). -/
  extIrq : Word
  /-- The environment has raised a machine check (60_exceptions.md R352). -/
  machineCheck : Bool
  /-- The environment has raised a power failure (60_exceptions.md R353). -/
  powerFailure : Bool
  /-- The model's own: the word being executed, `instr` of the pseudocode (60_exceptions.md R344). -/
  ir : Word
  /-- The model's own: the accesses handed to the environment, newest first. -/
  envTrace : List EnvEvent
  /-- The model's own: how many free values have been drawn. -/
  draws : Nat
deriving DecidableEq, Repr

/-- The model faults of 00_scope.md R18: there are none. R18 has a fault only for a read of state that holds no value; here
every register holds a value (notes/assumptions/1.md) and everything else that nothing has written is a free value
(notes/assumptions/4.md, 15.md, 20.md). Whatever R18 calls `refuse` is a `Refusal`. -/
inductive Fault where
deriving DecidableEq, Repr

/-- Why a step has no meaning. -/
inductive Refusal where
  /-- Raised by an arm of exec whose instruction has no meaning yet. Safe. -/
  | notModelled (mnemonic : String)
  /-- Raised by decoding a word with a non-zero reserved field under the default policy (30_encoding.md R132). Safe. -/
  | reservedField
  /-- Raised by the use of a TLB entry whose bank or CPU-ID is not 0, which is not supported (20_memory.md R99). Safe. -/
  | foreignBank
  /-- Raised by PCA purging a data line that holds unflushed stores (20_memory.md R121). Safe. -/
  | purgeOfUnflushedLine
  /-- Raised by an access to an address that is neither installed memory nor I/O (20_memory.md R78). Safe: nothing
  can be proved of the access. -/
  | memoryNotInstalled
  /-- Raised by the fetch of a word that was stored to without the PCA pair, a race of store and fetch
  (20_memory.md R120). Safe: nothing can be proved of what would be executed. -/
  | staleFetch
  /-- Raised by EXTR and DEP when the field has length 0 or reaches past the left end of the register, to which no
  meaning is assigned (43_computational.md R256). Safe. -/
  | bitField
  /-- Raised by taking a trap while CR16, the vector table base, is not page aligned (60_exceptions.md R341,
  10_state.md R44). Safe. -/
  | vectorBase
  /-- Raised by PRB when GR[r] holds a level other than 0 and 1, which has no meaning (44_system_control.md R288). Safe. -/
  | probeLevel
  /-- Raised by DIAG in privileged mode: no command is defined (44_system_control.md R298). Safe. -/
  | diagCommand
deriving DecidableEq, Repr

/-- The machine after reset (70_reset_and_hazards.md R390 to R396). The general, segment and control registers have no
reset value in the spec and are 0 here (DESIGN CHOICE, notes/assumptions/1.md). -/
def State.reset : State :=
  { gr := Vector.replicate 16 0#32
    sr := Vector.replicate 8 0#32
    cr := Vector.replicate 32 0#32
    iaSeg := 0#32
    iaOfs := Config.resetVector
    st := Status.zero
    mem := []
    itlb := []
    dtlb := []
    resv := none
    needsFlush := []
    needsPurge := []
    extIrq := 0#32
    machineCheck := false
    powerFailure := false
    ir := 0#32
    envTrace := []
    draws := 0 }

end Sys2Proof.Machine
end

