-- ==== Sys2Proof/Machine/Ops.lean ====
section
/-! DEFINITION. The named operations over registers, status, memory and the environment; taking an exception and
returning from one. Every meaning is built from these. -/

namespace Sys2Proof.Machine

/-! ### Registers (10_state.md R23 to R31) -/

/-- Read of a general register. -/
def State.getGR (s : State) (r : GReg) : Word := s.gr[r.toNat]'r.isLt

/-- Write of a general register: none is hardwired (R23). -/
def State.setGR (s : State) (r : GReg) (v : Word) : State := { s with gr := s.gr.set r.toNat v r.isLt }

/-- Read of a segment register. -/
def State.getSR (s : State) (n : SReg) : Word := s.sr[n.toNat]'n.isLt

/-- Write of a segment register. -/
def State.setSR (s : State) (n : SReg) (v : Word) : State := { s with sr := s.sr.set n.toNat v n.isLt }

/-- What the register file holds for a control register, as hardware reads it. -/
def State.getCR (s : State) (n : CReg) : Word := s.cr[n.toNat]'n.isLt

/-- Hardware's own write of a control register. -/
def State.setCR (s : State) (n : CReg) (v : Word) : State := { s with cr := s.cr.set n.toNat v n.isLt }

/-- An instruction address with its two low bits dropped (R29). -/
def dropLow2 (t : Word) : Word := t &&& 0xFFFFFFFC#32

/-- `pc <- t` (00_scope.md R13, 10_state.md R29). -/
def State.setPc (s : State) (t : Word) : State := { s with iaOfs := dropLow2 t }

/-- The end of an instruction that does not branch: `IA_OFS <- IA_OFS + 4`, modulo 2^32 (R30). -/
def State.retire (s : State) : State := { s with iaOfs := s.iaOfs + 4#32 }

/-- The general register of an index field: GR8 to GR15 (R24, 30_encoding.md R135). -/
def indexReg (base : BitVec 3) : GReg := 1#1 ++ base

/-- The segment register named by the low three bits of a 4-bit field (30_encoding.md R146). -/
def segReg (a : BitVec 4) : SReg := a.setWidth 3

/-! ### The status word (10_state.md R32 to R36) -/

/-- One status bit at its position. -/
def statusBit (b : Bool) (k : Nat) : Word := (BitVec.ofBool b).setWidth 32 <<< k

/-- `ST_word`: each implemented bit at its position, every reserved bit 0 (R35). -/
def statusWord (st : Status) : Word :=
  statusBit st.m 31 ||| statusBit st.c 30 ||| statusBit st.x 29 ||| statusBit st.cb Config.stCbBit |||
  statusBit st.u26 5 ||| statusBit st.u27 4 ||| statusBit st.u28 3 ||| statusBit st.p 2 |||
  statusBit st.d 1 ||| statusBit st.e 0

/-- `ST <- w`: the ten implemented bits from their positions, the others ignored (R35). -/
def statusOfWord (w : Word) : Status :=
  { m := w.getLsbD 31, c := w.getLsbD 30, x := w.getLsbD 29, cb := w.getLsbD Config.stCbBit,
    u26 := w.getLsbD 5, u27 := w.getLsbD 4, u28 := w.getLsbD 3, p := w.getLsbD 2, d := w.getLsbD 1, e := w.getLsbD 0 }

/-- `ST{26..31}`: U26, U27, U28, P, D, E (44_system_control.md R283). -/
def statusMask (st : Status) : BitVec 6 := (statusWord st).extractLsb' 0 6

/-- `ST{26..31} <- v`; the other bits keep their values (44_system_control.md R283). -/
def setStatusMask (st : Status) (v : BitVec 6) : Status :=
  { st with u26 := v.getLsbD 5, u27 := v.getLsbD 4, u28 := v.getLsbD 3, p := v.getLsbD 2, d := v.getLsbD 1, e := v.getLsbD 0 }

/-! ### Traps (60_exceptions.md R331, R340 to R345) -/

/-- What a trap is raised for: the rows of the trap table that something raises, and the two traps of the TLB bits
D and B, which have no row (20_memory.md R108, R109). -/
inductive TrapCause where
  | machineCheck
  | powerFailure
  | externalInterrupt
  | illegalInstruction
  | privilegedOperation
  | overflow
  | instrTlbMiss
  | nonAccessInstrTlbMiss
  | instrProtection
  | dataTlbMiss
  | nonAccessDataTlbMiss
  | dataAccessRights
  | dataProtection
  | pageReference
  | alignment
  | breakInstruction
  | dirty
  | dataReference
deriving DecidableEq, Repr

/-- The trap numbers of R331; the numbers of the last two are free (notes/assumptions/9.md). -/
def trapNumber : TrapCause → Nat
  | .machineCheck => 1
  | .powerFailure => 2
  | .externalInterrupt => 4
  | .illegalInstruction => 5
  | .privilegedOperation => 6
  | .overflow => 8
  | .instrTlbMiss => 9
  | .nonAccessInstrTlbMiss => 10
  | .instrProtection => 11
  | .dataTlbMiss => 12
  | .nonAccessDataTlbMiss => 13
  | .dataAccessRights => 14
  | .dataProtection => 15
  | .pageReference => 16
  | .alignment => 17
  | .breakInstruction => 18
  | .dirty => Config.trapDirty.toNat
  | .dataReference => Config.trapDataRef.toNat

/-- A trap with its parameters P0, P1, P2; `none` is the "-" of the table (R344). -/
structure Trap where
  cause : TrapCause
  p0 : Option Word
  p1 : Option Word
  p2 : Option Word
deriving DecidableEq, Repr

/-- A trap without parameters. -/
def bareTrap (c : TrapCause) : Trap := { cause := c, p0 := none, p1 := none, p2 := none }

/-- A trap whose P0 is the instruction word (R344). -/
def instrTrap (c : TrapCause) (s : State) : Trap := { cause := c, p0 := some s.ir, p1 := none, p2 := none }

/-- A data-side trap: instruction word, segment id, offset (R344, R358). -/
def dataTrap (c : TrapCause) (seg ofs : Word) (s : State) : Trap :=
  { cause := c, p0 := some s.ir, p1 := some seg, p2 := some ofs }

/-- Where the handler of trap number `n` starts: `base + 32 * n` modulo 2^32 (R341, R342). -/
def handlerAddress (base : Word) (n : Nat) : Word := base + BitVec.ofNat 32 (32 * n)

/-- CR16 holds a page-aligned vector table base (10_state.md R44). -/
def vectorAligned (s : State) : Bool := decide ((s.getCR 16#5).extractLsb' 0 12 = 0#12)

/-- The state that trap entry leaves (R341): ST, IA-SEG and IA-OFS are saved in CR17, CR18, CR19, the parameters in CR20, CR21, CR22; ST and
IA-SEG become 0, IA-OFS the handler's address; the reservation is cleared. A "-" parameter leaves a free value
(notes/assumptions/15.md). -/
def trapEntry (t : Trap) (s : State) : State :=
  { s with
    cr := (((((s.cr.set 17 (statusWord s.st)).set 18 s.iaSeg).set 19 s.iaOfs).set 20
      (t.p0.getD (Config.noParameter s.draws))).set 21 (t.p1.getD (Config.noParameter (s.draws + 1)))).set 22
      (t.p2.getD (Config.noParameter (s.draws + 2)))
    st := Status.zero
    iaSeg := 0#32
    iaOfs := handlerAddress (s.getCR 16#5) (trapNumber t.cause)
    resv := none
    draws := s.draws + 3 }

/-- Taking a trap from the state `s`: its entry, or, before anything is saved, the refusal of a vector table base that is
not page aligned (R341, R44). -/
def takeTrap (t : Trap) (s : State) : Host.Outcome State Fault Refusal :=
  if vectorAligned s then .next (trapEntry t s) else .refused .vectorBase

/-- Return from a trap (44_system_control.md R296, 60_exceptions.md R361): `IA_SEG <- CR18`, `IA_OFS <- CR19` without
its two low bits, `ST <- CR17`; the reservation is cleared. -/
def trapReturn (s : State) : State :=
  { s with
    iaSeg := s.getCR 18#5
    iaOfs := dropLow2 (s.getCR 19#5)
    st := statusOfWord (s.getCR 17#5)
    resv := none }

/-! ### What an operation can answer -/

/-- The answer of an operation inside an instruction: a value, a trap raised now (R340), or a stop of the model. -/
inductive Attempt (α : Type) where
  | done (a : α)
  | trap (t : Trap)
  | refuse (r : Refusal)
deriving Repr

/-- Go on with the value, or answer as the first operation does. -/
def Attempt.bind {α β : Type} (x : Attempt α) (k : α → Attempt β) : Attempt β :=
  match x with
  | .done a => k a
  | .trap t => .trap t
  | .refuse r => .refuse r

/-- The outcome of an instruction that starts in `s`. A trap discards all that the instruction has computed and is
taken from `s` itself, with the IA of the instruction (R340, R345). -/
def conclude (s : State) (x : Attempt State) : Host.Outcome State Fault Refusal :=
  match x with
  | .done t => .next t
  | .trap t => takeTrap t s
  | .refuse r => .refused r

/-- A privileged instruction: at ST.X = 1 it raises trap 6 before anything else (R347). -/
def privileged (s : State) (x : Attempt State) : Attempt State :=
  if s.st.x then .trap (instrTrap .privilegedOperation s) else x

/-! ### Physical memory (20_memory.md R70, R76, R78) -/

/-- The number of bytes of an access. -/
def widthBytes : Width → Nat
  | .word => 4 | .half => 2 | .byte => 1

/-- The byte listed for an address, if there is one. -/
def Memory.find (m : Memory) (a : Nat) : Option Byte :=
  match m with
  | [] => none
  | (k, b) :: t => if k = a then some b else Memory.find t a

/-- What an address reads as that nothing has written: a free byte (notes/assumptions/4.md). -/
def unlistedByte (a : Nat) : Byte := Config.initialByte a

/-- Read of one byte. -/
def Memory.byte (m : Memory) (a : Nat) : Byte := (Memory.find m a).getD (unlistedByte a)

/-- Write of one byte, keeping the addresses strictly rising. -/
def Memory.put (m : Memory) (a : Nat) (v : Byte) : Memory :=
  match m with
  | [] => [(a, v)]
  | (k, b) :: t =>
    if a < k then (a, v) :: (k, b) :: t
    else if a = k then (a, v) :: t
    else (k, b) :: Memory.put t a v

/-- Addresses strictly rising from `lo` on. An unlisted address holds no value, so no entry equals what it reads as. -/
def risingFrom (lo : Nat) (m : Memory) : Bool :=
  match m with
  | [] => true
  | (k, _) :: t => decide (lo ≤ k) && risingFrom (k + 1) t

/-- The canonical form of memory: strictly rising addresses of installed memory. -/
def Memory.wf (m : Memory) : Bool := risingFrom 0 m && m.all (fun c => decide (c.1 < Config.physMemSize))

/-- Big-endian read of an access of width `w`, zero-extended (R70, R72). -/
def Memory.read (m : Memory) (a : Nat) (w : Width) : Word :=
  match w with
  | .word => Memory.byte m a ++ Memory.byte m (a + 1) ++ Memory.byte m (a + 2) ++ Memory.byte m (a + 3)
  | .half => (Memory.byte m a ++ Memory.byte m (a + 1)).setWidth 32
  | .byte => (Memory.byte m a).setWidth 32

/-- Big-endian write of the low bytes of `v` (R70, R72). -/
def Memory.write (m : Memory) (a : Nat) (w : Width) (v : Word) : Memory :=
  match w with
  | .word =>
    Memory.put (Memory.put (Memory.put (Memory.put m a (v.extractLsb' 24 8)) (a + 1) (v.extractLsb' 16 8)) (a + 2)
      (v.extractLsb' 8 8)) (a + 3) (v.extractLsb' 0 8)
  | .half => Memory.put (Memory.put m a (v.extractLsb' 8 8)) (a + 1) (v.extractLsb' 0 8)
  | .byte => Memory.put m a (v.extractLsb' 0 8)

/-- The low bytes of `v` that an access of width `w` moves, zero-extended (R72). -/
def lowBytes (w : Width) (v : Word) : Word :=
  match w with
  | .word => v
  | .half => v &&& 0x0000FFFF#32
  | .byte => v &&& 0x000000FF#32

/-- The address of the word that holds a byte address. -/
def wordOf (pa : Word) : Word := pa &&& 0xFFFFFFFC#32

/-! ### The flags of 20_memory.md R120, as strictly rising lists of word addresses -/

/-- Add an address. -/
def addAddr (l : List Nat) (a : Nat) : List Nat :=
  match l with
  | [] => [a]
  | k :: t => if a < k then a :: k :: t else if a = k then k :: t else k :: addAddr t a

/-- Strictly rising from `lo` on. -/
def risingAddrs (lo : Nat) (l : List Nat) : Bool :=
  match l with
  | [] => true
  | k :: t => decide (lo ≤ k) && risingAddrs (k + 1) t

/-- A store sets both flags of the word it overlaps (R105, R120). -/
def State.markStale (s : State) (pa : Word) : State :=
  { s with
    needsFlush := addAddr s.needsFlush (wordOf pa).toNat
    needsPurge := addAddr s.needsPurge (wordOf pa).toNat }

/-- A store clears the reservation if it overlaps the reserved word (40_memory_reference.md R193). All stores are
aligned, so a store overlaps the one word that holds its address. -/
def State.breakReservation (s : State) (pa : Word) : State :=
  { s with resv := if s.resv = some (wordOf pa) then none else s.resv }

/-! ### Physical accesses and the environment (20_memory.md R78, R79) -/

/-- The whole access lies in installed memory. -/
def installed (pa : Word) (w : Width) : Bool := decide (pa.toNat + widthBytes w ≤ Config.physMemSize)

/-- The address lies in the I/O range (R76). -/
def isIo (pa : Word) : Bool := decide (Config.ioBase ≤ pa.toNat)

/-- `PhysRead(pa, n)`: the value and the state after the read. An I/O read is answered by the environment. -/
def physRead (pa : Word) (w : Width) (s : State) : Attempt (Word × State) :=
  if installed pa w then .done (s.mem.read pa.toNat w, s)
  else if isIo pa then
    let v := lowBytes w (Config.ioAnswer s.draws)
    .done (v, { s with draws := s.draws + 1, envTrace := .ioRead pa w v :: s.envTrace })
  else .refuse .memoryNotInstalled

/-- `PhysWrite(pa, n, v)` with the effects of any store: the reservation and the flags of the word (R105). -/
def physWrite (pa : Word) (w : Width) (v : Word) (s : State) : Attempt State :=
  if installed pa w then
    .done (({ s with mem := s.mem.write pa.toNat w v }.breakReservation pa).markStale pa)
  else if isIo pa then
    .done (({ s with envTrace := .ioWrite pa w (lowBytes w v) :: s.envTrace }.breakReservation pa).markStale pa)
  else .refuse .memoryNotInstalled

/-! ### Control registers as MR sees them (10_state.md R38 to R48) -/

/-- `read_CR(n)`: CR0 is a draw of the environment (R39); every other register gives what it holds. -/
def readCR (n : CReg) (s : State) : Word × State :=
  if n = 0#5 then
    (Config.switches s.draws,
      { s with draws := s.draws + 1, envTrace := .swrRead (Config.switches s.draws) :: s.envTrace })
  else (s.getCR n, s)

/-- `write_CR(n, v)`: CR0 is an output to the environment (R39), CR2 keeps five bits (R41), every other register
stores 32 bits. CR3 to CR7 and CR12 to CR15 are plain storage, as R42 allows (notes/assumptions/16.md). -/
def writeCR (n : CReg) (v : Word) (s : State) : State :=
  if n = 0#5 then { s with envTrace := .swrWrite v :: s.envTrace }
  else if n = 2#5 then s.setCR n (v &&& 0x0000001F#32)
  else s.setCR n v

/-- The five implemented bits of SHAMT (R41, 43_computational.md R266). -/
def shamt (s : State) : BitVec 5 := (s.getCR 2#5).setWidth 5

end Sys2Proof.Machine
end

