-- ==== Sys2Proof/Machine/Operands.lean ====
section
/-! DEFINITION. Immediates and addresses: low sign extension (00_scope.md R14), the scaling of R144 and R145, the
offset of a memory operand (30_encoding.md R139) and the selection of a segment (20_memory.md R86 to R89). -/

namespace Sys2Proof.Machine

/-- `lse_N(x)`: the sign is the rightmost bit, the other bits are the low bits of the value (00_scope.md R14). -/
def lse {n : Nat} (x : BitVec n) : Int := (x.toNat / 2 : Nat) - ((x.toNat % 2) * 2 ^ (n - 1) : Nat)

/-- `lse_N(x)` as a 32-bit pattern. -/
def lseWord {n : Nat} (x : BitVec n) : Word := BitVec.ofInt 32 (lse x)

/-- `lse_N(x) << 2`: a branch offset in bytes (30_encoding.md R145). -/
def branchOffset {n : Nat} (x : BitVec n) : Word := BitVec.ofInt 32 (4 * lse x)

/-- `val << 10` of LDIL and ADDIL (30_encoding.md R144). -/
def leftImmediate (val : BitVec 22) : Word := val.setWidth 32 <<< 10

/-- `operandAdrOfs` of modes 4 to 6: GR[a] + GR[b] modulo 2^32 (R139). -/
def regIdxOffset (a b : GReg) (s : State) : Word := s.getGR a + s.getGR b

/-- `operandAdrOfs` of modes 8 to 31: the index register plus `lse_12(ofs)` modulo 2^32 (R139). -/
def indexedOffset (base : BitVec 3) (ofs : BitVec 12) (s : State) : Word := s.getGR (indexReg base) + lseWord ofs

/-- The address of LDWA and STWA: GR[b] + `lse_18(ofs)` modulo 2^32 (40_memory_reference.md R180). -/
def absoluteOffset (b : GReg) (ofs : BitVec 18) (s : State) : Word := s.getGR b + lseWord ofs

/-- `segSelect(x)`: SR4 to SR7 by the two leftmost bits (20_memory.md R88). -/
def segSelect (x : Word) : SReg := 1#1 ++ x.extractLsb' 30 2

/-- `ofsSelect(x)`: the 30-bit offset of a logical address (20_memory.md R89). -/
def ofsSelect (x : Word) : Word := x &&& 0x3FFFFFFF#32

/-- Segment register and virtual offset of a computed offset (20_memory.md R86, R87): a logical address for `seg` 0,
else SR1 to SR3 with the full offset. -/
def selectSegment (seg : BitVec 2) (x : Word) : SReg × Word :=
  if seg = 0#2 then (segSelect x, ofsSelect x) else (seg.setWidth 3, x)

/-- Segment id and virtual offset of a computed offset (20_memory.md R86). -/
def virtualAddress (seg : BitVec 2) (x : Word) (s : State) : Word × Word :=
  (s.getSR (selectSegment seg x).1, (selectSegment seg x).2)

/-- The operand of DEP: GR[b], or the four bits of the field itself with the option I (43_computational.md R260). -/
def depSource (i : Bool) (b : GReg) (s : State) : Word := if i then b.setWidth 32 else s.getGR b

/-- The field position of EXTR and DEP: the field, or SHAMT with the option A (43_computational.md R256). -/
def fieldPosition (a : Bool) (pos : BitVec 5) (s : State) : Nat := if a then (shamt s).toNat else pos.toNat

end Sys2Proof.Machine
end

