-- ==== Sys2Proof/Machine/Flags.lean ====
section
/-! DEFINITION. Carry, overflow, conditions and bit fields: the computations of 43_computational.md and of the
conditional branches, on values. -/

namespace Sys2Proof.Machine

/-! ### Sums (43_computational.md R243 to R246) -/

/-- The carry input: ST.CB with the option C (R243). -/
def carryIn (c : Bool) (s : State) : Nat := if c && s.st.cb then 1 else 0

/-- An exact integer is outside the signed 32-bit range. -/
def outsideSigned (x : Int) : Bool := decide (x < -2147483648) || decide (2147483648 ≤ x)

/-- An exact integer is outside the unsigned 32-bit range. -/
def outsideUnsigned (x : Int) : Bool := decide (x < 0) || decide (4294967296 ≤ x)

/-- The exact unsigned sum of ADD. -/
def addUnsigned (a b : Word) (cin : Nat) : Int := (a.toNat : Int) + b.toNat + cin

/-- The exact signed sum of ADD. -/
def addSigned (a b : Word) (cin : Nat) : Int := a.toInt + b.toInt + cin

/-- The exact unsigned difference of SUB; the carry is added (R245, R247). -/
def subUnsigned (a b : Word) (cin : Nat) : Int := (a.toNat : Int) - b.toNat + cin

/-- The exact signed difference of SUB. -/
def subSigned (a b : Word) (cin : Nat) : Int := a.toInt - b.toInt + cin

/-- The overflow of ADD: signed for L = 0, unsigned for L = 1 (R243). -/
def addOverflow (l : Bool) (a b : Word) (cin : Nat) : Bool :=
  if l then outsideUnsigned (addUnsigned a b cin) else outsideSigned (addSigned a b cin)

/-- The overflow of SUB (R245). -/
def subOverflow (l : Bool) (a b : Word) (cin : Nat) : Bool :=
  if l then outsideUnsigned (subUnsigned a b cin) else outsideSigned (subSigned a b cin)

/-- ST.CB after ADD: the carry-out of the 32-bit sum (R243). -/
def addCarry (a b : Word) (cin : Nat) : Bool := decide (4294967296 ≤ addUnsigned a b cin)

/-- ST.CB after SUB: a borrow by default (R246); the alternative is its complement. -/
def subCarry (a b : Word) (cin : Nat) : Bool :=
  match Config.subCarry with
  | .borrow => outsideUnsigned (subUnsigned a b cin)
  | .adderCarry => !outsideUnsigned (subUnsigned a b cin)

/-- ST.CB is written iff L = 0 (R243). -/
def setCarry (l : Bool) (cb : Bool) (s : State) : State :=
  if l then s else { s with st := { s.st with cb := cb } }

/-! ### Shift and add (R268) -/

/-- `GR[a] << sa`. -/
def shlaShift (a : Word) (sa : BitVec 2) : Word := a <<< sa.toNat

/-- The overflow of SHLA: of the shift or of the addition, signed for L = 0, unsigned for L = 1 (R268). -/
def shlaOverflow (l : Bool) (a b : Word) (sa : BitVec 2) : Bool :=
  if l then
    outsideUnsigned ((a.toNat : Int) * 2 ^ sa.toNat) || outsideUnsigned (addUnsigned (shlaShift a sa) b 0)
  else
    outsideSigned (a.toInt * 2 ^ sa.toNat) || outsideSigned (addSigned (shlaShift a sa) b 0)

/-! ### Conditions -/

/-- The conditions of CMP and CBR (R252, 42_branch.md R226). -/
def cmpHolds (cond : CmpCond) (a b : Word) : Bool :=
  match cond with
  | .eq => decide (a = b)
  | .lt => decide (a.toInt < b.toInt)
  | .gt => decide (b.toInt < a.toInt)
  | .ls => decide (a.toNat ≤ b.toNat)
  | .ne => decide (a ≠ b)
  | .le => decide (a.toInt ≤ b.toInt)
  | .ge => decide (b.toInt ≤ a.toInt)
  | .hi => decide (b.toNat < a.toNat)

/-- The conditions of CMR and TBR (R253, 42_branch.md R227). -/
def testHolds (cond : TestCond) (b : Word) : Bool :=
  match cond with
  | .eq => decide (b = 0#32)
  | .lt => decide (b.toInt < 0)
  | .gt => decide (0 < b.toInt)
  | .ev => decide (b.toNat % 2 = 0)
  | .ne => decide (b ≠ 0#32)
  | .le => decide (b.toInt ≤ 0)
  | .ge => decide (0 ≤ b.toInt)
  | .od => decide (b.toNat % 2 = 1)

/-- One or zero. -/
def boolWord (c : Bool) : Word := if c then 1#32 else 0#32

/-! ### Bit fields (R256 to R264) -/

/-- `mask(len)`: the low `len` bits. -/
def lowMask (len : Nat) : Word := BitVec.ofNat 32 (2 ^ len - 1)

/-- The field lies in the register: any other field is refused (R256). -/
def fieldFits (p len : Nat) : Bool := decide (len ≠ 0) && decide (p + len ≤ 32)

/-- The field of `len` bits with `p` bits to its right, right justified, sign-extended with the option S (R258). -/
def extractField (s : Bool) (p len : Nat) (v : Word) : Word :=
  if s && ((v >>> p) &&& lowMask len).getLsbD (len - 1) then ((v >>> p) &&& lowMask len) ||| (0xFFFFFFFF#32 <<< len)
  else (v >>> p) &&& lowMask len

/-- `old` with its field replaced by the low `len` bits of `src` (R260). -/
def depositField (p len : Nat) (old src : Word) : Word :=
  (old &&& ~~~(lowMask len <<< p)) ||| ((src <<< p) &&& (lowMask len <<< p))

/-- The low word of the double word `b ++ a` shifted right by `n` (R264). -/
def doubleShift (n : BitVec 5) (b a : Word) : Word := ((b ++ a) >>> n.toNat).setWidth 32

end Sys2Proof.Machine
end

