-- ==== Sys2Proof/Machine/Access.lean ====
section
/-! DEFINITION. The TLBs, translation and protection, and data access (20_memory.md R86 to R113, 10_state.md R51 to
R58), then the operand fetch of the computational instructions (43_computational.md R241). -/

namespace Sys2Proof.Machine

/-! ### TLB maps (10_state.md R55 to R58) -/

/-- The page number of an offset, its manual bits 0..19 (20_memory.md R84). -/
def pageOf (ofs : Word) : BitVec 20 := ofs.extractLsb' 12 20

/-- The key of an entry as one number, by which a TLB is ordered. -/
def tlbKey (seg : Word) (vpn : BitVec 20) : Nat := seg.toNat * 1048576 + vpn.toNat

/-- The entry's own key. -/
def entryKey (e : TlbEntry) : Nat := tlbKey e.seg e.vpn

/-- The entry of a key, valid or not. -/
def tlbFind (t : Tlb) (k : Nat) : Option TlbEntry :=
  match t with
  | [] => none
  | e :: r => if entryKey e = k then some e else tlbFind r k

/-- Insert an entry, replacing that of its key, keys strictly rising. -/
def tlbPut (t : Tlb) (n : TlbEntry) : Tlb :=
  match t with
  | [] => [n]
  | e :: r =>
    if entryKey n < entryKey e then n :: e :: r
    else if entryKey n = entryKey e then n :: r
    else e :: tlbPut r n

/-- Remove the entry of a key, if there is one (R58). -/
def tlbRemove (t : Tlb) (k : Nat) : Tlb := t.filter (fun e => decide (entryKey e ≠ k))

/-- Keys strictly rising from `lo` on. -/
def risingKeys (lo : Nat) (t : Tlb) : Bool :=
  match t with
  | [] => true
  | e :: r => decide (lo ≤ entryKey e) && risingKeys (entryKey e + 1) r

/-- `tlb_lookup`: the entry of the page if there is one and its V is 1 (R56). -/
def tlbLookup (t : Tlb) (seg ofs : Word) : Option TlbEntry :=
  match tlbFind t (tlbKey seg (pageOf ofs)) with
  | some e => if e.v then some e else none
  | none => none

/-- The TLB that instruction fetch uses; with `TLB_SPLIT` false both names denote one map (R51). -/
def State.instrTlb (s : State) : Tlb := if Config.tlbSplit then s.itlb else s.dtlb

/-- The TLB that data access uses. -/
def State.dataTlb (s : State) : Tlb := s.dtlb

/-- The TLB named by a T bit: 0 the instruction TLB, 1 the data TLB (R51). -/
def State.tlbOf (s : State) (t : Bool) : Tlb := if t then s.dataTlb else s.instrTlb

/-- Replace the TLB named by a T bit. -/
def State.withTlb (s : State) (t : Bool) (m : Tlb) : State :=
  if t || !Config.tlbSplit then { s with dtlb := m } else { s with itlb := m }

/-- How many entries the TLB named by a T bit can hold (R55). -/
def tlbCapacity (t : Bool) : Nat := if t || !Config.tlbSplit then Config.tlbCapacityD else Config.tlbCapacityI

/-! ### Access rights and protection ids (20_memory.md R95 to R98, R112, R113) -/

/-- `pl <= PLn` for the two levels, true being user. -/
def levelAtMost (pl pln : Bool) : Bool := !pl || pln

/-- `readAccessAllowed(entry, pl)` (R97). -/
def readAllowed (e : TlbEntry) (pl : Bool) : Bool := decide (e.prot.type.toNat ≤ 2) && levelAtMost pl e.prot.pl1

/-- `writeAccessAllowed(entry, pl)` (R97). -/
def writeAllowed (e : TlbEntry) (pl : Bool) : Bool := decide (e.prot.type = 1#2) && levelAtMost pl e.prot.pl2

/-- The 15-bit protection id of an entry (R113). -/
def entryPid (e : TlbEntry) : BitVec 15 := e.prot.pid16.extractLsb' 1 15

/-- The protection id of a PID register (10_state.md R43). -/
def registerPid (v : Word) : BitVec 15 := v.extractLsb' 1 15

/-- The four PID registers (10_state.md R43). -/
def pidRegisters (s : State) : List Word := [s.getCR 8#5, s.getCR 9#5, s.getCR 10#5, s.getCR 11#5]

/-- `pid_ok(entry, write)` (R113). -/
def pidOk (e : TlbEntry) (write : Bool) (s : State) : Bool :=
  decide (entryPid e = 0#15) ||
    (pidRegisters s).any (fun v => decide (registerPid v = entryPid e) && (!write || !v.getLsbD 0))

/-- A use of an entry whose bank or CPU-ID is not 0 is refused (R99). -/
def foreign (e : TlbEntry) : Bool := decide (e.addr.bank ≠ 0#4) || decide (e.addr.cpuId ≠ 0#4)

/-- `entry.ppn ++ ofs{20..31}` (R94). -/
def entryAddress (e : TlbEntry) (ofs : Word) : Word := e.addr.ppn ++ ofs.extractLsb' 0 12

/-- An access with this segment id takes the segment-zero bypass (R92). -/
def bypassed (seg : Word) : Bool := Config.seg0Bypass && decide (seg = 0#32)

/-! ### Data access (20_memory.md R104, R105) -/

/-- The alignment test: the last of a data access (R74). -/
def aligned (w : Width) (ofs : Word) : Bool := decide (ofs.toNat % widthBytes w = 0)

/-- The physical address of a translated data access, with the checks of R104 and R105 in the order of R348. -/
def translateData (write : Bool) (w : Width) (segid ofs : Word) (s : State) : Attempt Word :=
  match tlbLookup s.dataTlb segid ofs with
  | none => .trap (dataTrap .dataTlbMiss segid ofs s)
  | some e =>
    if !(if write then writeAllowed e s.st.x else readAllowed e s.st.x) then .trap (dataTrap .dataAccessRights segid ofs s)
    else if s.st.p && !pidOk e write s then .trap (dataTrap .dataProtection segid ofs s)
    else if e.prot.t then .trap (dataTrap .pageReference segid ofs s)
    else if e.prot.b then .trap (dataTrap .dataReference segid ofs s)
    else if write && e.prot.d then .trap (dataTrap .dirty segid ofs s)
    else if !aligned w ofs then .trap (dataTrap .alignment segid ofs s)
    else if foreign e then .refuse .foreignBank
    else .done (entryAddress e ofs)

/-- The physical address of an untranslated or bypassed access: only alignment is tested (R91, R92). -/
def plainAddress (w : Width) (ofs : Word) (s : State) : Attempt Word :=
  if aligned w ofs then .done ofs else .trap (dataTrap .alignment 0#32 ofs s)

/-- The physical address of a data access at computed offset `x` (R91, R92, R104, R105). -/
def dataAddress (write : Bool) (w : Width) (seg : BitVec 2) (x : Word) (s : State) : Attempt Word :=
  if !s.st.d then plainAddress w x s
  else if bypassed (virtualAddress seg x s).1 then plainAddress w (virtualAddress seg x s).2 s
  else translateData write w (virtualAddress seg x s).1 (virtualAddress seg x s).2 s

/-- `MemRead` (R104). -/
def memRead (w : Width) (seg : BitVec 2) (x : Word) (s : State) : Attempt (Word × State) :=
  (dataAddress false w seg x s).bind fun pa => physRead pa w s

/-- `MemWrite` (R105). -/
def memWrite (w : Width) (seg : BitVec 2) (x v : Word) (s : State) : Attempt State :=
  (dataAddress true w seg x s).bind fun pa => physWrite pa w v s

/-! ### Operand fetch (43_computational.md R241) -/

/-- `fetch_operand`: the two inputs and the state after the fetch. Modes 3 and 7 raise trap 5. -/
def fetchOperand (r : GReg) (opd : Operand) (s : State) : Attempt (Word × Word × State) :=
  match opd with
  | .imm val => .done (s.getGR r, lseWord val, s)
  | .reg b => .done (0#32, s.getGR b, s)
  | .regs a b => .done (s.getGR a, s.getGR b, s)
  | .mode3 _ => .trap (instrTrap .illegalInstruction s)
  | .mode7 _ => .trap (instrTrap .illegalInstruction s)
  | .regIdx w seg a b => (memRead w seg (regIdxOffset a b s) s).bind fun (v, t) => .done (s.getGR r, v, t)
  | .indexed w base seg ofs => (memRead w seg (indexedOffset base ofs s) s).bind fun (v, t) => .done (s.getGR r, v, t)

end Sys2Proof.Machine
end

