-- ==== Sys2Proof/Machine/Branch.lean ====
section
/-! DEFINITION. The branch instructions (42_branch.md R210 to R228). No delay slot (R212), no taken-branch trap
(R213); the checks of the target are those of its fetch (R214). -/

namespace Sys2Proof.Machine

/-- The return link `IA + 4` (R211). -/
def returnLink (s : State) : Word := s.iaOfs + 4#32

/-- B (R216). -/
def execB (ofs : BitVec 22) (s : State) : Host.Outcome State Fault Refusal :=
  .next (s.setPc (s.iaOfs + branchOffset ofs))

/-- BL (R217). -/
def execBl (r : GReg) (ofs : BitVec 22) (s : State) : Host.Outcome State Fault Refusal :=
  .next ((s.setGR r (returnLink s)).setPc (s.iaOfs + branchOffset ofs))

/-- BR (R218): GR[b] is a word count. -/
def execBr (b : GReg) (s : State) : Host.Outcome State Fault Refusal :=
  .next (s.setPc (s.iaOfs + s.getGR b <<< 2))

/-- BLR (R219): the target uses the old GR[b]. -/
def execBlr (r b : GReg) (s : State) : Host.Outcome State Fault Refusal :=
  .next ((s.setGR r (returnLink s)).setPc (s.iaOfs + s.getGR b <<< 2))

/-- BV (R220). -/
def execBv (b : GReg) (s : State) : Host.Outcome State Fault Refusal :=
  .next (s.setPc (s.getGR b))

/-- BVR (R221). -/
def execBvr (a b : GReg) (s : State) : Host.Outcome State Fault Refusal :=
  .next (s.setPc (s.getGR b + s.getGR a <<< 2))

/-- The segment in which an external branch continues: SR[a] with instruction translation on, else the current one
(R222). -/
def externalSegment (a : BitVec 4) (s : State) : Word := if s.st.c then s.getSR (segReg a) else s.iaSeg

/-- The target offset of an external branch (R222). -/
def externalOffset (ofs : BitVec 18) (b : GReg) (s : State) : Word := s.getGR b + branchOffset ofs

/-- BE (R222). -/
def execBe (ofs : BitVec 18) (a : BitVec 4) (b : GReg) (s : State) : Host.Outcome State Fault Refusal :=
  .next ({ s with iaSeg := externalSegment a s }.setPc (externalOffset ofs b s))

/-- BLE (R223): the link goes to SR0 and GR0; the target uses their old values. -/
def execBle (ofs : BitVec 18) (a : BitVec 4) (b : GReg) (s : State) : Host.Outcome State Fault Refusal :=
  .next ({ (s.setSR 0#3 s.iaSeg).setGR 0#4 (returnLink s) with iaSeg := externalSegment a s }.setPc
    (externalOffset ofs b s))

/-- The level of a gateway page by `GATE_LEVEL_FIELD` (R224, R225). -/
def gatewayLevel (e : TlbEntry) : Bool :=
  match Config.gateLevelField with
  | .pl1 => e.prot.pl1
  | .pl2 => e.prot.pl2

/-- The execution level after GATE (R224): privileged with translation off; on a gateway page the smaller of the
old level and the page's; else unchanged, also in a bypassed segment. The page of an executing GATE is always in the
TLB; in a state where it is not, the level is unchanged (notes/assumptions/29.md). -/
def gateLevel (s : State) : Bool :=
  if !s.st.c then false
  else if bypassed s.iaSeg then s.st.x
  else
    match tlbLookup s.instrTlb s.iaSeg s.iaOfs with
    | some e => if e.prot.type = 3#2 then s.st.x && gatewayLevel e else s.st.x
    | none => s.st.x

/-- GATE (R224): GR[r] receives the old level. -/
def execGate (r : GReg) (ofs : BitVec 22) (s : State) : Host.Outcome State Fault Refusal :=
  .next ({ s.setGR r (boolWord s.st.x) with st := { s.st with x := gateLevel s } }.setPc (s.iaOfs + branchOffset ofs))

/-- A conditional branch: to the target if the condition holds, else to the next instruction (R226, R227). -/
def branchIf (taken : Bool) (ofs : BitVec 15) (s : State) : State :=
  if taken then s.setPc (s.iaOfs + branchOffset ofs) else s.retire

/-- CBR (R226). -/
def execCbr (cond : CmpCond) (ofs : BitVec 15) (a b : GReg) (s : State) : Host.Outcome State Fault Refusal :=
  .next (branchIf (cmpHolds cond (s.getGR a) (s.getGR b)) ofs s)

/-- TBR (R227). -/
def execTbr (cond : TestCond) (ofs : BitVec 15) (b : GReg) (s : State) : Host.Outcome State Fault Refusal :=
  .next (branchIf (testHolds cond (s.getGR b)) ofs s)

end Sys2Proof.Machine
end

