-- ==== Sys2Proof/Machine/Computational.lean ====
section
/-! DEFINITION. The computational instructions (43_computational.md R240 to R272). -/

namespace Sys2Proof.Machine

/-- ADD (R243). -/
def execAdd (r : GReg) (c l o : Bool) (opd : Operand) (s : State) : Host.Outcome State Fault Refusal :=
  conclude s ((fetchOperand r opd s).bind fun (x, y, t) =>
    if o && addOverflow l x y (carryIn c s) then .trap (instrTrap .overflow s)
    else .done (setCarry l (addCarry x y (carryIn c s))
      (t.setGR r (BitVec.ofInt 32 (addUnsigned x y (carryIn c s))))).retire)

/-- SUB (R245). -/
def execSub (r : GReg) (c l o : Bool) (opd : Operand) (s : State) : Host.Outcome State Fault Refusal :=
  conclude s ((fetchOperand r opd s).bind fun (x, y, t) =>
    if o && subOverflow l x y (carryIn c s) then .trap (instrTrap .overflow s)
    else .done (setCarry l (subCarry x y (carryIn c s))
      (t.setGR r (BitVec.ofInt 32 (subUnsigned x y (carryIn c s))))).retire)

/-- The operand, complemented with the option C (R248). -/
def complementIf (c : Bool) (v : Word) : Word := if c then ~~~v else v

/-- The common part of AND, OR and XOR: complement the operand, operate, negate the result (R248). -/
def logical (op : Word → Word → Word) (r : GReg) (n c : Bool) (opd : Operand) (s : State) : Attempt State :=
  (fetchOperand r opd s).bind fun (x, y, t) => .done (t.setGR r (complementIf n (op x (complementIf c y)))).retire

/-- AND (R249). -/
def execAnd (r : GReg) (n c : Bool) (opd : Operand) (s : State) : Host.Outcome State Fault Refusal :=
  conclude s (logical (fun x y => x &&& y) r n c opd s)

/-- OR (R250). -/
def execOr (r : GReg) (n c : Bool) (opd : Operand) (s : State) : Host.Outcome State Fault Refusal :=
  conclude s (logical (fun x y => x ||| y) r n c opd s)

/-- XOR (R251). -/
def execXor (r : GReg) (n c : Bool) (opd : Operand) (s : State) : Host.Outcome State Fault Refusal :=
  conclude s (logical (fun x y => x ^^^ y) r n c opd s)

/-- CMP (R252). -/
def execCmp (r : GReg) (cond : CmpCond) (opd : Operand) (s : State) : Host.Outcome State Fault Refusal :=
  conclude s ((fetchOperand r opd s).bind fun (x, y, t) => .done (t.setGR r (boolWord (cmpHolds cond x y))).retire)

/-- CMR (R253): GR[a] is moved if GR[b] meets the condition. -/
def execCmr (r : GReg) (cond : TestCond) (a b : GReg) (s : State) : Host.Outcome State Fault Refusal :=
  .next (if testHolds cond (s.getGR b) then (s.setGR r (s.getGR a)).retire else s.retire)

/-- GR[r] receives the value if the field fits; else the instruction is refused (R256). -/
def writeFieldResult (fits : Bool) (r : GReg) (v : Word) (s : State) : Attempt State :=
  if fits then .done (s.setGR r v).retire else .refuse .bitField

/-- EXTR (R258). -/
def execExtr (r : GReg) (sx a : Bool) (len pos : BitVec 5) (b : GReg) (s : State) : Host.Outcome State Fault Refusal :=
  conclude s (writeFieldResult (fieldFits (fieldPosition a pos s) len.toNat) r
    (extractField sx (fieldPosition a pos s) len.toNat (s.getGR b)) s)

/-- DEP (R260). -/
def execDep (r : GReg) (z a i : Bool) (len pos : BitVec 5) (b : GReg) (s : State) : Host.Outcome State Fault Refusal :=
  conclude s (writeFieldResult (fieldFits (fieldPosition a pos s) len.toNat) r
    (depositField (fieldPosition a pos s) len.toNat (if z then 0#32 else s.getGR r) (depSource i b s)) s)

/-- DSR (R264): register b is the left part, register a the right part. -/
def execDsr (r : GReg) (a : Bool) (sa : BitVec 5) (ra rb : GReg) (s : State) : Host.Outcome State Fault Refusal :=
  .next (s.setGR r (doubleShift (if a then shamt s else sa) (s.getGR rb) (s.getGR ra))).retire

/-- The addend of SHLA: zero with the option Z (R268). -/
def shlaAddend (z : Bool) (b : GReg) (s : State) : Word := if z then 0#32 else s.getGR b

/-- SHLA (R268): ST.CB is not written. -/
def execShla (r : GReg) (z l o : Bool) (sa : BitVec 2) (a b : GReg) (s : State) : Host.Outcome State Fault Refusal :=
  conclude s (if o && shlaOverflow l (s.getGR a) (shlaAddend z b s) sa then .trap (instrTrap .overflow s)
    else .done (s.setGR r (shlaShift (s.getGR a) sa + shlaAddend z b s)).retire)

/-- LSID (R270). -/
def execLsid (r b : GReg) (s : State) : Host.Outcome State Fault Refusal :=
  .next (s.setGR r (s.getSR (segSelect (s.getGR b)))).retire

end Sys2Proof.Machine
end

