-- ==== Sys2Proof/Machine/Immediate.lean ====
section
/-! DEFINITION. The immediate instructions (41_immediate.md R200 to R206). -/

namespace Sys2Proof.Machine

/-- LDIL (R201). -/
def execLdil (r : GReg) (val : BitVec 22) (s : State) : Host.Outcome State Fault Refusal :=
  .next (s.setGR r (leftImmediate val)).retire

/-- ADDIL (R203): the sum wraps and no flag is written. -/
def execAddil (r : GReg) (val : BitVec 22) (s : State) : Host.Outcome State Fault Refusal :=
  .next (s.setGR r (s.getGR r + leftImmediate val)).retire

/-- The value of LDO: the immediate of mode 0, the offset of modes 8 to 31; modes 1 to 7 raise trap 5 (R205). -/
def effectiveOffset (opd : Operand) (s : State) : Attempt Word :=
  match opd with
  | .imm val => .done (lseWord val)
  | .indexed _ base _ ofs => .done (indexedOffset base ofs s)
  | .reg _ => .trap (instrTrap .illegalInstruction s)
  | .regs _ _ => .trap (instrTrap .illegalInstruction s)
  | .mode3 _ => .trap (instrTrap .illegalInstruction s)
  | .regIdx _ _ _ _ => .trap (instrTrap .illegalInstruction s)
  | .mode7 _ => .trap (instrTrap .illegalInstruction s)

/-- LDO (R205): no segment, no alignment test, no memory access. -/
def execLdo (r : GReg) (opd : Operand) (s : State) : Host.Outcome State Fault Refusal :=
  conclude s ((effectiveOffset opd s).bind fun v => .done (s.setGR r v).retire)

end Sys2Proof.Machine
end

