-- ==== Sys2Proof/Machine/MemoryReference.lean ====
section
/-! DEFINITION. The memory reference instructions (40_memory_reference.md R170 to R195): one meaning per
constructor over the shared load and store. -/

namespace Sys2Proof.Machine

/-- A load of width `w` at computed offset `x` into GR[r] (R174, R176, R177). -/
def load (w : Width) (r : GReg) (seg : BitVec 2) (x : Word) (s : State) : Attempt State :=
  (memRead w seg x s).bind fun (v, t) => .done (t.setGR r v).retire

/-- A store of width `w` of GR[r] at computed offset `x` (R175, R178, R179). -/
def store (w : Width) (r : GReg) (seg : BitVec 2) (x : Word) (s : State) : Attempt State :=
  (memWrite w seg x (s.getGR r) s).bind fun t => .done t.retire

/-- LDW, register indexed (R174). -/
def execLdwReg (r : GReg) (seg : BitVec 2) (a b : GReg) (s : State) : Host.Outcome State Fault Refusal :=
  conclude s (load .word r seg (regIdxOffset a b s) s)

/-- LDW, indexed (R174). -/
def execLdwOfs (r : GReg) (base : BitVec 3) (seg : BitVec 2) (ofs : BitVec 12) (s : State) :
    Host.Outcome State Fault Refusal :=
  conclude s (load .word r seg (indexedOffset base ofs s) s)

/-- LDH, register indexed (R176). -/
def execLdhReg (r : GReg) (seg : BitVec 2) (a b : GReg) (s : State) : Host.Outcome State Fault Refusal :=
  conclude s (load .half r seg (regIdxOffset a b s) s)

/-- LDH, indexed (R176). -/
def execLdhOfs (r : GReg) (base : BitVec 3) (seg : BitVec 2) (ofs : BitVec 12) (s : State) :
    Host.Outcome State Fault Refusal :=
  conclude s (load .half r seg (indexedOffset base ofs s) s)

/-- LDB, register indexed (R177). -/
def execLdbReg (r : GReg) (seg : BitVec 2) (a b : GReg) (s : State) : Host.Outcome State Fault Refusal :=
  conclude s (load .byte r seg (regIdxOffset a b s) s)

/-- LDB, indexed (R177). -/
def execLdbOfs (r : GReg) (base : BitVec 3) (seg : BitVec 2) (ofs : BitVec 12) (s : State) :
    Host.Outcome State Fault Refusal :=
  conclude s (load .byte r seg (indexedOffset base ofs s) s)

/-- STW (R175). -/
def execStw (r : GReg) (base : BitVec 3) (seg : BitVec 2) (ofs : BitVec 12) (s : State) :
    Host.Outcome State Fault Refusal :=
  conclude s (store .word r seg (indexedOffset base ofs s) s)

/-- STH (R178). -/
def execSth (r : GReg) (base : BitVec 3) (seg : BitVec 2) (ofs : BitVec 12) (s : State) :
    Host.Outcome State Fault Refusal :=
  conclude s (store .half r seg (indexedOffset base ofs s) s)

/-- STB (R179). -/
def execStb (r : GReg) (base : BitVec 3) (seg : BitVec 2) (ofs : BitVec 12) (s : State) :
    Host.Outcome State Fault Refusal :=
  conclude s (store .byte r seg (indexedOffset base ofs s) s)

/-- The load of LDWR: GR[r] receives the word and the reservation its physical address (R191). -/
def loadReserved (r : GReg) (seg : BitVec 2) (x : Word) (s : State) : Attempt State :=
  (dataAddress false .word seg x s).bind fun pa =>
    (physRead pa .word s).bind fun (v, t) => .done { t.setGR r v with resv := some pa }.retire

/-- LDWR (R191). -/
def execLdwr (r : GReg) (base : BitVec 3) (seg : BitVec 2) (ofs : BitVec 12) (s : State) :
    Host.Outcome State Fault Refusal :=
  conclude s (loadReserved r seg (indexedOffset base ofs s) s)

/-- The draw of a spurious failure: a free boolean under `STWC_MAY_FAIL` (R192, notes/assumptions/19.md). -/
def stwcDraw (s : State) : Bool := Config.stwcMayFail && Config.stwcFails s.draws

/-- The store of STWC happens: the reservation is on this word and no failure is drawn (R192). -/
def stwcSucceeds (pa : Word) (s : State) : Bool := decide (s.resv = some pa) && !stwcDraw s

/-- STWC's store at a checked physical address, and the status it returns (R192). -/
def storeConditional (r : GReg) (pa : Word) (s : State) : Attempt State :=
  if stwcSucceeds pa s then
    (physWrite pa .word (s.getGR r) { s with draws := s.draws + 1 }).bind fun t =>
      .done ({ t with resv := none }.setGR r 0#32).retire
  else .done ({ s with draws := s.draws + 1, resv := none }.setGR r 1#32).retire

/-- STWC (R192): the address is checked as for a store whether or not the store happens. -/
def execStwc (r : GReg) (base : BitVec 3) (seg : BitVec 2) (ofs : BitVec 12) (s : State) :
    Host.Outcome State Fault Refusal :=
  conclude s ((dataAddress true .word seg (indexedOffset base ofs s) s).bind fun pa => storeConditional r pa s)

/-- An absolute load, privileged (R180, R181, 20_memory.md R115). -/
def loadAbsolute (r : GReg) (pa : Word) (s : State) : Attempt State :=
  privileged s ((plainAddress .word pa s).bind fun pa =>
    (physRead pa .word s).bind fun (v, t) => .done (t.setGR r v).retire)

/-- LDWA (R180). -/
def execLdwa (r : GReg) (ofs : BitVec 18) (b : GReg) (s : State) : Host.Outcome State Fault Refusal :=
  conclude s (loadAbsolute r (absoluteOffset b ofs s) s)

/-- LDWAX (R181). -/
def execLdwax (r a b : GReg) (s : State) : Host.Outcome State Fault Refusal :=
  conclude s (loadAbsolute r (s.getGR b + s.getGR a) s)

/-- STWA, privileged (R182, 20_memory.md R115). -/
def execStwa (r : GReg) (ofs : BitVec 18) (b : GReg) (s : State) : Host.Outcome State Fault Refusal :=
  conclude s (privileged s ((plainAddress .word (absoluteOffset b ofs s) s).bind fun pa =>
    (physWrite pa .word (s.getGR r) s).bind fun t => .done t.retire))

end Sys2Proof.Machine
end

