-- ==== Sys2Proof/Machine/SystemControl.lean ====
section
/-! DEFINITION. The system control instructions (44_system_control.md R280 to R301). -/

namespace Sys2Proof.Machine

/-! ### MR and MST -/

/-- The control register that MR's field names (R280). -/
def specialCR (x : BitVec 6) : CReg := x.setWidth 5

/-- The segment register that MR's field names (R280). -/
def specialSR (x : BitVec 6) : SReg := x.setWidth 3

/-- MR's target is a register whose write is privileged (R281). -/
def privilegedTarget (m : Bool) (x : BitVec 6) : Bool :=
  if m then Config.privCrWrite (specialCR x) else Config.privSrWrite (specialSR x)

/-- MR to a segment or control register (R280). -/
def moveToSpecial (r : GReg) (z m : Bool) (x : BitVec 6) (s : State) : Attempt State :=
  if s.st.x && privilegedTarget m x then .trap (instrTrap .privilegedOperation s)
  else if m then .done (writeCR (specialCR x) (if z then 0#32 else s.getGR r) s).retire
  else .done (s.setSR (specialSR x) (if z then 0#32 else s.getGR r)).retire

/-- MR from a segment or control register; with Z the named register is not accessed (R280). -/
def moveFromSpecial (r : GReg) (z m : Bool) (x : BitVec 6) (s : State) : State :=
  if z then (s.setGR r 0#32).retire
  else if m then ((readCR (specialCR x) s).2.setGR r (readCR (specialCR x) s).1).retire
  else (s.setGR r (s.getSR (specialSR x))).retire

/-- MR (R280, R281). -/
def execMr (r : GReg) (z d m : Bool) (x : BitVec 6) (s : State) : Host.Outcome State Fault Refusal :=
  conclude s (if d then moveToSpecial r z m x s else .done (moveFromSpecial r z m x s))

/-- The new bits 26..31 of MST; mode 3 raises trap 5 (R283). -/
def mstBits (mode : MstMode) (s : State) : Attempt (BitVec 6) :=
  match mode with
  | .replace b => .done ((s.getGR b).extractLsb' 0 6)
  | .set val => .done (statusMask s.st ||| val)
  | .clear val => .done (statusMask s.st &&& ~~~val)
  | .mode3 _ => .trap (instrTrap .illegalInstruction s)

/-- MST, privileged (R283): GR[r] receives the old bits. -/
def execMst (r : GReg) (mode : MstMode) (s : State) : Host.Outcome State Fault Refusal :=
  conclude s (privileged s ((mstBits mode s).bind fun v =>
    .done { s.setGR r ((statusMask s.st).setWidth 32) with st := setStatusMask s.st v }.retire))

/-! ### LDPA and PRB -/

/-- The physical address that LDPA loads (R285, R286): no rights are checked, no memory is accessed. -/
def physicalAddress (seg : BitVec 2) (x : Word) (s : State) : Attempt Word :=
  if !s.st.d then .done x
  else if bypassed (virtualAddress seg x s).1 then .done (virtualAddress seg x s).2
  else
    match tlbLookup s.dataTlb (virtualAddress seg x s).1 (virtualAddress seg x s).2 with
    | none => .trap (bareTrap .nonAccessDataTlbMiss)
    | some e => if foreign e then .refuse .foreignBank else .done (entryAddress e (virtualAddress seg x s).2)

/-- LDPA, privileged (R286). The field `a` takes no part (R285). -/
def execLdpa (r : GReg) (seg : BitVec 2) (_a : BitVec 4) (b : GReg) (s : State) : Host.Outcome State Fault Refusal :=
  conclude s (privileged s ((physicalAddress seg (s.getGR b) s).bind fun v => .done (s.setGR r v).retire))

/-- An access of this kind at this level would be allowed by the entry (R288). -/
def probeAllowed (m pl : Bool) (e : TlbEntry) (s : State) : Bool :=
  (if m then writeAllowed e pl else readAllowed e pl) && (!s.st.p || pidOk e m s)

/-- What PRB answers for the level `pl` (R288): the bypass allows everything; a miss raises trap 13. -/
def probe (m pl : Bool) (seg : BitVec 2) (x : Word) (s : State) : Attempt Bool :=
  if bypassed (virtualAddress seg x s).1 then .done true
  else
    match tlbLookup s.dataTlb (virtualAddress seg x s).1 (virtualAddress seg x s).2 with
    | none => .trap (bareTrap .nonAccessDataTlbMiss)
    | some e => .done (probeAllowed m pl e s)

/-- The privilege level that PRB reads from GR[r]: a value other than 0 and 1 has no meaning and is refused before
anything else (R288). -/
def probeLevel (v : Word) : Attempt Bool :=
  if v.toNat ≤ 1 then .done (decide (v = 1#32)) else .refuse .probeLevel

/-- PRB (R288). The field `a` takes no part (R285). -/
def execPrb (r : GReg) (seg : BitVec 2) (m : Bool) (_a : BitVec 4) (b : GReg) (s : State) :
    Host.Outcome State Fault Refusal :=
  conclude s ((probeLevel (s.getGR r)).bind fun pl =>
    (probe m pl seg (s.getGR b) s).bind fun ok => .done (s.setGR r (boolWord ok)).retire)

/-! ### ITLB and PTLB -/

/-- The address word of ITLB (10_state.md R54). -/
def addrOfWord (w : Word) : TlbAddr :=
  { cpuId := w.extractLsb' 24 4, bank := w.extractLsb' 20 4, ppn := w.extractLsb' 0 20 }

/-- The protection word of ITLB (10_state.md R54). -/
def protOfWord (w : Word) : TlbProt :=
  { u := w.getLsbD 31, t := w.getLsbD 30, d := w.getLsbD 29, b := w.getLsbD 28, type := w.extractLsb' 26 2,
    pl1 := w.getLsbD 25, pl2 := w.getLsbD 24, pid16 := w.extractLsb' 0 16 }

/-- A new entry: V is 0 and no field group has been written, so both are free (10_state.md R57,
notes/assumptions/20.md). -/
def freshEntry (seg : Word) (vpn : BitVec 20) (s : State) : TlbEntry :=
  { seg := seg, vpn := vpn, v := false, addr := addrOfWord (Config.unwrittenTlbWord s.draws),
    prot := protOfWord (Config.unwrittenTlbWord (s.draws + 1)) }

/-- A TLB with room for one more entry: a full one gives up an entry of the implementation's choice (10_state.md R57,
notes/assumptions/21.md). -/
def makeRoom (t : Bool) (m : Tlb) (s : State) : Tlb :=
  if tlbCapacity t ≤ m.length then m.eraseIdx (Config.tlbVictim (s.draws + 2) % m.length) else m

/-- The entry of a key, allocated if there is none, and the state with room for it (10_state.md R57). -/
def allocate (t : Bool) (seg : Word) (vpn : BitVec 20) (s : State) : TlbEntry × State :=
  match tlbFind (s.tlbOf t) (tlbKey seg vpn) with
  | some e => (e, s)
  | none => (freshEntry seg vpn s, { s.withTlb t (makeRoom t (s.tlbOf t) s) with draws := s.draws + 3 })

/-- The entry after one step of the insert: the address part and V 0, or the protection part and V 1 (R289). -/
def fillEntry (m : Bool) (w : Word) (e : TlbEntry) : TlbEntry :=
  if m then { e with prot := protOfWord w, v := true } else { e with addr := addrOfWord w, v := false }

/-- ITLB's insert (R289): GR[b] is a full offset, its low 12 bits ignored. -/
def insertTranslation (r : GReg) (t m : Bool) (a : BitVec 4) (b : GReg) (s : State) : State :=
  match allocate t (s.getSR (segReg a)) (pageOf (s.getGR b)) s with
  | (e, u) => u.withTlb t (tlbPut (u.tlbOf t) (fillEntry m (s.getGR r) e))

/-- ITLB, privileged (R289). -/
def execItlb (r : GReg) (t m : Bool) (a : BitVec 4) (b : GReg) (s : State) : Host.Outcome State Fault Refusal :=
  conclude s (privileged s (.done (insertTranslation r t m a b s).retire))

/-- PTLB, privileged (R291). -/
def execPtlb (t : Bool) (a : BitVec 4) (b : GReg) (s : State) : Host.Outcome State Fault Refusal :=
  conclude s (privileged s (.done (s.withTlb t
    (tlbRemove (s.tlbOf t) (tlbKey (s.getSR (segReg a)) (pageOf (s.getGR b))))).retire))

/-! ### PCA -/

/-- The word address lies in the cache line of a physical address (20_memory.md R120). -/
def inLine (pa : Word) (a : Nat) : Bool := decide (a / Config.cacheLineBytes = pa.toNat / Config.cacheLineBytes)

/-- The physical address of the line that PCA names, through the TLB of T whatever ST.C and ST.D are (R293, R294). -/
def lineAddress (t : Bool) (a : BitVec 4) (b : GReg) (s : State) : Attempt Word :=
  if bypassed (s.getSR (segReg a)) then .done (s.getGR b)
  else
    match tlbLookup (s.tlbOf t) (s.getSR (segReg a)) (s.getGR b) with
    | none => .trap (bareTrap (if t then .nonAccessDataTlbMiss else .nonAccessInstrTlbMiss))
    | some e => if foreign e then .refuse .foreignBank else .done (entryAddress e (s.getGR b))

/-- The data side, flush then purge: `needs_flush` becomes false in the line (R293). -/
def flushLine (pa : Word) (s : State) : State :=
  { s with needsFlush := s.needsFlush.filter (fun a => !inLine pa a) }

/-- The instruction side: `needs_purge` becomes false for the words of the line whose `needs_flush` is false (R293). -/
def purgeInstrLine (pa : Word) (s : State) : State :=
  { s with needsPurge := s.needsPurge.filter (fun a => !(inLine pa a && !s.needsFlush.contains a)) }

/-- PCA's effect on the flags (R293): purging a data line that holds unflushed stores is refused (20_memory.md R121). -/
def purgeCache (t f : Bool) (pa : Word) (s : State) : Attempt State :=
  if t then
    if f then
      if s.needsFlush.any (inLine pa) then .refuse .purgeOfUnflushedLine else .done s
    else .done (flushLine pa s)
  else .done (purgeInstrLine pa s)

/-- PCA, privileged (R293, R300). -/
def execPca (t f : Bool) (a : BitVec 4) (b : GReg) (s : State) : Host.Outcome State Fault Refusal :=
  conclude s (privileged s ((lineAddress t a b s).bind fun pa => (purgeCache t f pa s).bind fun u => .done u.retire))

/-! ### RFI, DIAG and BRK -/

/-- RFI, privileged (R296): the IA is not incremented. -/
def execRfi (s : State) : Host.Outcome State Fault Refusal :=
  conclude s (privileged s (.done (trapReturn s)))

/-- DIAG, privileged (R298): no command is defined, so in privileged mode it is refused. -/
def execDiag (_r _a _b : GReg) (s : State) : Host.Outcome State Fault Refusal :=
  conclude s (privileged s (.refuse .diagCommand))

/-- BRK (R299): trap 18 with the instruction word, which holds info1 and info2. -/
def execBrk (_info1 : BitVec 4) (_info2 : BitVec 16) (s : State) : Host.Outcome State Fault Refusal :=
  conclude s (.trap (instrTrap .breakInstruction s))

end Sys2Proof.Machine
end

