-- ==== Sys2Proof/Machine/Dispatch.lean ====
section
/-! DEFINITION. The dispatch of an instruction to its meaning, one arm per row of spec/opcode_table.json. -/

namespace Sys2Proof.Machine

def exec (i : Instr) (s : State) : Host.Outcome State Fault Refusal :=
  match i with
  | .ldwReg r seg a b => Sys2Proof.Machine.execLdwReg r seg a b s
  | .ldwOfs r base seg ofs => Sys2Proof.Machine.execLdwOfs r base seg ofs s
  | .ldhReg r seg a b => Sys2Proof.Machine.execLdhReg r seg a b s
  | .ldhOfs r base seg ofs => Sys2Proof.Machine.execLdhOfs r base seg ofs s
  | .ldbReg r seg a b => Sys2Proof.Machine.execLdbReg r seg a b s
  | .ldbOfs r base seg ofs => Sys2Proof.Machine.execLdbOfs r base seg ofs s
  | .stw r base seg ofs => Sys2Proof.Machine.execStw r base seg ofs s
  | .sth r base seg ofs => Sys2Proof.Machine.execSth r base seg ofs s
  | .stb r base seg ofs => Sys2Proof.Machine.execStb r base seg ofs s
  | .ldwr r base seg ofs => Sys2Proof.Machine.execLdwr r base seg ofs s
  | .stwc r base seg ofs => Sys2Proof.Machine.execStwc r base seg ofs s
  | .ldwa r ofs b => Sys2Proof.Machine.execLdwa r ofs b s
  | .ldwax r a b => Sys2Proof.Machine.execLdwax r a b s
  | .stwa r ofs b => Sys2Proof.Machine.execStwa r ofs b s
  | .ldil r val => Sys2Proof.Machine.execLdil r val s
  | .addil r val => Sys2Proof.Machine.execAddil r val s
  | .ldo r opd => Sys2Proof.Machine.execLdo r opd s
  | .b ofs => Sys2Proof.Machine.execB ofs s
  | .bl r ofs => Sys2Proof.Machine.execBl r ofs s
  | .br b => Sys2Proof.Machine.execBr b s
  | .blr r b => Sys2Proof.Machine.execBlr r b s
  | .bv b => Sys2Proof.Machine.execBv b s
  | .bvr a b => Sys2Proof.Machine.execBvr a b s
  | .be ofs a b => Sys2Proof.Machine.execBe ofs a b s
  | .ble ofs a b => Sys2Proof.Machine.execBle ofs a b s
  | .gate r ofs => Sys2Proof.Machine.execGate r ofs s
  | .cbr cond ofs a b => Sys2Proof.Machine.execCbr cond ofs a b s
  | .tbr cond ofs b => Sys2Proof.Machine.execTbr cond ofs b s
  | .add r c l o opd => Sys2Proof.Machine.execAdd r c l o opd s
  | .sub r c l o opd => Sys2Proof.Machine.execSub r c l o opd s
  | .and r n c opd => Sys2Proof.Machine.execAnd r n c opd s
  | .or r n c opd => Sys2Proof.Machine.execOr r n c opd s
  | .xor r n c opd => Sys2Proof.Machine.execXor r n c opd s
  | .cmp r cond opd => Sys2Proof.Machine.execCmp r cond opd s
  | .cmr r cond a b => Sys2Proof.Machine.execCmr r cond a b s
  | .extr r sx a len pos b => Sys2Proof.Machine.execExtr r sx a len pos b s
  | .dep r z a im len pos b => Sys2Proof.Machine.execDep r z a im len pos b s
  | .dsr r a shamt ra rb => Sys2Proof.Machine.execDsr r a shamt ra rb s
  | .shla r z l o sa a b => Sys2Proof.Machine.execShla r z l o sa a b s
  | .lsid r b => Sys2Proof.Machine.execLsid r b s
  | .mr r z d m sx => Sys2Proof.Machine.execMr r z d m sx s
  | .mst r mode => Sys2Proof.Machine.execMst r mode s
  | .ldpa r seg a b => Sys2Proof.Machine.execLdpa r seg a b s
  | .prb r seg m a b => Sys2Proof.Machine.execPrb r seg m a b s
  | .itlb r t m a b => Sys2Proof.Machine.execItlb r t m a b s
  | .ptlb t a b => Sys2Proof.Machine.execPtlb t a b s
  | .pca t f a b => Sys2Proof.Machine.execPca t f a b s
  | .diag r a b => Sys2Proof.Machine.execDiag r a b s
  | .rfi => Sys2Proof.Machine.execRfi s
  | .brk info1 info2 => Sys2Proof.Machine.execBrk info1 info2 s

end Sys2Proof.Machine
end

