-- ==== Sys2Proof/WellFormed.lean ====
section
/-! DEFINITION. Which instruction terms an instruction word can hold: the three constraints of 30_encoding.md that
the fields' widths do not already give. -/

namespace Sys2Proof

/-- A 4-bit field that names a segment register holds 0 to 7 (30_encoding.md R146). -/
def segFieldOk (a : BitVec 4) : Bool := decide (a.toNat < 8)

/-- MR's 6-bit field names one of 32 control registers or one of 8 segment registers (30_encoding.md R149). -/
def specialFieldOk (m : Bool) (s : BitVec 6) : Bool :=
  if m then decide (s.toNat < 32) else decide (s.toNat < 8)

/-- The operands that LDO has: mode 0 and modes 8 to 31 (30_encoding.md R143). -/
def ldoOperandOk : Operand → Bool
  | .imm _ => true
  | .indexed _ _ _ _ => true
  | .reg _ => false
  | .regs _ _ => false
  | .mode3 _ => false
  | .regIdx _ _ _ _ => false
  | .mode7 _ => false

/-- The term has an encoding without reserved bits set. -/
def Instr.wf : Instr → Bool
  | .ldwReg _ _ _ _ => true
  | .ldwOfs _ _ _ _ => true
  | .ldhReg _ _ _ _ => true
  | .ldhOfs _ _ _ _ => true
  | .ldbReg _ _ _ _ => true
  | .ldbOfs _ _ _ _ => true
  | .stw _ _ _ _ => true
  | .sth _ _ _ _ => true
  | .stb _ _ _ _ => true
  | .ldwr _ _ _ _ => true
  | .stwc _ _ _ _ => true
  | .ldwa _ _ _ => true
  | .ldwax _ _ _ => true
  | .stwa _ _ _ => true
  | .ldil _ _ => true
  | .addil _ _ => true
  | .ldo _ opd => ldoOperandOk opd
  | .b _ => true
  | .bl _ _ => true
  | .br _ => true
  | .blr _ _ => true
  | .bv _ => true
  | .bvr _ _ => true
  | .be _ a _ => segFieldOk a
  | .ble _ a _ => segFieldOk a
  | .gate _ _ => true
  | .cbr _ _ _ _ => true
  | .tbr _ _ _ => true
  | .add _ _ _ _ _ => true
  | .sub _ _ _ _ _ => true
  | .and _ _ _ _ => true
  | .or _ _ _ _ => true
  | .xor _ _ _ _ => true
  | .cmp _ _ _ => true
  | .cmr _ _ _ _ => true
  | .extr _ _ _ _ _ _ => true
  | .dep _ _ _ _ _ _ _ => true
  | .dsr _ _ _ _ _ => true
  | .shla _ _ _ _ _ _ _ => true
  | .lsid _ _ => true
  | .mr _ _ _ m s => specialFieldOk m s
  | .mst _ _ => true
  | .ldpa _ _ a _ => segFieldOk a
  | .prb _ _ _ a _ => segFieldOk a
  | .itlb _ _ _ a _ => segFieldOk a
  | .ptlb _ a _ => segFieldOk a
  | .pca _ _ a _ => segFieldOk a
  | .diag _ _ _ => true
  | .rfi => true
  | .brk _ _ => true

end Sys2Proof
end

