-- ==== Sys2Proof/Decode.lean ====
section
/-! DEFINITION. The decoder and, after it, the encoder (30_encoding.md R130 to R154). The decoder reads the fields
of R149, tests the reserved bits of R132, and rejects by name what is no instruction; the encoder places the same
fields. Both are written from the field table of R149, in conventional bit positions (manual bit n is 31 - n). -/

namespace Sys2Proof

/-! ### Fields and bytes -/

/-- The `n`-bit field of `w` whose least significant bit is bit `lo`. -/
def field (w : Word) (lo n : Nat) : BitVec n := w.extractLsb' lo n

/-- Bit `k` of `w`, as an option bit. -/
def flag (w : Word) (k : Nat) : Bool := w.getLsbD k

/-- The word with the field `v` at bit `lo` and zeros elsewhere. -/
def place {n : Nat} (v : BitVec n) (lo : Nat) : Word := v.setWidth 32 <<< lo

/-- The word with the option bit `c` at bit `k` and zeros elsewhere. -/
def placeFlag (c : Bool) (k : Nat) : Word := place (BitVec.ofBool c) k

/-- The bytes of a word in memory order, most significant first (20_memory.md R70). -/
def wordBytes (w : Word) : List Byte := [field w 24 8, field w 16 8, field w 8 8, field w 0 8]

/-- The word made of four bytes in memory order (20_memory.md R70, R71). -/
def bytesWord (b0 b1 b2 b3 : Byte) : Word := b0 ++ b1 ++ b2 ++ b3

/-! ### Decoder -/

/-- Why a word is no instruction. -/
inductive DecodeError where
  /-- Fewer than the four bytes of a word. -/
  | tooShort
  /-- One of the 21 unassigned opcodes (R151): trap 5. -/
  | unassignedOpcode
  /-- An operand mode that one of the opcodes 0x18 to 0x1C does not have (R143): trap 5. -/
  | illegalOpMode
  /-- A non-zero reserved field under `RESERVED_POLICY` = refuse (R132). -/
  | reservedField
  /-- A non-zero reserved field under `RESERVED_POLICY` = trap5 (R132). -/
  | reservedFieldTrap
deriving DecidableEq, Repr

/-- The conditions of CMP and CBR by their encoding (42_branch.md R226). -/
def cmpCondOf (c : BitVec 3) : CmpCond :=
  match c.toNat with
  | 0 => .eq | 1 => .lt | 2 => .gt | 3 => .ls | 4 => .ne | 5 => .le | 6 => .ge | _ => .hi

/-- The conditions of CMR and TBR by their encoding (42_branch.md R227). -/
def testCondOf (c : BitVec 3) : TestCond :=
  match c.toNat with
  | 0 => .eq | 1 => .lt | 2 => .gt | 3 => .ev | 4 => .ne | 5 => .le | 6 => .ge | _ => .od

/-- The operand mode field of an operand-format word (R133). -/
def opModeOf (w : Word) : BitVec 5 := field w 14 5

/-- The operand of an operand-format word (R134, R135). -/
def parseOperand (w : Word) : Operand :=
  match (opModeOf w).toNat with
  | 0 => .imm (field w 0 14)
  | 1 => .reg (field w 0 4)
  | 2 => .regs (field w 4 4) (field w 0 4)
  | 3 => .mode3 (field w 0 14)
  | 4 => .regIdx .word (field w 12 2) (field w 4 4) (field w 0 4)
  | 5 => .regIdx .half (field w 12 2) (field w 4 4) (field w 0 4)
  | 6 => .regIdx .byte (field w 12 2) (field w 4 4) (field w 0 4)
  | 7 => .mode7 (field w 0 14)
  | _ =>
    match (field w 17 2).toNat with
    | 1 => .indexed .word (field w 14 3) (field w 12 2) (field w 0 12)
    | 2 => .indexed .half (field w 14 3) (field w 12 2) (field w 0 12)
    | _ => .indexed .byte (field w 14 3) (field w 12 2) (field w 0 12)

/-- Opcode 0x18: the operand mode chooses the mnemonic (R143). -/
def parseLoad (w : Word) : Except DecodeError Instr :=
  match parseOperand w with
  | .regIdx .word seg a b => .ok (.ldwReg (field w 22 4) seg a b)
  | .regIdx .half seg a b => .ok (.ldhReg (field w 22 4) seg a b)
  | .regIdx .byte seg a b => .ok (.ldbReg (field w 22 4) seg a b)
  | .indexed .word base seg ofs => .ok (.ldwOfs (field w 22 4) base seg ofs)
  | .indexed .half base seg ofs => .ok (.ldhOfs (field w 22 4) base seg ofs)
  | .indexed .byte base seg ofs => .ok (.ldbOfs (field w 22 4) base seg ofs)
  | _ => .error .illegalOpMode

/-- Opcode 0x19: stores have the indexed modes only (R143). -/
def parseStore (w : Word) : Except DecodeError Instr :=
  match parseOperand w with
  | .indexed .word base seg ofs => .ok (.stw (field w 22 4) base seg ofs)
  | .indexed .half base seg ofs => .ok (.sth (field w 22 4) base seg ofs)
  | .indexed .byte base seg ofs => .ok (.stb (field w 22 4) base seg ofs)
  | _ => .error .illegalOpMode

/-- Opcodes 0x1A and 0x1B: modes 8 to 15 only (R143). -/
def parseReserved (w : Word) (mk : GReg → BitVec 3 → BitVec 2 → BitVec 12 → Instr) : Except DecodeError Instr :=
  match parseOperand w with
  | .indexed .word base seg ofs => .ok (mk (field w 22 4) base seg ofs)
  | _ => .error .illegalOpMode

/-- Opcode 0x1C: modes 0 and 8 to 31 only (R143, 41_immediate.md R205). -/
def parseLdo (w : Word) : Except DecodeError Instr :=
  match parseOperand w with
  | .imm val => .ok (.ldo (field w 22 4) (.imm val))
  | .indexed wd base seg ofs => .ok (.ldo (field w 22 4) (.indexed wd base seg ofs))
  | _ => .error .illegalOpMode

/-- The mode and operand of MST (44_system_control.md R283). -/
def parseMst (w : Word) : MstMode :=
  match (field w 20 2).toNat with
  | 0 => .replace (field w 0 4)
  | 1 => .set (field w 0 6)
  | 2 => .clear (field w 0 6)
  | _ => .mode3 (field w 0 6)

/-- The opcode of a word (R130). -/
def opcodeOf (w : Word) : BitVec 6 := field w 26 6

/-- The instruction of a word by the opcode map of R150 and the fields of R149, its reserved bits not looked at. -/
def parse (w : Word) : Except DecodeError Instr :=
  match (opcodeOf w).toNat with
  | 0x00 => .ok (.brk (field w 22 4) (field w 0 16))
  | 0x01 => .ok (.lsid (field w 22 4) (field w 0 4))
  | 0x02 => .ok (.ldil (field w 22 4) (field w 0 22))
  | 0x03 => .ok (.addil (field w 22 4) (field w 0 22))
  | 0x04 => .ok (.extr (field w 22 4) (flag w 21) (flag w 20) (field w 9 5) (field w 4 5) (field w 0 4))
  | 0x05 => .ok (.dep (field w 22 4) (flag w 21) (flag w 20) (flag w 19) (field w 9 5) (field w 4 5) (field w 0 4))
  | 0x06 => .ok (.dsr (field w 22 4) (flag w 20) (field w 9 5) (field w 4 4) (field w 0 4))
  | 0x07 => .ok (.shla (field w 22 4) (flag w 21) (flag w 20) (flag w 19) (field w 9 2) (field w 4 4) (field w 0 4))
  | 0x08 => .ok (.cmr (field w 22 4) (testCondOf (field w 19 3)) (field w 4 4) (field w 0 4))
  | 0x09 => .ok (.mr (field w 22 4) (flag w 21) (flag w 20) (flag w 19) (field w 0 6))
  | 0x0A => .ok (.mst (field w 22 4) (parseMst w))
  | 0x10 => .ok (.add (field w 22 4) (flag w 21) (flag w 20) (flag w 19) (parseOperand w))
  | 0x11 => .ok (.sub (field w 22 4) (flag w 21) (flag w 20) (flag w 19) (parseOperand w))
  | 0x12 => .ok (.and (field w 22 4) (flag w 21) (flag w 20) (parseOperand w))
  | 0x13 => .ok (.or (field w 22 4) (flag w 21) (flag w 20) (parseOperand w))
  | 0x14 => .ok (.xor (field w 22 4) (flag w 21) (flag w 20) (parseOperand w))
  | 0x15 => .ok (.cmp (field w 22 4) (cmpCondOf (field w 19 3)) (parseOperand w))
  | 0x18 => parseLoad w
  | 0x19 => parseStore w
  | 0x1A => parseReserved w .ldwr
  | 0x1B => parseReserved w .stwc
  | 0x1C => parseLdo w
  | 0x20 => .ok (.b (field w 0 22))
  | 0x21 => .ok (.bl (field w 22 4) (field w 0 22))
  | 0x22 => .ok (.br (field w 0 4))
  | 0x23 => .ok (.blr (field w 22 4) (field w 0 4))
  | 0x24 => .ok (.bv (field w 0 4))
  | 0x25 => .ok (.bvr (field w 4 4) (field w 0 4))
  | 0x26 => .ok (.be (field w 8 18) (field w 4 4) (field w 0 4))
  | 0x27 => .ok (.ble (field w 8 18) (field w 4 4) (field w 0 4))
  | 0x28 => .ok (.gate (field w 22 4) (field w 0 22))
  | 0x29 => .ok (.cbr (cmpCondOf (field w 23 3)) (field w 8 15) (field w 4 4) (field w 0 4))
  | 0x2A => .ok (.tbr (testCondOf (field w 23 3)) (field w 8 15) (field w 0 4))
  | 0x30 => .ok (.ldpa (field w 22 4) (field w 20 2) (field w 4 4) (field w 0 4))
  | 0x31 => .ok (.prb (field w 22 4) (field w 20 2) (flag w 19) (field w 4 4) (field w 0 4))
  | 0x32 => .ok (.itlb (field w 22 4) (flag w 21) (flag w 20) (field w 4 4) (field w 0 4))
  | 0x33 => .ok (.ptlb (flag w 21) (field w 4 4) (field w 0 4))
  | 0x34 => .ok (.pca (flag w 21) (flag w 20) (field w 4 4) (field w 0 4))
  | 0x35 => .ok (.diag (field w 22 4) (field w 4 4) (field w 0 4))
  | 0x3C => .ok (.ldwa (field w 22 4) (field w 4 18) (field w 0 4))
  | 0x3D => .ok (.ldwax (field w 22 4) (field w 4 4) (field w 0 4))
  | 0x3E => .ok (.stwa (field w 22 4) (field w 4 18) (field w 0 4))
  | 0x3F => .ok .rfi
  | _ => .error .unassignedOpcode

/-- The bits of opArg that the layout of a mode of ADD to CMP marks 0 (R134). An undefined mode has no layout that the
instruction uses: it raises trap 5 whatever opArg holds (R143, notes/assumptions/32.md). -/
def opArgMask (mode : BitVec 5) : Word :=
  match mode.toNat with
  | 0 => 0#32
  | 1 => 0x00003FF0#32
  | 2 => 0x00003F00#32
  | 4 => 0x00000F00#32
  | 5 => 0x00000F00#32
  | 6 => 0x00000F00#32
  | _ => 0#32

/-- The bits of opArg that the layout of a mode of opcode 0x18 marks 0: it has the register-indexed modes 4 to 6, the
indexed modes, which mark none, and no other (R134, R143). -/
def loadArgMask (mode : BitVec 5) : Word :=
  match mode.toNat with
  | 4 => 0x00000F00#32
  | 5 => 0x00000F00#32
  | 6 => 0x00000F00#32
  | _ => 0#32

/-- The bits that R149 marks 0 in a word with this opcode (and mode, where the layout depends on it); the leftmost
bit of a field that names a segment register is among them (R146). -/
def reservedMask (w : Word) : Word :=
  match (opcodeOf w).toNat with
  | 0x00 => 0x003F0000#32
  | 0x01 => 0x003FFFF0#32
  | 0x04 => 0x000FC000#32
  | 0x05 => 0x0007C000#32
  | 0x06 => 0x002FC100#32
  | 0x07 => 0x0007F900#32
  | 0x08 => 0x0007FF00#32
  | 0x09 => if flag w 19 then 0x0007FFE0#32 else 0x0007FFF8#32
  | 0x0A => if field w 20 2 = 0#2 then 0x000FFFF0#32 else 0x000FFFC0#32
  | 0x10 => opArgMask (opModeOf w)
  | 0x11 => opArgMask (opModeOf w)
  | 0x12 => 0x00080000#32 ||| opArgMask (opModeOf w)
  | 0x13 => 0x00080000#32 ||| opArgMask (opModeOf w)
  | 0x14 => 0x00080000#32 ||| opArgMask (opModeOf w)
  | 0x15 => opArgMask (opModeOf w)
  | 0x18 => 0x00380000#32 ||| loadArgMask (opModeOf w)
  | 0x19 => 0x00380000#32
  | 0x1A => 0x00380000#32
  | 0x1B => 0x00380000#32
  | 0x1C => 0x00380000#32
  | 0x20 => 0x03C00000#32
  | 0x22 => 0x03FFFFF0#32
  | 0x23 => 0x003FFFF0#32
  | 0x24 => 0x03FFFFF0#32
  | 0x25 => 0x03FFFF00#32
  | 0x26 => 0x00000080#32
  | 0x27 => 0x00000080#32
  | 0x2A => 0x000000F0#32
  | 0x30 => 0x000FFF80#32
  | 0x31 => 0x0007FF80#32
  | 0x32 => 0x000FFF80#32
  | 0x33 => 0x03DFFF80#32
  | 0x34 => 0x03CFFF80#32
  | 0x35 => 0x003FFF00#32
  | 0x3D => 0x003FFF00#32
  | 0x3F => 0x03FFFFFF#32
  | _ => 0#32

/-- The decoder (R154): reserved fields by `RESERVED_POLICY`, then the operand mode. An unassigned opcode has no
reserved field, so it is rejected as such first. -/
def decode (w : Word) : Except DecodeError Instr :=
  if w &&& reservedMask w = 0#32 then parse w
  else
    match Config.reservedPolicy with
    | .refuse => .error .reservedField
    | .trap5 => .error .reservedFieldTrap
    | .ignore => parse (w &&& ~~~(reservedMask w))

/-- The decoder on bytes in memory order: the instruction and the bytes after it (R130). -/
def decodeBytes : List Byte → Except DecodeError (Instr × List Byte)
  | b0 :: b1 :: b2 :: b3 :: rest =>
    match decode (bytesWord b0 b1 b2 b3) with
    | .ok i => .ok (i, rest)
    | .error e => .error e
  | _ => .error .tooShort

/-- The instruction the decoder reads from a word numbered as spec/opcode_table.json numbers it, its bits from
`nbits` on being 0. -/
def decodeTableWord (nbits w : Nat) : Option Instr :=
  match decodeBytes (wordBytes (BitVec.ofNat 32 (w % 2 ^ nbits))) with
  | .ok (i, _) => some i
  | .error _ => none

/-! ### Encoder -/

/-- The encoding of a condition of CMP and CBR. -/
def cmpCondBits : CmpCond → BitVec 3
  | .eq => 0#3 | .lt => 1#3 | .gt => 2#3 | .ls => 3#3 | .ne => 4#3 | .le => 5#3 | .ge => 6#3 | .hi => 7#3

/-- The encoding of a condition of CMR and TBR. -/
def testCondBits : TestCond → BitVec 3
  | .eq => 0#3 | .lt => 1#3 | .gt => 2#3 | .ev => 3#3 | .ne => 4#3 | .le => 5#3 | .ge => 6#3 | .od => 7#3

/-- The operand mode of the register-indexed form of a width (R134). -/
def regIdxMode : Width → BitVec 5
  | .word => 4#5 | .half => 5#5 | .byte => 6#5

/-- The width group of the indexed modes, bits 4..3 of the mode (R135). -/
def widthGroup : Width → BitVec 2
  | .word => 1#2 | .half => 2#2 | .byte => 3#2

/-- opMode and opArg of an operand (R134). -/
def encodeOperand : Operand → Word
  | .imm val => place val 0
  | .reg b => place 1#5 14 ||| place b 0
  | .regs a b => place 2#5 14 ||| place a 4 ||| place b 0
  | .mode3 arg => place 3#5 14 ||| place arg 0
  | .regIdx w seg a b => place (regIdxMode w) 14 ||| place seg 12 ||| place a 4 ||| place b 0
  | .mode7 arg => place 7#5 14 ||| place arg 0
  | .indexed w base seg ofs => place (widthGroup w) 17 ||| place base 14 ||| place seg 12 ||| place ofs 0

/-- Mode and operand of MST (R149). -/
def encodeMst : MstMode → Word
  | .replace b => place 0#2 20 ||| place b 0
  | .set val => place 1#2 20 ||| place val 0
  | .clear val => place 2#2 20 ||| place val 0
  | .mode3 val => place 3#2 20 ||| place val 0

/-- A word with this opcode (R130). -/
def opcode (op : BitVec 6) : Word := place op 26

/-- The word of an instruction (R149). -/
def encode : Instr → Word
  | .brk info1 info2 => opcode 0x00#6 ||| place info1 22 ||| place info2 0
  | .lsid r b => opcode 0x01#6 ||| place r 22 ||| place b 0
  | .ldil r val => opcode 0x02#6 ||| place r 22 ||| place val 0
  | .addil r val => opcode 0x03#6 ||| place r 22 ||| place val 0
  | .extr r s a len pos b => opcode 0x04#6 ||| place r 22 ||| placeFlag s 21 ||| placeFlag a 20 ||| place len 9 ||| place pos 4 ||| place b 0
  | .dep r z a i len pos b => opcode 0x05#6 ||| place r 22 ||| placeFlag z 21 ||| placeFlag a 20 ||| placeFlag i 19 ||| place len 9 ||| place pos 4 ||| place b 0
  | .dsr r a shamt ra rb => opcode 0x06#6 ||| place r 22 ||| placeFlag a 20 ||| place shamt 9 ||| place ra 4 ||| place rb 0
  | .shla r z l o sa a b => opcode 0x07#6 ||| place r 22 ||| placeFlag z 21 ||| placeFlag l 20 ||| placeFlag o 19 ||| place sa 9 ||| place a 4 ||| place b 0
  | .cmr r cond a b => opcode 0x08#6 ||| place r 22 ||| place (testCondBits cond) 19 ||| place a 4 ||| place b 0
  | .mr r z d m s => opcode 0x09#6 ||| place r 22 ||| placeFlag z 21 ||| placeFlag d 20 ||| placeFlag m 19 ||| place s 0
  | .mst r mode => opcode 0x0A#6 ||| place r 22 ||| encodeMst mode
  | .add r c l o opd => opcode 0x10#6 ||| place r 22 ||| placeFlag c 21 ||| placeFlag l 20 ||| placeFlag o 19 ||| encodeOperand opd
  | .sub r c l o opd => opcode 0x11#6 ||| place r 22 ||| placeFlag c 21 ||| placeFlag l 20 ||| placeFlag o 19 ||| encodeOperand opd
  | .and r n c opd => opcode 0x12#6 ||| place r 22 ||| placeFlag n 21 ||| placeFlag c 20 ||| encodeOperand opd
  | .or r n c opd => opcode 0x13#6 ||| place r 22 ||| placeFlag n 21 ||| placeFlag c 20 ||| encodeOperand opd
  | .xor r n c opd => opcode 0x14#6 ||| place r 22 ||| placeFlag n 21 ||| placeFlag c 20 ||| encodeOperand opd
  | .cmp r cond opd => opcode 0x15#6 ||| place r 22 ||| place (cmpCondBits cond) 19 ||| encodeOperand opd
  | .ldwReg r seg a b => opcode 0x18#6 ||| place r 22 ||| encodeOperand (.regIdx .word seg a b)
  | .ldhReg r seg a b => opcode 0x18#6 ||| place r 22 ||| encodeOperand (.regIdx .half seg a b)
  | .ldbReg r seg a b => opcode 0x18#6 ||| place r 22 ||| encodeOperand (.regIdx .byte seg a b)
  | .ldwOfs r base seg ofs => opcode 0x18#6 ||| place r 22 ||| encodeOperand (.indexed .word base seg ofs)
  | .ldhOfs r base seg ofs => opcode 0x18#6 ||| place r 22 ||| encodeOperand (.indexed .half base seg ofs)
  | .ldbOfs r base seg ofs => opcode 0x18#6 ||| place r 22 ||| encodeOperand (.indexed .byte base seg ofs)
  | .stw r base seg ofs => opcode 0x19#6 ||| place r 22 ||| encodeOperand (.indexed .word base seg ofs)
  | .sth r base seg ofs => opcode 0x19#6 ||| place r 22 ||| encodeOperand (.indexed .half base seg ofs)
  | .stb r base seg ofs => opcode 0x19#6 ||| place r 22 ||| encodeOperand (.indexed .byte base seg ofs)
  | .ldwr r base seg ofs => opcode 0x1A#6 ||| place r 22 ||| encodeOperand (.indexed .word base seg ofs)
  | .stwc r base seg ofs => opcode 0x1B#6 ||| place r 22 ||| encodeOperand (.indexed .word base seg ofs)
  | .ldo r opd => opcode 0x1C#6 ||| place r 22 ||| encodeOperand opd
  | .b ofs => opcode 0x20#6 ||| place ofs 0
  | .bl r ofs => opcode 0x21#6 ||| place r 22 ||| place ofs 0
  | .br b => opcode 0x22#6 ||| place b 0
  | .blr r b => opcode 0x23#6 ||| place r 22 ||| place b 0
  | .bv b => opcode 0x24#6 ||| place b 0
  | .bvr a b => opcode 0x25#6 ||| place a 4 ||| place b 0
  | .be ofs a b => opcode 0x26#6 ||| place ofs 8 ||| place a 4 ||| place b 0
  | .ble ofs a b => opcode 0x27#6 ||| place ofs 8 ||| place a 4 ||| place b 0
  | .gate r ofs => opcode 0x28#6 ||| place r 22 ||| place ofs 0
  | .cbr cond ofs a b => opcode 0x29#6 ||| place (cmpCondBits cond) 23 ||| place ofs 8 ||| place a 4 ||| place b 0
  | .tbr cond ofs b => opcode 0x2A#6 ||| place (testCondBits cond) 23 ||| place ofs 8 ||| place b 0
  | .ldpa r seg a b => opcode 0x30#6 ||| place r 22 ||| place seg 20 ||| place a 4 ||| place b 0
  | .prb r seg m a b => opcode 0x31#6 ||| place r 22 ||| place seg 20 ||| placeFlag m 19 ||| place a 4 ||| place b 0
  | .itlb r t m a b => opcode 0x32#6 ||| place r 22 ||| placeFlag t 21 ||| placeFlag m 20 ||| place a 4 ||| place b 0
  | .ptlb t a b => opcode 0x33#6 ||| placeFlag t 21 ||| place a 4 ||| place b 0
  | .pca t f a b => opcode 0x34#6 ||| placeFlag t 21 ||| placeFlag f 20 ||| place a 4 ||| place b 0
  | .diag r a b => opcode 0x35#6 ||| place r 22 ||| place a 4 ||| place b 0
  | .ldwa r ofs b => opcode 0x3C#6 ||| place r 22 ||| place ofs 4 ||| place b 0
  | .ldwax r a b => opcode 0x3D#6 ||| place r 22 ||| place a 4 ||| place b 0
  | .stwa r ofs b => opcode 0x3E#6 ||| place r 22 ||| place ofs 4 ||| place b 0
  | .rfi => opcode 0x3F#6

end Sys2Proof
end

