-- ==== Sys2Proof/Machine/Fetch.lean ====
section
/-! DEFINITION. What happens before an instruction executes: the asynchronous traps, instruction fetch and the answer
to a word that is no instruction (20_memory.md R100 to R103, R120, 60_exceptions.md R348, R352, R356). -/

namespace Sys2Proof.Machine

/-- The trap taken between instructions, if there is one, and the state it is taken from: a machine check unless ST.M disables checks (R352), a power
failure (R353), an unmasked external interrupt when ST.E is set (R356); the request of an interrupt stays until the
environment drops it. DESIGN CHOICE, left open by the spec: a machine check that comes while ST.M is 1 is held, not
dropped, and taken when ST.M becomes 0; a machine check or power failure is taken once and consumed
(notes/assumptions/13.md); of several events the one with the lowest trap number comes first (notes/assumptions/33.md). -/
def pendingTrap (s : State) : Option (Trap × State) :=
  if s.machineCheck && !s.st.m then some (bareTrap .machineCheck, { s with machineCheck := false })
  else if s.powerFailure then some (bareTrap .powerFailure, { s with powerFailure := false })
  else if s.st.e && decide (s.extIrq &&& s.getCR 23#5 ≠ 0#32) then some (bareTrap .externalInterrupt, s)
  else none

/-- The page admits execution at this level and protection state, demotion apart (20_memory.md R102). -/
def executeAllowed (e : TlbEntry) (s : State) : Bool :=
  decide (2 ≤ e.prot.type.toNat) && levelAtMost s.st.x e.prot.pl1 && (!s.st.p || pidOk e false s)

/-- The state whose execution level is demoted to that of the page (20_memory.md R103). -/
def demote (e : TlbEntry) (s : State) : State := { s with st := { s.st with x := s.st.x || e.prot.pl2 } }

/-- The physical address of the fetch and the state after a demotion (20_memory.md R101, R102). -/
def fetchAddress (s : State) : Attempt (Word × State) :=
  if !s.st.c then .done (s.iaOfs, s)
  else if bypassed s.iaSeg then .done (s.iaOfs, s)
  else
    match tlbLookup s.instrTlb s.iaSeg s.iaOfs with
    | none => .trap (bareTrap .instrTlbMiss)
    | some e =>
      if !executeAllowed e s then .trap (bareTrap .instrProtection)
      else if foreign e then .refuse .foreignBank
      else .done (entryAddress e s.iaOfs, demote e s)

/-- The word has a flag of 20_memory.md R120 set. -/
def isStale (pa : Word) (s : State) : Bool :=
  s.needsFlush.contains (wordOf pa).toNat || s.needsPurge.contains (wordOf pa).toNat

/-- Instruction fetch (20_memory.md R100): the word, and the state in which it executes. -/
def fetch (s : State) : Attempt (Word × State) :=
  (fetchAddress s).bind fun (pa, t) =>
    if isStale pa t then .refuse .staleFetch
    else (physRead pa .word t).bind fun (w, u) => .done (w, { u with ir := w })

/-- The answer to a fetched word that is no instruction (30_encoding.md R151, R152, R132): trap 5 with the word, or the
refusal of a non-zero reserved field. -/
def rejectWord (e : DecodeError) (s : State) : Attempt State :=
  match e with
  | .unassignedOpcode => .trap (instrTrap .illegalInstruction s)
  | .illegalOpMode => .trap (instrTrap .illegalInstruction s)
  | .reservedFieldTrap => .trap (instrTrap .illegalInstruction s)
  | .reservedField => .refuse .reservedField
  | .tooShort => .refuse .reservedField

/-- The physical address at which the next instruction is fetched. -/
def fetchPlace (s : State) : Word :=
  match fetchAddress s with
  | .done (pa, _) => pa
  | _ => s.iaOfs

/-- The state with an instruction word placed, as a loader does, at a physical address: its flags are false
(20_memory.md R123). -/
def placeWord (pa w : Word) (s : State) : State :=
  { s with
    mem := s.mem.write pa.toNat .word w
    needsFlush := s.needsFlush.filter (fun a => decide (a ≠ (wordOf pa).toNat))
    needsPurge := s.needsPurge.filter (fun a => decide (a ≠ (wordOf pa).toNat)) }

end Sys2Proof.Machine
end

