-- ==== Sys2Proof/Machine/Step.lean ====
section
/-! DEFINITION. One step of the machine (20_memory.md R100, 30_encoding.md R154): a pending trap, or the fetch, the
decoding and the execution of one instruction. -/

namespace Sys2Proof.Machine

/-- The outcome for a fetched word in the state `s` left by its fetch. -/
def runWord (w : Word) (s : State) : Host.Outcome State Fault Refusal :=
  match decode w with
  | .ok i => exec i s
  | .error e => conclude s (rejectWord e s)

/-- One step. A trap of the fetch saves the IA of the instruction whose fetch failed (60_exceptions.md R345). -/
def step (s : State) : Host.Outcome State Fault Refusal :=
  match pendingTrap s with
  | some (p, u) => takeTrap p u
  | none =>
    match fetch s with
    | .done (w, t) => runWord w t
    | .trap p => takeTrap p s
    | .refuse r => .refused r

/-- The state with an instruction of spec/opcode_table.json's numbering stored where `step` fetches next. -/
def State.withFetchWord (s : State) (nbits w : Nat) : State :=
  placeWord (fetchPlace s) (BitVec.ofNat 32 (w % 2 ^ nbits)) s

end Sys2Proof.Machine
end

