-- ==== Sys2Proof/Safety.lean ====
section
/-! DEFINITION. What holds of every state the machine can be in (`State.Inv`), and the terms in which the statements
say what an instruction leaves unchanged. -/

namespace Sys2Proof.Machine

/-- An instruction or word address has its two low bits 0 (10_state.md R29, R60). -/
def wordAligned (a : Word) : Bool := decide (dropLow2 a = a)

/-- A TLB is a map with at most as many entries as it can hold: keys strictly rising (10_state.md R55). -/
def tlbWf (t : Tlb) (capacity : Nat) : Bool := risingKeys 0 t && decide (t.length ≤ capacity)

/-- The addresses of flagged words: strictly rising, each a multiple of 4 below 2^32 (20_memory.md R120). -/
def flagsWf (l : List Nat) : Bool := risingAddrs 0 l && l.all (fun a => decide (a % 4 = 0 ∧ a < 4294967296))

/-- The invariant of the machine: memory in canonical form; both TLBs maps within their capacity; the low two bits of
IA-OFS and of a reserved address 0; SHAMT within its five bits; the slot of CR0, which is not stored, 0; the flag lists
in canonical form. -/
structure State.Inv (s : State) : Prop where
  mem : Memory.wf s.mem = true
  itlb : tlbWf s.itlb (tlbCapacity false) = true
  dtlb : tlbWf s.dtlb (tlbCapacity true) = true
  iaOfs : wordAligned s.iaOfs = true
  resv : s.resv.all wordAligned = true
  shamt : (s.getCR 2#5).toNat < 32
  swr : s.getCR 0#5 = 0#32
  needsFlush : flagsWf s.needsFlush = true
  needsPurge : flagsWf s.needsPurge = true

/-! ### What an instruction leaves unchanged -/

/-- Every byte of memory reads as before. -/
def SameMemory (s t : State) : Prop := ∀ a : Nat, t.mem.byte a = s.mem.byte a

/-- Every byte of memory outside the `n` bytes from `lo` on reads as before. -/
def SameMemoryOutside (lo n : Nat) (s t : State) : Prop :=
  ∀ a : Nat, a < lo ∨ lo + n ≤ a → t.mem.byte a = s.mem.byte a

/-- Every general register but `r` is unchanged. -/
def SameGRBut (r : GReg) (s t : State) : Prop := ∀ q : GReg, q ≠ r → t.getGR q = s.getGR q

/-- The environment's inputs are unchanged. -/
structure SameInputs (s t : State) : Prop where
  extIrq : t.extIrq = s.extIrq
  machineCheck : t.machineCheck = s.machineCheck
  powerFailure : t.powerFailure = s.powerFailure

/-- Segment registers, control registers, the segment of the instruction address, the status register and both TLBs
are unchanged. -/
structure SameControl (s t : State) : Prop where
  sr : t.sr = s.sr
  cr : t.cr = s.cr
  iaSeg : t.iaSeg = s.iaSeg
  st : t.st = s.st
  itlb : t.itlb = s.itlb
  dtlb : t.dtlb = s.dtlb

/-- The reservation and the flags of stored words are unchanged. -/
structure SameMarks (s t : State) : Prop where
  resv : t.resv = s.resv
  needsFlush : t.needsFlush = s.needsFlush
  needsPurge : t.needsPurge = s.needsPurge

/-- The state is the entry of a trap taken from `s` (60_exceptions.md R341). -/
def IsTrapEntryFrom (s t : State) : Prop := ∃ p : Trap, takeTrap p s = .next t

end Sys2Proof.Machine
end

