-- ==== Sys2Proof/Certificates/Slice0/Obligations.lean ====
section
/-! DEFINITION. The statements for the provers, by the rules of spec/ they formalise. `takeTrap p s` is the taking of the
trap `p` from the state `s`: its entry, or the refusal of a vector table base that is not page aligned, which
`Obligations.TrapEntryEffect` states. -/

open Sys2Proof Sys2Proof.Machine

/-! ### Encoding -/

/-- Decoding an encoded well-formed instruction gives it back (30_encoding.md R149, R154). -/
def Obligations.DecodeEncode : Prop := ∀ i : Instr, i.wf = true → decode (encode i) = .ok i

/-- A word that decodes is the encoding of what it decodes to, which is well formed: no two words decode to one
instruction (30_encoding.md R149, R132 with the default policy, notes/assumptions/7.md). -/
def Obligations.EncodeDecode : Prop := ∀ (w : Word) (i : Instr), decode w = .ok i → i.wf = true ∧ encode i = w

/-- A few words of the spec's examples decode to the instructions they stand for. -/
def Obligations.SampleWordsDecode : Prop :=
  decode 0x60424010#32 = .ok (.ldwOfs 1#4 1#3 0#2 0x010#12) ∧
  decode 0x64440004#32 = .ok (.sth 1#4 0#3 0#2 0x004#12) ∧
  decode 0x0A000008#32 = .ok (.ldil 8#4 8#22) ∧
  decode 0x803FFFFF#32 = .ok (.b 0x3FFFFF#22) ∧
  decode 0xA4800A12#32 = .ok (.cbr .lt 0x00A#15 1#4 2#4) ∧
  decode 0x40C88012#32 = .ok (.add 3#4 false false true (.regs 1#4 2#4)) ∧
  decode 0x12E0108A#32 = .ok (.extr 11#4 true false 8#5 8#5 10#4) ∧
  decode 0x24580010#32 = .ok (.mr 1#4 false true true 16#6) ∧
  decode 0x00000000#32 = .ok (.brk 0#4 0#16)

/-- A word with an unassigned opcode raises trap 5 with the word as P0, whatever its other bits are
(30_encoding.md R151). -/
def Obligations.UnassignedOpcodeTraps : Prop :=
  ∀ (w : Word) (s : State), s.ir = w →
    (opcodeOf w).toNat ∈ [0x0B, 0x0C, 0x0D, 0x0E, 0x0F, 0x16, 0x17, 0x1D, 0x1E, 0x1F, 0x2B, 0x2C, 0x2D, 0x2E, 0x2F,
      0x36, 0x37, 0x38, 0x39, 0x3A, 0x3B] →
    runWord w s = takeTrap { cause := .illegalInstruction, p0 := some w, p1 := none, p2 := none } s ∧
      trapNumber .illegalInstruction = 5

/-- The illegal encodings inside assigned opcodes raise trap 5 with P0 the instruction word: modes 3 and 7 of ADD to CMP,
modes 1 to 7 of LDO, mode 3 of MST in privileged mode, and every word of opcodes 0x10 to 0x1C whose operand mode the
opcode does not have and whose option bits marked 0 are 0, whatever its opArg holds (30_encoding.md R143, R152,
41_immediate.md R205, 44_system_control.md R283; that opArg is not tested for reserved bits before the mode,
notes/assumptions/32.md). -/
def Obligations.IllegalModesTrap : Prop :=
  (∀ (r : GReg) (c l o : Bool) (cc : CmpCond) (val : BitVec 6) (opd : Operand) (arg : BitVec 14) (s : State),
    (opd = .mode3 arg ∨ opd = .mode7 arg →
      ∀ i ∈ [Instr.add r c l o opd, .sub r c l o opd, .and r c l opd, .or r c l opd, .xor r c l opd, .cmp r cc opd],
        exec i s = takeTrap (instrTrap .illegalInstruction s) s) ∧
    ((∀ v, opd ≠ .imm v) → (∀ w base seg ofs, opd ≠ .indexed w base seg ofs) →
      exec (.ldo r opd) s = takeTrap (instrTrap .illegalInstruction s) s) ∧
    (s.st.x = false → exec (.mst r (.mode3 val)) s = takeTrap (instrTrap .illegalInstruction s) s)) ∧
  (∀ (w : Word) (s : State),
    ((opcodeOf w = 0x10#6 ∨ opcodeOf w = 0x11#6 ∨ opcodeOf w = 0x15#6) ∧ (opModeOf w = 3#5 ∨ opModeOf w = 7#5) ∨
     (opcodeOf w = 0x12#6 ∨ opcodeOf w = 0x13#6 ∨ opcodeOf w = 0x14#6) ∧ w &&& 0x00080000#32 = 0#32 ∧
       (opModeOf w = 3#5 ∨ opModeOf w = 7#5) ∨
     w &&& 0x00380000#32 = 0#32 ∧
       ((opcodeOf w = 0x18#6 ∧ ((opModeOf w).toNat ≤ 3 ∨ opModeOf w = 7#5)) ∨
        (opcodeOf w = 0x19#6 ∧ (opModeOf w).toNat ≤ 7) ∨
        ((opcodeOf w = 0x1A#6 ∨ opcodeOf w = 0x1B#6) ∧ ((opModeOf w).toNat ≤ 7 ∨ 16 ≤ (opModeOf w).toNat)) ∨
        (opcodeOf w = 0x1C#6 ∧ 1 ≤ (opModeOf w).toNat ∧ (opModeOf w).toNat ≤ 7))) →
    runWord w s = takeTrap (instrTrap .illegalInstruction s) s)

/-! ### Immediates and addresses -/

/-- Low sign extension: the value, its range, the two's-complement reading of `s ++ m`, the 32-bit pattern, the
encoding of an integer, and the examples for N = 14 (00_scope.md R14). -/
def Obligations.LowSignExtension : Prop :=
  (∀ (n : Nat) (x : BitVec (n + 1)),
    lse x = ((x.extractLsb' 1 n).toNat : Int) - ((x.extractLsb' 0 1).toNat : Int) * 2 ^ n ∧
    -(2 ^ n : Int) ≤ lse x ∧ lse x < 2 ^ n ∧
    lse x = (x.extractLsb' 0 1 ++ x.extractLsb' 1 n).toInt ∧
    lseWord x = BitVec.ofInt 32 (lse x)) ∧
  (∀ (n : Nat) (v : Int), -(2 ^ n : Int) ≤ v → v < 2 ^ n →
    lse (BitVec.ofInt (n + 1) (2 * (v % 2 ^ n) + if v < 0 then 1 else 0)) = v) ∧
  lse 0x0002#14 = 1 ∧ lse 0x3FFF#14 = -1 ∧ lse 0x0001#14 = -8192 ∧ lse 0x3FFE#14 = 8191

/-- Segment selection by the seg field: a logical address for 0, with SR4 to SR7 by its two leftmost bits and the
30-bit offset, else SR1 to SR3 with the full offset; SR0 is not used (20_memory.md R86, R89). -/
def Obligations.SegmentSelection : Prop :=
  ∀ (seg : BitVec 2) (x : Word) (s : State),
    (seg = 0#2 → virtualAddress seg x s =
      (s.getSR (BitVec.ofNat 3 (4 + x.toNat / 2 ^ 30)), BitVec.ofNat 32 (x.toNat % 2 ^ 30))) ∧
    (seg ≠ 0#2 → virtualAddress seg x s = (s.getSR (BitVec.ofNat 3 seg.toNat), x)) ∧
    (selectSegment seg x).1 ≠ 0#3 ∧
    ofsSelect x = BitVec.ofNat 32 (x.toNat % 2 ^ 30)

/-! ### Memory -/

/-- Big-endian memory: where each byte of a stored word, half-word and byte goes, that every other byte is unchanged,
and that a load of the same width reads the low bytes back, zero-extended (20_memory.md R70, R72). -/
def Obligations.BigEndianMemory : Prop :=
  ∀ (m : Memory) (a : Nat) (v : Word),
    ((m.write a .word v).byte a = v.extractLsb' 24 8 ∧ (m.write a .word v).byte (a + 1) = v.extractLsb' 16 8 ∧
      (m.write a .word v).byte (a + 2) = v.extractLsb' 8 8 ∧ (m.write a .word v).byte (a + 3) = v.extractLsb' 0 8) ∧
    ((m.write a .half v).byte a = v.extractLsb' 8 8 ∧ (m.write a .half v).byte (a + 1) = v.extractLsb' 0 8) ∧
    (m.write a .byte v).byte a = v.extractLsb' 0 8 ∧
    (∀ (w : Width) (b : Nat), b < a ∨ a + widthBytes w ≤ b → (m.write a w v).byte b = m.byte b) ∧
    (m.read a .word).toNat = (m.byte a).toNat * 2 ^ 24 + (m.byte (a + 1)).toNat * 2 ^ 16 +
      (m.byte (a + 2)).toNat * 2 ^ 8 + (m.byte (a + 3)).toNat ∧
    (m.read a .half).toNat = (m.byte a).toNat * 2 ^ 8 + (m.byte (a + 1)).toNat ∧
    (m.read a .byte).toNat = (m.byte a).toNat ∧
    (m.write a .word v).read a .word = v ∧
    ((m.write a .half v).read a .half).toNat = v.toNat % 2 ^ 16 ∧
    ((m.write a .byte v).read a .byte).toNat = v.toNat % 2 ^ 8

/-- When the physical address of a data access is found: with translation off the aligned offset itself, in the bypassed
segment 0 the aligned virtual offset, else the page of a valid entry that admits the access
(20_memory.md R91, R92, R94, R104, R105; SEG0_BYPASS, notes/assumptions/7.md). -/
def Obligations.DataAddressFound : Prop :=
  ∀ (write : Bool) (w : Width) (seg : BitVec 2) (x : Word) (s : State),
    (s.st.d = false → x.toNat % widthBytes w = 0 → dataAddress write w seg x s = .done x) ∧
    (∀ segid vofs, s.st.d = true → virtualAddress seg x s = (segid, vofs) → vofs.toNat % widthBytes w = 0 →
      (segid = 0#32 → dataAddress write w seg x s = .done vofs) ∧
      (∀ e, segid ≠ 0#32 → tlbLookup s.dtlb segid vofs = some e →
        (if write then writeAllowed e s.st.x else readAllowed e s.st.x) = true →
        (s.st.p = true → pidOk e write s = true) → e.prot.t = false → e.prot.b = false →
        (write = true → e.prot.d = false) → e.addr.bank = 0#4 → e.addr.cpuId = 0#4 →
        dataAddress write w seg x s = .done (e.addr.ppn ++ vofs.extractLsb' 0 12)))

/-- The traps of a data access and their order: alignment with segment 0 where no translation is made; else miss,
access rights, protection id, page reference, data reference, dirty, alignment; last of all the refusal of an entry of
another bank or CPU (20_memory.md R99, R104, R105, 60_exceptions.md R348). The model's choices: the order of the last ones
(notes/assumptions/22.md), that the data reference and dirty traps, which R108 and R109 refuse by default, are taken
(notes/assumptions/9.md), the bypass of segment 0 by SEG0_BYPASS (notes/assumptions/7.md), and where in the order the
refusal stands (notes/assumptions/23.md). -/
def Obligations.DataAddressTraps : Prop :=
  ∀ (write : Bool) (w : Width) (seg : BitVec 2) (x segid vofs : Word) (s : State),
    virtualAddress seg x s = (segid, vofs) →
    (s.st.d = false → x.toNat % widthBytes w ≠ 0 →
      dataAddress write w seg x s = .trap (dataTrap .alignment 0#32 x s)) ∧
    (s.st.d = true → segid = 0#32 → vofs.toNat % widthBytes w ≠ 0 →
      dataAddress write w seg x s = .trap (dataTrap .alignment 0#32 vofs s)) ∧
    (s.st.d = true → segid ≠ 0#32 →
      (tlbLookup s.dtlb segid vofs = none → dataAddress write w seg x s = .trap (dataTrap .dataTlbMiss segid vofs s)) ∧
      (∀ e, tlbLookup s.dtlb segid vofs = some e →
        ((if write then writeAllowed e s.st.x else readAllowed e s.st.x) = false →
          dataAddress write w seg x s = .trap (dataTrap .dataAccessRights segid vofs s)) ∧
        ((if write then writeAllowed e s.st.x else readAllowed e s.st.x) = true →
          (s.st.p = true ∧ pidOk e write s = false →
            dataAddress write w seg x s = .trap (dataTrap .dataProtection segid vofs s)) ∧
          (s.st.p = false ∨ pidOk e write s = true →
            (e.prot.t = true → dataAddress write w seg x s = .trap (dataTrap .pageReference segid vofs s)) ∧
            (e.prot.t = false → e.prot.b = true →
              dataAddress write w seg x s = .trap (dataTrap .dataReference segid vofs s)) ∧
            (e.prot.t = false → e.prot.b = false → write = true → e.prot.d = true →
              dataAddress write w seg x s = .trap (dataTrap .dirty segid vofs s)) ∧
            (e.prot.t = false → e.prot.b = false → (write = true → e.prot.d = false) →
              vofs.toNat % widthBytes w ≠ 0 →
              dataAddress write w seg x s = .trap (dataTrap .alignment segid vofs s)) ∧
            (e.prot.t = false → e.prot.b = false → (write = true → e.prot.d = false) →
              vofs.toNat % widthBytes w = 0 → e.addr.bank ≠ 0#4 ∨ e.addr.cpuId ≠ 0#4 →
              dataAddress write w seg x s = .refuse .foreignBank)))))

/-- Access rights by page type and level, and the protection id check: id 0 passes; else a PID register must hold the id,
for a write one whose write disable bit is 0 (20_memory.md R97, R98, R113). -/
def Obligations.ProtectionChecks : Prop :=
  (∀ (e : TlbEntry) (pl : Bool),
    (readAllowed e pl = true ↔ e.prot.type ≠ 3#2 ∧ (pl = true → e.prot.pl1 = true)) ∧
    (writeAllowed e pl = true ↔ e.prot.type = 1#2 ∧ (pl = true → e.prot.pl2 = true))) ∧
  (∀ (e : TlbEntry) (write : Bool) (s : State),
    pidOk e write s = true ↔
      e.prot.pid16.toNat / 2 = 0 ∨
      ∃ n : CReg, 8 ≤ n.toNat ∧ n.toNat ≤ 11 ∧ (s.getCR n).toNat / 2 % 2 ^ 15 = e.prot.pid16.toNat / 2 ∧
        (write = true → (s.getCR n).toNat % 2 = 0))

/-- TLB lookup: the entry of the key if its V is 1; a miss otherwise, also for an entry whose V is 0, which the search by
key of ITLB and PTLB finds nevertheless (10_state.md R56). -/
def Obligations.TlbLookup : Prop :=
  ∀ (t : Tlb) (seg ofs : Word), risingKeys 0 t = true →
    (∀ e, tlbLookup t seg ofs = some e ↔ e ∈ t ∧ e.seg = seg ∧ e.vpn = ofs.extractLsb' 12 20 ∧ e.v = true) ∧
    (tlbLookup t seg ofs = none ↔ ∀ e ∈ t, e.seg = seg → e.vpn = ofs.extractLsb' 12 20 → e.v = false) ∧
    (∀ e, tlbFind t (tlbKey seg (ofs.extractLsb' 12 20)) = some e ↔
      e ∈ t ∧ e.seg = seg ∧ e.vpn = ofs.extractLsb' 12 20)

/-! ### Memory reference instructions -/

/-- The loads put the zero-extended value at the physical address into GR[r] and change nothing else
(40_memory_reference.md R172, R174, R176, R177; that every address below the I/O range is served is the model's choice of
PHYS_MEM_SIZE, notes/assumptions/3.md). -/
def Obligations.LoadResult : Prop :=
  ∀ (r : GReg) (seg : BitVec 2) (a b : GReg) (base : BitVec 3) (ofs : BitVec 12) (s : State) (i : Instr) (w : Width)
    (x pa : Word),
    (i, w, x) ∈ [(Instr.ldwReg r seg a b, Width.word, s.getGR a + s.getGR b),
      (.ldhReg r seg a b, .half, s.getGR a + s.getGR b),
      (.ldbReg r seg a b, .byte, s.getGR a + s.getGR b),
      (.ldwOfs r base seg ofs, .word, s.getGR (1#1 ++ base) + BitVec.ofInt 32 (lse ofs)),
      (.ldhOfs r base seg ofs, .half, s.getGR (1#1 ++ base) + BitVec.ofInt 32 (lse ofs)),
      (.ldbOfs r base seg ofs, .byte, s.getGR (1#1 ++ base) + BitVec.ofInt 32 (lse ofs))] →
    dataAddress false w seg x s = .done pa → pa.toNat + widthBytes w ≤ 0xF0000000 →
    exec i s = .next (s.setGR r (s.mem.read pa.toNat w)).retire

/-- Loads from the I/O range take the environment's answer, a free value, and are recorded; stores there are handed to the
environment, leave every byte of memory unchanged, and clear a reservation and set both flags of the word as any store
does; the model's choice (notes/assumptions/10.md, 24.md) for what 20_memory.md R78 leaves to the environment. -/
def Obligations.IoAccessResult : Prop :=
  (∀ (r : GReg) (seg : BitVec 2) (a b : GReg) (base : BitVec 3) (ofs : BitVec 12) (s : State) (i : Instr) (w : Width)
    (x pa : Word),
    (i, w, x) ∈ [(Instr.ldwReg r seg a b, Width.word, regIdxOffset a b s),
      (.ldhReg r seg a b, .half, regIdxOffset a b s),
      (.ldbReg r seg a b, .byte, regIdxOffset a b s),
      (.ldwOfs r base seg ofs, .word, indexedOffset base ofs s),
      (.ldhOfs r base seg ofs, .half, indexedOffset base ofs s),
      (.ldbOfs r base seg ofs, .byte, indexedOffset base ofs s)] →
    dataAddress false w seg x s = .done pa → 0xF0000000 ≤ pa.toNat →
    ∃ v : Word, v.toNat = (Config.ioAnswer s.draws).toNat % 2 ^ (8 * widthBytes w) ∧
      exec i s = .next { (s.setGR r v).retire with
        draws := s.draws + 1, envTrace := .ioRead pa w v :: s.envTrace }) ∧
  (∀ (r : GReg) (seg : BitVec 2) (base : BitVec 3) (ofs : BitVec 12) (s : State) (i : Instr) (w : Width) (pa : Word),
    (i, w) ∈ [(Instr.stw r base seg ofs, Width.word), (.sth r base seg ofs, .half), (.stb r base seg ofs, .byte)] →
    dataAddress true w seg (indexedOffset base ofs s) s = .done pa → 0xF0000000 ≤ pa.toNat →
    ∃ t, exec i s = .next t ∧ t.mem = s.mem ∧ SameMemory s t ∧ t.gr = s.gr ∧ SameControl s t ∧ SameInputs s t ∧
      t.draws = s.draws ∧ t.iaOfs = s.iaOfs + 4#32 ∧
      t.envTrace = .ioWrite pa w (lowBytes w (s.getGR r)) :: s.envTrace ∧
      t.resv = (if s.resv = some (pa >>> 2 <<< 2) then none else s.resv) ∧
      (∀ k : Nat, t.needsFlush.contains k = (decide (k = pa.toNat / 4 * 4) || s.needsFlush.contains k)) ∧
      (∀ k : Nat, t.needsPurge.contains k = (decide (k = pa.toNat / 4 * 4) || s.needsPurge.contains k)))

/-- The stores write the low bytes of GR[r], and nothing else, at the physical address; a reservation of the word is
lost and both flags of the word are set (40_memory_reference.md R172, R175, R178, R179, R193, 20_memory.md R105, R120;
that every address below the I/O range is served is the model's choice of PHYS_MEM_SIZE, notes/assumptions/3.md). -/
def Obligations.StoreResult : Prop :=
  ∀ (r : GReg) (seg : BitVec 2) (base : BitVec 3) (ofs : BitVec 12) (s : State) (i : Instr) (w : Width) (pa : Word),
    (i, w) ∈ [(Instr.stw r base seg ofs, Width.word), (.sth r base seg ofs, .half), (.stb r base seg ofs, .byte)] →
    dataAddress true w seg (s.getGR (1#1 ++ base) + BitVec.ofInt 32 (lse ofs)) s = .done pa →
    pa.toNat + widthBytes w ≤ 0xF0000000 →
    ∃ t, exec i s = .next t ∧
      t.mem.read pa.toNat w = lowBytes w (s.getGR r) ∧ SameMemoryOutside pa.toNat (widthBytes w) s t ∧
      t.gr = s.gr ∧ SameControl s t ∧ SameInputs s t ∧ t.draws = s.draws ∧ t.envTrace = s.envTrace ∧
      t.iaOfs = s.iaOfs + 4#32 ∧
      t.resv = (if s.resv = some (pa >>> 2 <<< 2) then none else s.resv) ∧
      (∀ k : Nat, t.needsFlush.contains k = (decide (k = pa.toNat / 4 * 4) || s.needsFlush.contains k)) ∧
      (∀ k : Nat, t.needsPurge.contains k = (decide (k = pa.toNat / 4 * 4) || s.needsPurge.contains k))

/-- A trap found while the address of a load, a store, LDWR, STWC or a memory operand is made abandons the instruction
before it writes any register or memory; the saved IA is that of the instruction, and RFI from the handler's entry goes
back to it (20_memory.md R106). -/
def Obligations.AccessTrapAbandons : Prop :=
  ∀ (r : GReg) (seg : BitVec 2) (a b : GReg) (base : BitVec 3) (ofs : BitVec 12) (c l o : Bool) (cc : CmpCond)
    (s : State) (i : Instr) (write : Bool) (w w' : Width) (x : Word) (p : Trap),
    (i, write, w, x) ∈ [(Instr.ldwReg r seg a b, false, Width.word, regIdxOffset a b s),
      (.ldhReg r seg a b, false, .half, regIdxOffset a b s),
      (.ldbReg r seg a b, false, .byte, regIdxOffset a b s),
      (.ldwOfs r base seg ofs, false, .word, indexedOffset base ofs s),
      (.ldhOfs r base seg ofs, false, .half, indexedOffset base ofs s),
      (.ldbOfs r base seg ofs, false, .byte, indexedOffset base ofs s),
      (.stw r base seg ofs, true, .word, indexedOffset base ofs s),
      (.sth r base seg ofs, true, .half, indexedOffset base ofs s),
      (.stb r base seg ofs, true, .byte, indexedOffset base ofs s),
      (.ldwr r base seg ofs, false, .word, indexedOffset base ofs s),
      (.stwc r base seg ofs, true, .word, indexedOffset base ofs s),
      (.add r c l o (.regIdx w' seg a b), false, w', regIdxOffset a b s),
      (.sub r c l o (.regIdx w' seg a b), false, w', regIdxOffset a b s),
      (.and r c l (.regIdx w' seg a b), false, w', regIdxOffset a b s),
      (.or r c l (.regIdx w' seg a b), false, w', regIdxOffset a b s),
      (.xor r c l (.regIdx w' seg a b), false, w', regIdxOffset a b s),
      (.cmp r cc (.regIdx w' seg a b), false, w', regIdxOffset a b s),
      (.add r c l o (.indexed w' base seg ofs), false, w', indexedOffset base ofs s),
      (.sub r c l o (.indexed w' base seg ofs), false, w', indexedOffset base ofs s),
      (.and r c l (.indexed w' base seg ofs), false, w', indexedOffset base ofs s),
      (.or r c l (.indexed w' base seg ofs), false, w', indexedOffset base ofs s),
      (.xor r c l (.indexed w' base seg ofs), false, w', indexedOffset base ofs s),
      (.cmp r cc (.indexed w' base seg ofs), false, w', indexedOffset base ofs s)] →
    dataAddress write w seg x s = .trap p →
    exec i s = takeTrap p s ∧
      ∀ u, takeTrap p s = .next u →
        u.gr = s.gr ∧ u.sr = s.sr ∧ SameMemory s u ∧ u.getCR 18#5 = s.iaSeg ∧ u.getCR 19#5 = s.iaOfs ∧
        (wordAligned s.iaOfs = true → ∃ t, exec .rfi u = .next t ∧
          t.iaSeg = s.iaSeg ∧ t.iaOfs = s.iaOfs ∧ t.st = s.st)

/-- LDWR loads the word like LDW and holds its physical address as the reservation, in place of an earlier one. STWC
stores GR[r] iff the reservation is on the word and no failure is drawn; GR[r] receives 0 or 1, and the reservation is
cleared in both cases; a store sets both flags of the word (40_memory_reference.md R191, R192, R193). The model's choices:
the draw of a failure (notes/assumptions/19.md), PHYS_MEM_SIZE (notes/assumptions/3.md), and both instructions in the I/O
range as a load and a store there (notes/assumptions/10.md, 24.md). -/
def Obligations.ReservationResult : Prop :=
  ∀ (r : GReg) (seg : BitVec 2) (base : BitVec 3) (ofs : BitVec 12) (s : State) (pa x : Word),
    x = s.getGR (1#1 ++ base) + BitVec.ofInt 32 (lse ofs) →
    (dataAddress false .word seg x s = .done pa →
      (pa.toNat + 4 ≤ 0xF0000000 → exec (.ldwr r base seg ofs) s =
        .next { (s.setGR r (s.mem.read pa.toNat .word)).retire with resv := some pa }) ∧
      (0xF0000000 ≤ pa.toNat → exec (.ldwr r base seg ofs) s =
        .next { (s.setGR r (Config.ioAnswer s.draws)).retire with
          resv := some pa, draws := s.draws + 1,
          envTrace := .ioRead pa .word (Config.ioAnswer s.draws) :: s.envTrace })) ∧
    (dataAddress true .word seg x s = .done pa → pa.toNat + 4 ≤ 0xF0000000 ∨ 0xF0000000 ≤ pa.toNat →
      ∃ t, exec (.stwc r base seg ofs) s = .next t ∧ t.resv = none ∧ SameGRBut r s t ∧ SameControl s t ∧
        SameInputs s t ∧ t.draws = s.draws + 1 ∧ t.iaOfs = s.iaOfs + 4#32 ∧
        (s.resv = some pa ∧ Config.stwcFails s.draws = false →
          t.getGR r = 0#32 ∧
          (pa.toNat + 4 ≤ 0xF0000000 → t.mem.read pa.toNat .word = s.getGR r ∧ SameMemoryOutside pa.toNat 4 s t ∧
            t.envTrace = s.envTrace) ∧
          (0xF0000000 ≤ pa.toNat → SameMemory s t ∧ t.envTrace = .ioWrite pa .word (s.getGR r) :: s.envTrace) ∧
          (∀ k : Nat, t.needsFlush.contains k = (decide (k = pa.toNat) || s.needsFlush.contains k)) ∧
          (∀ k : Nat, t.needsPurge.contains k = (decide (k = pa.toNat) || s.needsPurge.contains k))) ∧
        (s.resv ≠ some pa ∨ Config.stwcFails s.draws = true →
          t.getGR r = 1#32 ∧ SameMemory s t ∧ t.envTrace = s.envTrace ∧ t.needsFlush = s.needsFlush ∧
          t.needsPurge = s.needsPurge))

/-- LDWA, LDWAX and STWA in privileged mode access the aligned word at the physical address, whatever ST.D is, in memory or
in the I/O range, a store with the side effects of any store on the reservation and the flags; a misaligned address raises
trap 17 with segment 0 (40_memory_reference.md R180, R181, R182, R193). The model's choices: PHYS_MEM_SIZE
(notes/assumptions/3.md), the I/O answers and their record (notes/assumptions/10.md), the flags of an I/O word
(notes/assumptions/24.md). -/
def Obligations.AbsoluteAccessResult : Prop :=
  (∀ (r a b : GReg) (ofs : BitVec 18) (s : State) (i : Instr) (pa : Word),
    (i, pa) ∈ [(Instr.ldwa r ofs b, s.getGR b + BitVec.ofInt 32 (lse ofs)), (.ldwax r a b, s.getGR b + s.getGR a)] →
    s.st.x = false →
    (pa.toNat % 4 = 0 → pa.toNat < 0xF0000000 → exec i s = .next (s.setGR r (s.mem.read pa.toNat .word)).retire) ∧
    (pa.toNat % 4 = 0 → 0xF0000000 ≤ pa.toNat →
      exec i s = .next { (s.setGR r (Config.ioAnswer s.draws)).retire with
        draws := s.draws + 1, envTrace := .ioRead pa .word (Config.ioAnswer s.draws) :: s.envTrace }) ∧
    (pa.toNat % 4 ≠ 0 → exec i s = takeTrap (dataTrap .alignment 0#32 pa s) s)) ∧
  (∀ (r b : GReg) (ofs : BitVec 18) (s : State) (pa : Word),
    pa = s.getGR b + BitVec.ofInt 32 (lse ofs) → s.st.x = false →
    (pa.toNat % 4 = 0 → pa.toNat < 0xF0000000 →
      ∃ t, exec (.stwa r ofs b) s = .next t ∧ t.mem.read pa.toNat .word = s.getGR r ∧
        SameMemoryOutside pa.toNat 4 s t ∧ t.gr = s.gr ∧ SameControl s t ∧ SameInputs s t ∧ t.draws = s.draws ∧
        t.envTrace = s.envTrace ∧ t.iaOfs = s.iaOfs + 4#32 ∧
        t.resv = (if s.resv = some pa then none else s.resv) ∧
        (∀ k : Nat, t.needsFlush.contains k = (decide (k = pa.toNat) || s.needsFlush.contains k)) ∧
        (∀ k : Nat, t.needsPurge.contains k = (decide (k = pa.toNat) || s.needsPurge.contains k))) ∧
    (pa.toNat % 4 = 0 → 0xF0000000 ≤ pa.toNat →
      ∃ t, exec (.stwa r ofs b) s = .next t ∧ SameMemory s t ∧ t.gr = s.gr ∧ SameControl s t ∧ SameInputs s t ∧
        t.draws = s.draws ∧ t.iaOfs = s.iaOfs + 4#32 ∧
        t.envTrace = .ioWrite pa .word (s.getGR r) :: s.envTrace ∧
        t.resv = (if s.resv = some pa then none else s.resv) ∧
        (∀ k : Nat, t.needsFlush.contains k = (decide (k = pa.toNat) || s.needsFlush.contains k)) ∧
        (∀ k : Nat, t.needsPurge.contains k = (decide (k = pa.toNat) || s.needsPurge.contains k))) ∧
    (pa.toNat % 4 ≠ 0 → exec (.stwa r ofs b) s = takeTrap (dataTrap .alignment 0#32 pa s) s))

/-! ### Immediate instructions -/

/-- LDIL and ADDIL: the 22 bits left aligned over ten zeros; ADDIL wraps and writes no flag. LDO: the low-sign-extended
immediate, or the full sum of index register and offset, whatever width and seg say and whether or not it is aligned
(41_immediate.md R201, R203, R205). -/
def Obligations.ImmediateResult : Prop :=
  ∀ (r : GReg) (val : BitVec 22) (val' : BitVec 14) (w : Width) (base : BitVec 3) (seg : BitVec 2) (ofs : BitVec 12)
    (s : State),
    exec (.ldil r val) s = .next (s.setGR r (val ++ 0#10)).retire ∧
    exec (.addil r val) s = .next (s.setGR r (s.getGR r + (val ++ 0#10))).retire ∧
    exec (.ldo r (.imm val')) s = .next (s.setGR r (BitVec.ofInt 32 (lse val'))).retire ∧
    exec (.ldo r (.indexed w base seg ofs)) s =
      .next (s.setGR r (s.getGR (1#1 ++ base) + BitVec.ofInt 32 (lse ofs))).retire

/-- The LDIL and LDO pair loads any 32-bit value: with `L%val = val >> 10` and `R%val = val & 0x3FF` it yields exactly
`val`; the words of the spec's example are such a pair (41_immediate.md R202). -/
def Obligations.LdilLdoPair : Prop :=
  (∀ (v : Word) (r : GReg) (base : BitVec 3) (seg : BitVec 2) (s : State),
    ∃ t u, exec (.ldil (1#1 ++ base) (v.extractLsb' 10 22)) s = .next t ∧
      exec (.ldo r (.indexed .word base seg (0#1 ++ v.extractLsb' 0 10 ++ 0#1))) t = .next u ∧
      u.getGR r = v ∧ ∀ q, q ≠ r → q ≠ 1#1 ++ base → u.getGR q = s.getGR q) ∧
  decode 0x0A848D15#32 = .ok (.ldil 10#4 ((0x12345678#32).extractLsb' 10 22)) ∧
  decode 0x708284F0#32 = .ok (.ldo 2#4 (.indexed .word 2#3 0#2 (0#1 ++ (0x12345678#32).extractLsb' 0 10 ++ 0#1))) ∧
  (∀ s t : State, exec (.ldil 10#4 ((0x12345678#32).extractLsb' 10 22)) s = .next t → t.getGR 10#4 = 0x12345400#32)

/-! ### Branch instructions -/

/-- The branches within a segment: B, BL, BR and BLR relative to the branch itself, modulo 2^32; BV and BVR to a register
value without its two low bits; BL and BLR save IA + 4, and BLR uses the old GR[b] (42_branch.md R211, R216, R217, R218,
R219, R220, R221). -/
def Obligations.LocalBranchResult : Prop :=
  ∀ (r a b : GReg) (ofs : BitVec 22) (s : State), wordAligned s.iaOfs = true →
    exec (.b ofs) s = .next { s with iaOfs := s.iaOfs + BitVec.ofInt 32 (4 * lse ofs) } ∧
    exec (.bl r ofs) s =
      .next { s.setGR r (s.iaOfs + 4#32) with iaOfs := s.iaOfs + BitVec.ofInt 32 (4 * lse ofs) } ∧
    exec (.br b) s = .next { s with iaOfs := s.iaOfs + 4#32 * s.getGR b } ∧
    exec (.blr r b) s = .next { s.setGR r (s.iaOfs + 4#32) with iaOfs := s.iaOfs + 4#32 * s.getGR b } ∧
    exec (.bv b) s = .next { s with iaOfs := s.getGR b >>> 2 <<< 2 } ∧
    exec (.bvr a b) s = .next { s with iaOfs := (s.getGR b + 4#32 * s.getGR a) >>> 2 <<< 2 }

/-- BE and BLE: the target offset drops its low two bits; the segment register named by the field is taken only with
instruction translation on; BLE links the old segment to SR0 and IA + 4 to GR0, and uses the old SR[a] and GR[b]
(42_branch.md R222, R223). -/
def Obligations.ExternalBranchResult : Prop :=
  ∀ (ofs : BitVec 18) (a : BitVec 4) (b : GReg) (s : State), a.toNat < 8 →
    exec (.be ofs a b) s =
      .next { s with iaSeg := if s.st.c then s.getSR (BitVec.ofNat 3 a.toNat) else s.iaSeg,
                     iaOfs := (s.getGR b + BitVec.ofInt 32 (4 * lse ofs)) >>> 2 <<< 2 } ∧
    exec (.ble ofs a b) s =
      .next { (s.setSR 0#3 s.iaSeg).setGR 0#4 (s.iaOfs + 4#32) with
                iaSeg := if s.st.c then s.getSR (BitVec.ofNat 3 a.toNat) else s.iaSeg,
                iaOfs := (s.getGR b + BitVec.ofInt 32 (4 * lse ofs)) >>> 2 <<< 2 }

/-- GATE: GR[r] receives the old level; the new level is 0 with translation off, the smaller of the old level and the
page's PL1 on a gateway page, else the old one; nothing else changes but the IA (42_branch.md R224; PL1 by
GATE_LEVEL_FIELD and the bypass by SEG0_BYPASS, notes/assumptions/7.md). -/
def Obligations.GateResult : Prop :=
  ∀ (r : GReg) (ofs : BitVec 22) (s : State), wordAligned s.iaOfs = true →
    ∃ x, exec (.gate r ofs) s =
        .next { s.setGR r (if s.st.x then 1#32 else 0#32) with
                  st := { s.st with x := x }, iaOfs := s.iaOfs + BitVec.ofInt 32 (4 * lse ofs) } ∧
      (s.st.c = false → x = false) ∧
      (s.st.c = true → s.iaSeg = 0#32 → x = s.st.x) ∧
      (∀ e, s.st.c = true → s.iaSeg ≠ 0#32 → tlbLookup s.itlb s.iaSeg s.iaOfs = some e →
        (e.prot.type = 3#2 → x = (s.st.x && e.prot.pl1)) ∧ (e.prot.type ≠ 3#2 → x = s.st.x))

/-- CBR: the branch is taken iff the condition of the table holds between GR[a] and GR[b]; nothing but the IA changes
(42_branch.md R226, R228). -/
def Obligations.CbrResult : Prop :=
  ∀ (cond : CmpCond) (ofs : BitVec 15) (a b : GReg) (s : State), wordAligned s.iaOfs = true →
    exec (.cbr cond ofs a b) s = .next { s with iaOfs := s.iaOfs +
      (if (match cond with
          | .eq => s.getGR a == s.getGR b
          | .lt => (s.getGR a).slt (s.getGR b)
          | .gt => (s.getGR b).slt (s.getGR a)
          | .ls => (s.getGR a).ule (s.getGR b)
          | .ne => s.getGR a != s.getGR b
          | .le => (s.getGR a).sle (s.getGR b)
          | .ge => (s.getGR b).sle (s.getGR a)
          | .hi => (s.getGR b).ult (s.getGR a)) then BitVec.ofInt 32 (4 * lse ofs) else 4#32) }

/-- TBR and CMR test one register by sign bit, low bit and zero; TBR branches, CMR moves GR[a] to GR[r], when the
condition of the table holds (42_branch.md R227, 43_computational.md R253). -/
def Obligations.TbrCmrResult : Prop :=
  ∀ (cond : TestCond) (ofs : BitVec 15) (r a b : GReg) (s : State) (holds : Bool), wordAligned s.iaOfs = true →
    holds = (match cond with
      | .eq => s.getGR b == 0#32
      | .lt => (s.getGR b).msb
      | .gt => !(s.getGR b).msb && s.getGR b != 0#32
      | .ev => !(s.getGR b).getLsbD 0
      | .ne => s.getGR b != 0#32
      | .le => (s.getGR b).msb || s.getGR b == 0#32
      | .ge => !(s.getGR b).msb
      | .od => (s.getGR b).getLsbD 0) →
    exec (.tbr cond ofs b) s =
      .next { s with iaOfs := s.iaOfs + if holds then BitVec.ofInt 32 (4 * lse ofs) else 4#32 } ∧
    exec (.cmr r cond a b) s = .next (if holds then (s.setGR r (s.getGR a)).retire else s.retire)

/-! ### Computational instructions -/

/-- The operands of the operand-format instructions, mode by mode (43_computational.md R241, 30_encoding.md R139). The
model's choices: that every address below the I/O range is served (PHYS_MEM_SIZE, notes/assumptions/3.md), and an operand in
the I/O range, which is the environment's answer cut to the width (notes/assumptions/10.md). -/
def Obligations.OperandFetch : Prop :=
  ∀ (r : GReg) (val : BitVec 14) (a b : GReg) (w : Width) (seg : BitVec 2) (base : BitVec 3) (ofs : BitVec 12)
    (s : State),
    fetchOperand r (.imm val) s = .done (s.getGR r, BitVec.ofInt 32 (lse val), s) ∧
    fetchOperand r (.reg b) s = .done (0#32, s.getGR b, s) ∧
    fetchOperand r (.regs a b) s = .done (s.getGR a, s.getGR b, s) ∧
    (∀ opd x pa, (opd, x) ∈ [(Operand.regIdx w seg a b, s.getGR a + s.getGR b),
        (.indexed w base seg ofs, s.getGR (1#1 ++ base) + BitVec.ofInt 32 (lse ofs))] →
      dataAddress false w seg x s = .done pa →
      (pa.toNat + widthBytes w ≤ 0xF0000000 →
        fetchOperand r opd s = .done (s.getGR r, s.mem.read pa.toNat w, s)) ∧
      (0xF0000000 ≤ pa.toNat → ∃ v : Word, v.toNat = (Config.ioAnswer s.draws).toNat % 2 ^ (8 * widthBytes w) ∧
        fetchOperand r opd s =
          .done (s.getGR r, v, { s with draws := s.draws + 1, envTrace := .ioRead pa w v :: s.envTrace })))

/-- ADD: the 33-bit sum gives the result and, for L = 0, the carry; with O an overflow of the signed (L = 0) or unsigned
(L = 1) sum raises trap 8 and writes nothing (43_computational.md R243, R244). -/
def Obligations.AddResult : Prop :=
  ∀ (r : GReg) (c l o : Bool) (opd : Operand) (s t : State) (x y : Word) (cin : Nat) (sum : BitVec 33) (ovf : Bool),
    fetchOperand r opd s = .done (x, y, t) → cin = (if c = true ∧ s.st.cb = true then 1 else 0) →
    sum = x.setWidth 33 + y.setWidth 33 + BitVec.ofNat 33 cin →
    ovf = (if l then sum.msb
      else decide (x.toInt + y.toInt + cin < -2 ^ 31 ∨ 2 ^ 31 ≤ x.toInt + y.toInt + cin)) →
    (o = false ∨ ovf = false → exec (.add r c l o opd) s =
      .next { (t.setGR r (sum.setWidth 32)).retire with st := { s.st with cb := if l then s.st.cb else sum.msb } }) ∧
    (o = true → ovf = true → exec (.add r c l o opd) s = takeTrap (instrTrap .overflow s) s)

/-- SUB: the difference plus the carry; for L = 0 CB reports that the exact unsigned result does not fit; with O an
overflow raises trap 8 and writes nothing (43_computational.md R245, R246; CB_FUNC, notes/assumptions/7.md). -/
def Obligations.SubResult : Prop :=
  ∀ (r : GReg) (c l o : Bool) (opd : Operand) (s t : State) (x y : Word) (cin : Nat) (borrow ovf : Bool),
    fetchOperand r opd s = .done (x, y, t) → cin = (if c = true ∧ s.st.cb = true then 1 else 0) →
    borrow = decide (x.toNat + cin < y.toNat ∨ y.toNat + 2 ^ 32 ≤ x.toNat + cin) →
    ovf = (if l then borrow
      else decide (x.toInt - y.toInt + cin < -2 ^ 31 ∨ 2 ^ 31 ≤ x.toInt - y.toInt + cin)) →
    (o = false ∨ ovf = false → exec (.sub r c l o opd) s =
      .next { (t.setGR r (x - y + BitVec.ofNat 32 cin)).retire with
                st := { s.st with cb := if l then s.st.cb else borrow } }) ∧
    (o = true → ovf = true → exec (.sub r c l o opd) s = takeTrap (instrTrap .overflow s) s)

/-- AND, OR and XOR bit by bit: the operand's bit is complemented with C, the result's bit negated with N; nothing else
changes but what the operand fetch did (43_computational.md R248, R249, R250, R251). -/
def Obligations.LogicalResult : Prop :=
  ∀ (r : GReg) (n c : Bool) (opd : Operand) (s t : State) (x y : Word) (i : Instr) (op : Bool → Bool → Bool),
    fetchOperand r opd s = .done (x, y, t) →
    (i, op) ∈ [(Instr.and r n c opd, fun p q => p && q), (.or r n c opd, fun p q => p || q),
      (.xor r n c opd, fun p q => xor p q)] →
    ∃ v : Word, exec i s = .next (t.setGR r v).retire ∧
      ∀ k : Nat, k < 32 → v.getLsbD k = xor n (op (x.getLsbD k) (xor c (y.getLsbD k)))

/-- CMP: GR[r] receives 1 iff the condition of the table holds, signed or unsigned (43_computational.md R252). -/
def Obligations.CmpResult : Prop :=
  ∀ (r : GReg) (cond : CmpCond) (opd : Operand) (s t : State) (x y : Word),
    fetchOperand r opd s = .done (x, y, t) →
    exec (.cmp r cond opd) s = .next (t.setGR r (if (match cond with
      | .eq => x == y
      | .lt => x.slt y
      | .gt => y.slt x
      | .ls => x.ule y
      | .ne => x != y
      | .le => x.sle y
      | .ge => y.sle x
      | .hi => y.ult x) then 1#32 else 0#32)).retire

/-- EXTR and DEP bit by bit, for a field that fits. EXTR: the field right justified, above it zeros or copies of its
leftmost bit. DEP: the field receives the low bits of GR[b] or of the 4-bit immediate, the other bits those of the old
GR[r] or zeros (43_computational.md R256, R258, R260). -/
def Obligations.BitFieldResult : Prop :=
  ∀ (r : GReg) (sx z a i : Bool) (len pos : BitVec 5) (b : GReg) (s : State) (p : Nat),
    p = (if a then (s.getCR 2#5).toNat % 32 else pos.toNat) → len ≠ 0#5 → p + len.toNat ≤ 32 →
    (∃ v : Word, exec (.extr r sx a len pos b) s = .next (s.setGR r v).retire ∧
      ∀ k : Nat, k < 32 → v.getLsbD k =
        if k < len.toNat then (s.getGR b).getLsbD (p + k) else sx && (s.getGR b).getLsbD (p + len.toNat - 1)) ∧
    (∃ v : Word, exec (.dep r z a i len pos b) s = .next (s.setGR r v).retire ∧
      ∀ k : Nat, k < 32 → v.getLsbD k =
        if p ≤ k ∧ k < p + len.toNat then (if i then b.getLsbD (k - p) else (s.getGR b).getLsbD (k - p))
        else !z && (s.getGR r).getLsbD k)

/-- EXTR and DEP with len 0 or with a field that reaches past the left end of the register are refused, whatever their
options are (43_computational.md R256, R258, R260). -/
def Obligations.UnfitFieldRefused : Prop :=
  ∀ (r : GReg) (o1 a o2 : Bool) (len pos : BitVec 5) (b : GReg) (s : State) (p : Nat),
    p = (if a then (s.getCR 2#5).toNat % 32 else pos.toNat) → len = 0#5 ∨ 32 < p + len.toNat →
    ∀ i ∈ [Instr.extr r o1 a len pos b, .dep r o1 a o2 len pos b], exec i s = .refused .bitField

/-- DSR: the low word of the double word, GR[b] on the left and GR[a] on the right, shifted right. LSID: the segment
register SR4 to SR7 chosen by the two leftmost bits of GR[b] (43_computational.md R264, R266, R270). -/
def Obligations.DsrLsidResult : Prop :=
  ∀ (r : GReg) (a : Bool) (sa : BitVec 5) (ra rb : GReg) (s : State) (n : Nat),
    n = (if a then (s.getCR 2#5).toNat % 32 else sa.toNat) →
    exec (.dsr r a sa ra rb) s = .next (s.setGR r
      (BitVec.ofNat 32 (((s.getGR rb).toNat * 2 ^ 32 + (s.getGR ra).toNat) / 2 ^ n))).retire ∧
    exec (.lsid r rb) s = .next (s.setGR r (s.getSR (BitVec.ofNat 3 (4 + (s.getGR rb).toNat / 2 ^ 30)))).retire

/-- SHLA: GR[a] times 2^sa plus GR[b] or zero, modulo 2^32, and no flag; with O the overflow of the shift or of the
addition raises trap 8 and writes nothing (43_computational.md R268, R244). -/
def Obligations.ShlaResult : Prop :=
  ∀ (r : GReg) (z l o : Bool) (sa : BitVec 2) (a b : GReg) (s : State) (tb sh : Word) (ovf : Bool),
    tb = (if z then 0#32 else s.getGR b) → sh = BitVec.ofNat 32 ((s.getGR a).toNat * 2 ^ sa.toNat) →
    ovf = (if l then decide (2 ^ 32 ≤ (s.getGR a).toNat * 2 ^ sa.toNat ∨ 2 ^ 32 ≤ sh.toNat + tb.toNat)
      else decide (¬(-2 ^ 31 ≤ (s.getGR a).toInt * 2 ^ sa.toNat ∧ (s.getGR a).toInt * 2 ^ sa.toNat < 2 ^ 31) ∨
        ¬(-2 ^ 31 ≤ sh.toInt + tb.toInt ∧ sh.toInt + tb.toInt < 2 ^ 31))) →
    (o = false ∨ ovf = false → exec (.shla r z l o sa a b) s = .next (s.setGR r (sh + tb)).retire) ∧
    (o = true → ovf = true → exec (.shla r z l o sa a b) s = takeTrap (instrTrap .overflow s) s)

/-! ### System control instructions -/

/-- MR. To a segment or control register: in privileged mode, or in user mode to SR0 to SR3 and CR2; CR2 keeps five bits,
CR0 is an output; any other target in user mode raises trap 6. From one, at either level: the register's value, with Z
zero without access to it; CR0 gives a free value (44_system_control.md R280, R281, 10_state.md R39, R41; CR3 to CR7 and
CR12 to CR15 as plain storage, notes/assumptions/16.md; the privileged sets, notes/assumptions/7.md). -/
def Obligations.MrResult : Prop :=
  ∀ (r : GReg) (z m : Bool) (x : BitVec 6) (s : State) (v : Word), v = (if z then 0#32 else s.getGR r) →
    (x.toNat < 8 → s.st.x = false ∨ x.toNat < 4 →
      exec (.mr r z true false x) s = .next (s.setSR (BitVec.ofNat 3 x.toNat) v).retire) ∧
    (x.toNat < 8 → s.st.x = true → 4 ≤ x.toNat →
      exec (.mr r z true false x) s = takeTrap (instrTrap .privilegedOperation s) s) ∧
    (x.toNat < 32 → x.toNat ≠ 0 → x.toNat ≠ 2 → s.st.x = false →
      exec (.mr r z true true x) s = .next (s.setCR (BitVec.ofNat 5 x.toNat) v).retire) ∧
    (x.toNat = 2 → exec (.mr r z true true x) s = .next (s.setCR 2#5 (BitVec.ofNat 32 (v.toNat % 32))).retire) ∧
    (x.toNat = 0 → s.st.x = false →
      exec (.mr r z true true x) s = .next { s.retire with envTrace := .swrWrite v :: s.envTrace }) ∧
    (x.toNat < 32 → x.toNat ≠ 2 → s.st.x = true →
      exec (.mr r z true true x) s = takeTrap (instrTrap .privilegedOperation s) s) ∧
    exec (.mr r true false m x) s = .next (s.setGR r 0#32).retire ∧
    (x.toNat < 8 →
      exec (.mr r false false false x) s = .next (s.setGR r (s.getSR (BitVec.ofNat 3 x.toNat))).retire) ∧
    (x.toNat < 32 → x.toNat ≠ 0 →
      exec (.mr r false false true x) s = .next (s.setGR r (s.getCR (BitVec.ofNat 5 x.toNat))).retire) ∧
    (x.toNat = 0 → exec (.mr r false false true x) s = .next { (s.setGR r (Config.switches s.draws)).retire with
      draws := s.draws + 1, envTrace := .swrRead (Config.switches s.draws) :: s.envTrace })

/-- MST in privileged mode: GR[r] receives the old bits 26 to 31; they are replaced, set or cleared bit by bit, from the
old GR[b] or the mask; ST.M, ST.C, ST.X and ST.CB are untouched (44_system_control.md R283). -/
def Obligations.MstResult : Prop :=
  ∀ (r b : GReg) (val : BitVec 6) (mode : MstMode) (s : State) (old new : BitVec 6), s.st.x = false →
    old = BitVec.ofBool s.st.u26 ++ BitVec.ofBool s.st.u27 ++ BitVec.ofBool s.st.u28 ++ BitVec.ofBool s.st.p ++
      BitVec.ofBool s.st.d ++ BitVec.ofBool s.st.e →
    (mode, new) ∈ [(MstMode.replace b, (s.getGR b).setWidth 6), (.set val, old ||| val), (.clear val, old &&& ~~~val)] →
    exec (.mst r mode) s = .next { (s.setGR r (old.setWidth 32)).retire with
      st := { s.st with u26 := new.getLsbD 5, u27 := new.getLsbD 4, u28 := new.getLsbD 3, p := new.getLsbD 2,
                        d := new.getLsbD 1, e := new.getLsbD 0 } }

/-- LDPA in privileged mode: the offset with translation off, the virtual offset in segment 0, else the translated
address, without any check of rights; a miss raises trap 13 without parameters; an entry of another bank or CPU is refused
(44_system_control.md R285, R286, 20_memory.md R99; segment 0 by SEG0_BYPASS, notes/assumptions/7.md; the refusal,
notes/assumptions/23.md). -/
def Obligations.LdpaResult : Prop :=
  ∀ (r : GReg) (seg : BitVec 2) (a : BitVec 4) (b : GReg) (s : State) (segid vofs : Word), s.st.x = false →
    virtualAddress seg (s.getGR b) s = (segid, vofs) →
    (s.st.d = false → exec (.ldpa r seg a b) s = .next (s.setGR r (s.getGR b)).retire) ∧
    (s.st.d = true → segid = 0#32 → exec (.ldpa r seg a b) s = .next (s.setGR r vofs).retire) ∧
    (∀ e, s.st.d = true → segid ≠ 0#32 → tlbLookup s.dtlb segid vofs = some e → e.addr.bank = 0#4 →
      e.addr.cpuId = 0#4 →
      exec (.ldpa r seg a b) s = .next (s.setGR r (e.addr.ppn ++ vofs.extractLsb' 0 12)).retire) ∧
    (∀ e, s.st.d = true → segid ≠ 0#32 → tlbLookup s.dtlb segid vofs = some e →
      e.addr.bank ≠ 0#4 ∨ e.addr.cpuId ≠ 0#4 → exec (.ldpa r seg a b) s = .refused .foreignBank) ∧
    (s.st.d = true → segid ≠ 0#32 → tlbLookup s.dtlb segid vofs = none →
      exec (.ldpa r seg a b) s = takeTrap (bareTrap .nonAccessDataTlbMiss) s)

/-- PRB, at either level and whatever ST.D is: 1 in segment 0; else 1 iff the entry allows the access at the level in
GR[r] and, with ST.P, its protection id passes; a miss raises trap 13; a level other than 0 and 1 is refused before
anything else (44_system_control.md R285, R288; segment 0 by SEG0_BYPASS, notes/assumptions/7.md). -/
def Obligations.PrbResult : Prop :=
  (∀ (r : GReg) (seg : BitVec 2) (m : Bool) (a : BitVec 4) (b : GReg) (s : State) (pl : Bool) (segid vofs : Word),
    s.getGR r = (if pl then 1#32 else 0#32) → virtualAddress seg (s.getGR b) s = (segid, vofs) →
    (segid = 0#32 → exec (.prb r seg m a b) s = .next (s.setGR r 1#32).retire) ∧
    (∀ e, segid ≠ 0#32 → tlbLookup s.dtlb segid vofs = some e →
      exec (.prb r seg m a b) s = .next (s.setGR r
        (if (if m then writeAllowed e pl else readAllowed e pl) = true ∧ (s.st.p = true → pidOk e m s = true)
          then 1#32 else 0#32)).retire) ∧
    (segid ≠ 0#32 → tlbLookup s.dtlb segid vofs = none →
      exec (.prb r seg m a b) s = takeTrap (bareTrap .nonAccessDataTlbMiss) s)) ∧
  (∀ (r : GReg) (seg : BitVec 2) (m : Bool) (a : BitVec 4) (b : GReg) (s : State), 1 < (s.getGR r).toNat →
    exec (.prb r seg m a b) s = .refused .probeLevel)

/-- ITLB and PTLB in privileged mode. ITLB: the entry of (SR[a], page of GR[b]) has its address part written and V 0
(M = 0) or its protection part written and V 1 (M = 1), its other part kept if it was there; every other key keeps its
entry, but for one that a full TLB gives up. PTLB removes the entry of the key, if there is one. The other TLB and
everything else is unchanged (44_system_control.md R289, R290, R291, 10_state.md R54, R57, R58; that there are two TLBs is
TLB_SPLIT, notes/assumptions/7.md; the entry given up, notes/assumptions/21.md). -/
def Obligations.TlbInstructionResult : Prop :=
  ∀ (r : GReg) (t m : Bool) (a : BitVec 4) (b : GReg) (s : State) (key : Nat) (w : Word), s.st.x = false →
    key = tlbKey (s.getSR (segReg a)) ((s.getGR b).extractLsb' 12 20) → w = s.getGR r →
    risingKeys 0 (s.tlbOf t) = true →
    (∃ u e, exec (.itlb r t m a b) s = .next u ∧ tlbFind (u.tlbOf t) key = some e ∧ e.v = m ∧
      (m = false →
        e.addr = { cpuId := w.extractLsb' 24 4, bank := w.extractLsb' 20 4, ppn := w.extractLsb' 0 20 } ∧
        ∀ old, tlbFind (s.tlbOf t) key = some old → e.prot = old.prot) ∧
      (m = true →
        (e.prot.u = w.getLsbD 31 ∧ e.prot.t = w.getLsbD 30 ∧ e.prot.d = w.getLsbD 29 ∧ e.prot.b = w.getLsbD 28 ∧
          e.prot.type = w.extractLsb' 26 2 ∧ e.prot.pl1 = w.getLsbD 25 ∧ e.prot.pl2 = w.getLsbD 24 ∧
          e.prot.pid16 = w.extractLsb' 0 16) ∧
        ∀ old, tlbFind (s.tlbOf t) key = some old → e.addr = old.addr) ∧
      ((tlbFind (s.tlbOf t) key).isSome = true ∨ (s.tlbOf t).length < tlbCapacity t →
        ∀ k, k ≠ key → tlbFind (u.tlbOf t) k = tlbFind (s.tlbOf t) k) ∧
      (∃ victim, ∀ k, k ≠ key → k ≠ victim → tlbFind (u.tlbOf t) k = tlbFind (s.tlbOf t) k) ∧
      u.tlbOf (!t) = s.tlbOf (!t) ∧ u.gr = s.gr ∧ u.sr = s.sr ∧ u.cr = s.cr ∧ u.st = s.st ∧ u.iaSeg = s.iaSeg ∧
      SameMemory s u ∧ SameMarks s u ∧ SameInputs s u ∧ u.iaOfs = s.iaOfs + 4#32) ∧
    (∃ u, exec (.ptlb t a b) s = .next u ∧ tlbFind (u.tlbOf t) key = none ∧
      (∀ k, k ≠ key → tlbFind (u.tlbOf t) k = tlbFind (s.tlbOf t) k) ∧ u.tlbOf (!t) = s.tlbOf (!t) ∧
      u.gr = s.gr ∧ u.sr = s.sr ∧ u.cr = s.cr ∧ u.st = s.st ∧ u.iaSeg = s.iaSeg ∧ SameMemory s u ∧ SameMarks s u ∧
      SameInputs s u ∧ u.iaOfs = s.iaOfs + 4#32)

/-- PCA in privileged mode, at the physical address its TLB gives or in segment 0: a data flush clears `needs_flush` of
the line's words, an instruction purge clears `needs_purge` of those whose `needs_flush` is clear, a data purge of a line
without unflushed stores changes nothing and of any other line is refused; a miss raises trap 13 or 10; an entry of
another bank or CPU is refused (44_system_control.md R293, 20_memory.md R99, R120, R121; lines of 4 bytes and the bypass of
segment 0, notes/assumptions/7.md; the refusals, notes/assumptions/23.md, 25.md). -/
def Obligations.PcaResult : Prop :=
  ∀ (t f : Bool) (a : BitVec 4) (b : GReg) (s : State) (pa segid : Word), s.st.x = false →
    segid = s.getSR (segReg a) →
    ((segid = 0#32 ∧ pa = s.getGR b) ∨
      (segid ≠ 0#32 ∧ ∃ e, tlbLookup (s.tlbOf t) segid (s.getGR b) = some e ∧
        e.addr.bank = 0#4 ∧ e.addr.cpuId = 0#4 ∧ pa = e.addr.ppn ++ (s.getGR b).extractLsb' 0 12) →
      (t = true → f = false → ∃ l, exec (.pca t f a b) s = .next { s.retire with needsFlush := l } ∧
        ∀ k : Nat, l.contains k = (s.needsFlush.contains k && decide (k / 4 ≠ pa.toNat / 4))) ∧
      (t = true → f = true → (∀ k ∈ s.needsFlush, k / 4 ≠ pa.toNat / 4) → exec (.pca t f a b) s = .next s.retire) ∧
      (t = true → f = true → (∃ k ∈ s.needsFlush, k / 4 = pa.toNat / 4) →
        exec (.pca t f a b) s = .refused .purgeOfUnflushedLine) ∧
      (t = false → ∃ l, exec (.pca t f a b) s = .next { s.retire with needsPurge := l } ∧
        ∀ k : Nat, l.contains k =
          (s.needsPurge.contains k && (decide (k / 4 ≠ pa.toNat / 4) || s.needsFlush.contains k)))) ∧
    (∀ e, segid ≠ 0#32 → tlbLookup (s.tlbOf t) segid (s.getGR b) = some e →
      e.addr.bank ≠ 0#4 ∨ e.addr.cpuId ≠ 0#4 → exec (.pca t f a b) s = .refused .foreignBank) ∧
    (segid ≠ 0#32 → tlbLookup (s.tlbOf t) segid (s.getGR b) = none →
      exec (.pca t f a b) s =
        takeTrap (bareTrap (if t then .nonAccessDataTlbMiss else .nonAccessInstrTlbMiss)) s)

/-- RFI in privileged mode: IA and ST from CR17, CR18 and CR19, the IA without its two low bits, and no increment; the
reservation is cleared; nothing else changes. From the entry of any trap it returns to the interrupted address and status
(44_system_control.md R296, 60_exceptions.md R345, R361, 10_state.md R35; the place of CB, notes/assumptions/7.md). -/
def Obligations.RfiResult : Prop :=
  (∀ (s : State) (w : Word), s.st.x = false → w = s.getCR 17#5 →
    exec .rfi s = .next { s with
      iaSeg := s.getCR 18#5
      iaOfs := s.getCR 19#5 >>> 2 <<< 2
      st := { m := w.getLsbD 31, c := w.getLsbD 30, x := w.getLsbD 29, cb := w.getLsbD 19, u26 := w.getLsbD 5,
              u27 := w.getLsbD 4, u28 := w.getLsbD 3, p := w.getLsbD 2, d := w.getLsbD 1, e := w.getLsbD 0 }
      resv := none }) ∧
  (∀ (p : Trap) (s u : State), wordAligned s.iaOfs = true → takeTrap p s = .next u →
    ∃ t, exec .rfi u = .next t ∧ t.iaSeg = s.iaSeg ∧ t.iaOfs = s.iaOfs ∧ t.st = s.st ∧ t.gr = s.gr ∧
      t.sr = s.sr ∧ SameMemory s t ∧ t.resv = none)

/-- BRK takes trap 18 with P0 the instruction word, at either level, when the vector table base is page aligned, and is
refused with any other base, as every trap is; the zero word is BRK 0, 0; DIAG in privileged mode is refused
(44_system_control.md R298, R299, 60_exceptions.md R341). -/
def Obligations.BrkAndDiag : Prop :=
  decode 0x00000000#32 = .ok (.brk 0#4 0#16) ∧ trapNumber .breakInstruction = 18 ∧
  ∀ (info1 : BitVec 4) (info2 : BitVec 16) (r a b : GReg) (s : State),
    ((s.getCR 16#5).toNat % 4096 = 0 → exec (.brk info1 info2) s =
      .next (trapEntry { cause := .breakInstruction, p0 := some s.ir, p1 := none, p2 := none } s)) ∧
    ((s.getCR 16#5).toNat % 4096 ≠ 0 → exec (.brk info1 info2) s = .refused .vectorBase) ∧
    (s.st.x = false → exec (.diag r a b) s = .refused .diagCommand)

/-! ### Exceptions and privilege -/

/-- Taking a trap: with a page-aligned vector table base its entry, with any other base a refusal. What the entry saves and
sets, that it leaves the general and segment registers,
memory, the TLBs, the flags and every other control register unchanged, and the number of every trap of the table that
something raises (10_state.md R44, 60_exceptions.md R331, R341, R344). -/
def Obligations.TrapEntryEffect : Prop :=
  ([TrapCause.machineCheck, .powerFailure, .externalInterrupt, .illegalInstruction, .privilegedOperation, .overflow,
      .instrTlbMiss, .nonAccessInstrTlbMiss, .instrProtection, .dataTlbMiss, .nonAccessDataTlbMiss, .dataAccessRights,
      .dataProtection, .pageReference, .alignment, .breakInstruction].map trapNumber =
    [1, 2, 4, 5, 6, 8, 9, 10, 11, 12, 13, 14, 15, 16, 17, 18]) ∧
  ∀ (p : Trap) (s t : State), t = trapEntry p s →
    ((s.getCR 16#5).toNat % 4096 = 0 → takeTrap p s = .next t) ∧
    ((s.getCR 16#5).toNat % 4096 ≠ 0 → takeTrap p s = .refused .vectorBase) ∧
    (t.getCR 17#5 = statusWord s.st ∧ t.getCR 18#5 = s.iaSeg ∧ t.getCR 19#5 = s.iaOfs) ∧
    ((∀ v, p.p0 = some v → t.getCR 20#5 = v) ∧ (∀ v, p.p1 = some v → t.getCR 21#5 = v) ∧
      (∀ v, p.p2 = some v → t.getCR 22#5 = v)) ∧
    (t.st.m = false ∧ t.st.c = false ∧ t.st.x = false ∧ t.st.cb = false ∧ t.st.u26 = false ∧ t.st.u27 = false ∧
      t.st.u28 = false ∧ t.st.p = false ∧ t.st.d = false ∧ t.st.e = false) ∧
    t.iaSeg = 0#32 ∧
    t.iaOfs = s.getCR 16#5 + BitVec.ofNat 32 (32 * trapNumber p.cause) ∧
    t.resv = none ∧ t.gr = s.gr ∧ t.sr = s.sr ∧ SameMemory s t ∧ t.itlb = s.itlb ∧ t.dtlb = s.dtlb ∧
    t.needsFlush = s.needsFlush ∧ t.needsPurge = s.needsPurge ∧ SameInputs s t ∧
    (∀ n : CReg, n.toNat < 17 ∨ 22 < n.toNat → t.getCR n = s.getCR n)

/-- The status word: each implemented bit at its position, every reserved bit 0, and `ST <- ST_word` restores it
(10_state.md R35; the place of CB by ST_CB_BIT, notes/assumptions/7.md). -/
def Obligations.StatusWordLayout : Prop :=
  ∀ st : Status,
    statusOfWord (statusWord st) = st ∧
    (∀ w w' : Word, w &&& 0xE008003F#32 = w' &&& 0xE008003F#32 → statusOfWord w = statusOfWord w') ∧
    statusWord st &&& ~~~0xE008003F#32 = 0#32 ∧
    (statusWord st).getLsbD 31 = st.m ∧ (statusWord st).getLsbD 30 = st.c ∧ (statusWord st).getLsbD 29 = st.x ∧
    (statusWord st).getLsbD 19 = st.cb ∧ (statusWord st).getLsbD 5 = st.u26 ∧ (statusWord st).getLsbD 4 = st.u27 ∧
    (statusWord st).getLsbD 3 = st.u28 ∧ (statusWord st).getLsbD 2 = st.p ∧ (statusWord st).getLsbD 1 = st.d ∧
    (statusWord st).getLsbD 0 = st.e

/-- Traps and RFI clear the reservation (40_memory_reference.md R194). -/
def Obligations.ReservationCleared : Prop :=
  (∀ (p : Trap) (s t : State), takeTrap p s = .next t → t.resv = none) ∧
  (∀ s t : State, exec .rfi s = .next t → t.resv = none) ∧
  (∀ s : State, s.st.x = false → ∃ t, exec .rfi s = .next t ∧ t.resv = none)

/-- At ST.X = 1 a privileged instruction raises trap 6 with P0 the instruction word, whatever its other fields are; a
word with a reserved field set is refused before that (60_exceptions.md R347; the refusal by RESERVED_POLICY,
notes/assumptions/7.md). -/
def Obligations.PrivilegeTestFirst : Prop :=
  trapNumber .privilegedOperation = 6 ∧
  (∀ (r b a' : GReg) (mode : MstMode) (seg : BitVec 2) (a : BitVec 4) (t m f : Bool) (ofs : BitVec 18) (s : State),
    s.st.x = true →
    ∀ i ∈ [Instr.mst r mode, .ldpa r seg a b, .itlb r t m a b, .ptlb t a b, .pca t f a b, .rfi, .diag r a' b,
        .ldwa r ofs b, .ldwax r a' b, .stwa r ofs b],
      exec i s = takeTrap { cause := .privilegedOperation, p0 := some s.ir, p1 := none, p2 := none } s) ∧
  (∀ (w : Word) (s : State), w &&& reservedMask w ≠ 0#32 → runWord w s = .refused .reservedField)

/-- What no user-mode instruction changes: unless it traps, every control register but CR2, the segment registers SR4 to
SR7, both TLBs and every status bit but CB and (by GATE only) X are unchanged, and no flag of a stored word, which PCA alone
clears, becomes false (44_system_control.md R281, R293, 60_exceptions.md R354, R364, 10_state.md R37, 20_memory.md R120; the
sets of privileged registers, notes/assumptions/7.md). -/
def Obligations.UserModeContained : Prop :=
  ∀ (i : Instr) (s t : State), s.st.x = true → exec i s = .next t →
    IsTrapEntryFrom s t ∨
      ((∀ n : CReg, n ≠ 2#5 → t.getCR n = s.getCR n) ∧ (∀ n : SReg, 4 ≤ n.toNat → t.getSR n = s.getSR n) ∧
        t.itlb = s.itlb ∧ t.dtlb = s.dtlb ∧ SameInputs s t ∧
        (∀ k ∈ s.needsFlush, k ∈ t.needsFlush) ∧ (∀ k ∈ s.needsPurge, k ∈ t.needsPurge) ∧
        (∃ cb x, t.st = { s.st with cb := cb, x := x }) ∧
        (t.st.x = false → ∃ r ofs, i = .gate r ofs))

/-- A step goes from user to privileged mode only by taking a trap or by running GATE (60_exceptions.md R365). -/
def Obligations.PrivilegeGain : Prop :=
  ∀ s t : State, s.st.x = true → step s = .next t → t.st.x = false →
    (t.st = Status.zero ∧ t.iaSeg = 0#32 ∧ t.getCR 17#5 = statusWord s.st ∧ t.getCR 18#5 = s.iaSeg ∧
      t.getCR 19#5 = s.iaOfs) ∨
    ∃ w u r ofs, fetch s = .done (w, u) ∧ decode w = .ok (.gate r ofs) ∧ exec (.gate r ofs) u = .next t

/-- An instruction changes IA-SEG only if it is BE or BLE (to SR[a]), RFI (to CR18) or traps (to 0). With instruction
translation off it is kept and the fetch does not use it, but a trap saves it to CR18 and BLE copies it to SR0
(10_state.md R31). -/
def Obligations.IaSegWriters : Prop :=
  (∀ (i : Instr) (s t : State), exec i s = .next t →
    t.iaSeg = s.iaSeg ∨
    (IsTrapEntryFrom s t ∧ t.iaSeg = 0#32 ∧ t.getCR 18#5 = s.iaSeg) ∨
    (i = .rfi ∧ t.iaSeg = s.getCR 18#5) ∨
    (s.st.c = true ∧ ∃ ofs a b, (i = .be ofs a b ∨ i = .ble ofs a b ∧ t.getSR 0#3 = s.iaSeg) ∧
      t.iaSeg = s.getSR (segReg a))) ∧
  (∀ s : State, s.st.c = false →
    (∀ seg : Word, fetchAddress { s with iaSeg := seg } = .done (s.iaOfs, { s with iaSeg := seg })) ∧
    (∀ (p : Trap) (t : State), takeTrap p s = .next t → t.getCR 18#5 = s.iaSeg) ∧
    (∀ ofs a b, ∃ t, exec (.ble ofs a b) s = .next t ∧ t.getSR 0#3 = s.iaSeg ∧ t.iaSeg = s.iaSeg))

/-- What changes ST.CB and the TLBs: an instruction that does not trap changes ST.CB only if it is ADD or SUB with L = 0,
or RFI; one that changes a TLB is ITLB or PTLB run in privileged mode (10_state.md R37, R51, 44_system_control.md R289,
R291). -/
def Obligations.CarryAndTlbWriters : Prop :=
  ∀ (i : Instr) (s t : State), exec i s = .next t →
    (t.st.cb ≠ s.st.cb →
      IsTrapEntryFrom s t ∨ i = .rfi ∨ (∃ r c o opd, i = .add r c false o opd ∨ i = .sub r c false o opd)) ∧
    (t.itlb ≠ s.itlb ∨ t.dtlb ≠ s.dtlb →
      s.st.x = false ∧ ((∃ r q m a b, i = .itlb r q m a b) ∨ (∃ q a b, i = .ptlb q a b)))

/-- Which bytes of memory an instruction can change: for STW, STH and STB and STWC those at the physical address of the
operand, for STWA those at the absolute address, for every other instruction none (20_memory.md R73, R116,
40_memory_reference.md R175, R182, R192). -/
def Obligations.MemoryFrame : Prop :=
  ∀ (i : Instr) (s t : State), exec i s = .next t →
    match i with
    | .stw _ base seg ofs => ∀ pa, dataAddress true .word seg (indexedOffset base ofs s) s = .done pa →
        SameMemoryOutside pa.toNat 4 s t
    | .sth _ base seg ofs => ∀ pa, dataAddress true .half seg (indexedOffset base ofs s) s = .done pa →
        SameMemoryOutside pa.toNat 2 s t
    | .stb _ base seg ofs => ∀ pa, dataAddress true .byte seg (indexedOffset base ofs s) s = .done pa →
        SameMemoryOutside pa.toNat 1 s t
    | .stwc _ base seg ofs => ∀ pa, dataAddress true .word seg (indexedOffset base ofs s) s = .done pa →
        SameMemoryOutside pa.toNat 4 s t
    | .stwa _ ofs b => SameMemoryOutside (absoluteOffset b ofs s).toNat 4 s t
    | _ => SameMemory s t

/-- Which general registers an instruction can change: the one its field r names, for BLE GR0, for every other
instruction none (10_state.md R25, R26). -/
def Obligations.RegisterFrame : Prop :=
  ∀ (i : Instr) (s t : State), exec i s = .next t →
    match i with
    | .ldwReg r _ _ _ | .ldhReg r _ _ _ | .ldbReg r _ _ _ | .ldwOfs r _ _ _ | .ldhOfs r _ _ _ | .ldbOfs r _ _ _
    | .ldwr r _ _ _ | .stwc r _ _ _ | .ldwa r _ _ | .ldwax r _ _ | .ldil r _ | .addil r _ | .ldo r _ | .bl r _
    | .blr r _ | .gate r _ | .add r _ _ _ _ | .sub r _ _ _ _ | .and r _ _ _ | .or r _ _ _ | .xor r _ _ _ | .cmp r _ _
    | .cmr r _ _ _ | .extr r _ _ _ _ _ | .dep r _ _ _ _ _ _ | .dsr r _ _ _ _ | .shla r _ _ _ _ _ _ | .lsid r _
    | .mr r _ false _ _ | .mst r _ | .ldpa r _ _ _ | .prb r _ _ _ _ => SameGRBut r s t
    | .ble _ _ _ => SameGRBut 0#4 s t
    | _ => t.gr = s.gr

/-! ### Fetch and step -/

/-- A step runs the word at the address of the fetch: when no event is pending and no flag of the word is set, the step is
the run of the word in memory, in the state the fetch left, which differs from the old one in the recorded word and a
demotion only; in the I/O range it is the run of the environment's answer, which is recorded. A word that decodes is run as
its instruction's execution, an illegal one raises trap 5, one with a reserved field set is refused (20_memory.md R100, R101,
R103, 30_encoding.md R151, R152, R154). The model's choices: that every word below the I/O range is served (PHYS_MEM_SIZE,
notes/assumptions/3.md), the answer in the I/O range (notes/assumptions/10.md), the refusal (RESERVED_POLICY,
notes/assumptions/7.md). -/
def Obligations.StepRunsInstruction : Prop :=
  (∀ (s t : State) (pa w : Word),
    pendingTrap s = none → fetchAddress s = .done (pa, t) →
    (∀ k : Nat, k = pa.toNat / 4 * 4 → s.needsFlush.contains k = false ∧ s.needsPurge.contains k = false) →
    (∃ x, t = { s with st := { s.st with x := x } }) ∧ (s.st.c = false → t = s ∧ pa = s.iaOfs) ∧
    (pa.toNat + 4 ≤ 0xF0000000 →
      w = bytesWord (s.mem.byte pa.toNat) (s.mem.byte (pa.toNat + 1)) (s.mem.byte (pa.toNat + 2))
        (s.mem.byte (pa.toNat + 3)) →
      step s = runWord w { t with ir := w }) ∧
    (0xF0000000 ≤ pa.toNat → w = Config.ioAnswer s.draws →
      step s = runWord w { t with ir := w, draws := s.draws + 1, envTrace := .ioRead pa .word w :: s.envTrace })) ∧
  (∀ (w : Word) (u : State),
    (∀ i, decode w = .ok i → runWord w u = exec i u) ∧
    (decode w = .error .unassignedOpcode ∨ decode w = .error .illegalOpMode →
      runWord w u = takeTrap (instrTrap .illegalInstruction u) u) ∧
    (decode w = .error .reservedField → runWord w u = .refused .reservedField))

/-- Fetch with ST.C = 0: the physical address is IA-OFS, IA-SEG is not used, and no check is made
(20_memory.md R101). -/
def Obligations.UntranslatedFetch : Prop :=
  ∀ (s : State), s.st.c = false →
    fetchAddress s = .done (s.iaOfs, s) ∧
    (∀ seg : Word, fetchAddress { s with iaSeg := seg } = .done (s.iaOfs, { s with iaSeg := seg }))

/-- Translated fetch: the traps 9 and 11 in their order, the demotion of the level, and the physical address; an entry of
another bank or CPU is refused (20_memory.md R99, R102, R103; the bypass of segment 0 by SEG0_BYPASS,
notes/assumptions/7.md; the refusal, notes/assumptions/23.md). -/
def Obligations.TranslatedFetch : Prop :=
  ∀ (s : State), s.st.c = true →
    (s.iaSeg = 0#32 → fetchAddress s = .done (s.iaOfs, s)) ∧
    (s.iaSeg ≠ 0#32 → tlbLookup s.itlb s.iaSeg s.iaOfs = none → fetchAddress s = .trap (bareTrap .instrTlbMiss)) ∧
    (∀ e, s.iaSeg ≠ 0#32 → tlbLookup s.itlb s.iaSeg s.iaOfs = some e →
      ((e.prot.type.toNat < 2 ∨ (s.st.x = true ∧ e.prot.pl1 = false) ∨ (s.st.p = true ∧ pidOk e false s = false)) →
        fetchAddress s = .trap (bareTrap .instrProtection)) ∧
      (2 ≤ e.prot.type.toNat → (s.st.x = true → e.prot.pl1 = true) → (s.st.p = true → pidOk e false s = true) →
        e.addr.bank = 0#4 → e.addr.cpuId = 0#4 →
        fetchAddress s = .done (e.addr.ppn ++ s.iaOfs.extractLsb' 0 12,
          { s with st := { s.st with x := s.st.x || e.prot.pl2 } })) ∧
      (2 ≤ e.prot.type.toNat → (s.st.x = true → e.prot.pl1 = true) → (s.st.p = true → pidOk e false s = true) →
        e.addr.bank ≠ 0#4 ∨ e.addr.cpuId ≠ 0#4 →
        fetchAddress s = .refuse .foreignBank ∧ (pendingTrap s = none → step s = .refused .foreignBank)))

/-- A trap of the fetch is 9 or 11, entered with the IA of the instruction whose fetch failed, without parameters; a fetch
from a word with a flag set is refused, since the race of a store and a fetch has no defined result (20_memory.md R102,
R120, 60_exceptions.md R345, R357). -/
def Obligations.FetchTrapsAndStops : Prop :=
  (∀ (s : State) (p : Trap), pendingTrap s = none → fetchAddress s = .trap p →
    step s = takeTrap p s ∧ (p = bareTrap .instrTlbMiss ∨ p = bareTrap .instrProtection) ∧
    trapNumber .instrTlbMiss = 9 ∧ trapNumber .instrProtection = 11) ∧
  (∀ (s t : State) (pa : Word), pendingTrap s = none → fetchAddress s = .done (pa, t) →
    (s.needsFlush.contains (pa.toNat / 4 * 4) = true ∨ s.needsPurge.contains (pa.toNat / 4 * 4) = true) →
    step s = .refused .staleFetch)

/-- The events between instructions. The external interrupt is taken before the fetch iff ST.E is set and an unmasked
request is up, with the address of the instruction that has not started. A machine check at ST.M = 0 and a power failure
are taken before it and consumed (60_exceptions.md R345, R356; the last sentence is the model's choice for what R352 and
R353 leave open, notes/assumptions/13.md, 33.md). -/
def Obligations.AsynchronousTraps : Prop :=
  ∀ s : State,
    (s.machineCheck = true → s.st.m = false →
      step s = takeTrap (bareTrap .machineCheck) { s with machineCheck := false }) ∧
    (s.machineCheck = false ∨ s.st.m = true → s.powerFailure = true →
      step s = takeTrap (bareTrap .powerFailure) { s with powerFailure := false }) ∧
    (s.machineCheck = false ∨ s.st.m = true → s.powerFailure = false →
      (s.st.e = true → s.extIrq &&& s.getCR 23#5 ≠ 0#32 →
        step s = takeTrap (bareTrap .externalInterrupt) s ∧
        ∀ t, step s = .next t → t.getCR 19#5 = s.iaOfs) ∧
      (s.st.e = false ∨ s.extIrq &&& s.getCR 23#5 = 0#32 → pendingTrap s = none)) ∧
    trapNumber .machineCheck = 1 ∧ trapNumber .powerFailure = 2 ∧ trapNumber .externalInterrupt = 4

/-! ### Reset and the invariant -/

/-- Reset as the spec gives it: every status bit 0, IA at (0, RESET_VECTOR), a multiple of 4 at which the first fetch
reads, both TLBs empty, no reservation, no flag, no event taken (70_reset_and_hazards.md R391, R392, R394, R396). -/
def Obligations.ResetState : Prop :=
  (State.reset.st.m = false ∧ State.reset.st.c = false ∧ State.reset.st.x = false ∧ State.reset.st.cb = false ∧
    State.reset.st.u26 = false ∧ State.reset.st.u27 = false ∧ State.reset.st.u28 = false ∧ State.reset.st.p = false ∧
    State.reset.st.d = false ∧ State.reset.st.e = false) ∧
  State.reset.iaSeg = 0#32 ∧ State.reset.iaOfs = Config.resetVector ∧ Config.resetVector.toNat % 4 = 0 ∧
  State.reset.itlb = [] ∧ State.reset.dtlb = [] ∧ State.reset.resv = none ∧
  State.reset.needsFlush = [] ∧ State.reset.needsPurge = [] ∧ State.reset.extIrq = 0#32 ∧
  pendingTrap State.reset = none ∧ fetchAddress State.reset = .done (Config.resetVector, State.reset)

/-- The invariant holds at reset (20_memory.md R120, 10_state.md R29, R41, R55, R60). -/
def Obligations.ResetInv : Prop := State.reset.Inv

/-- Every step keeps the invariant: memory in canonical form, the TLBs maps within their capacity, IA-OFS and the
reservation word aligned, SHAMT within five bits, the flag lists canonical (10_state.md R29, R41, R55, R60, R61). -/
def Obligations.StepKeepsInv : Prop := ∀ s t : State, s.Inv → step s = .next t → t.Inv
end

