-- ==== Sys2Proof/Laws/Encoding.lean ====
section
/-! SUPPORT. Fields read from words that are made of placed fields: the lemmas from which the round trip of decoder
and encoder is assembled. -/

namespace Sys2Proof.Laws

open Sys2Proof

/-! ### Fields of placed fields -/

@[simp] theorem field_or (x y : Word) (lo n : Nat) : field (x ||| y) lo n = field x lo n ||| field y lo n := by
  ext i hi
  simp [field]

theorem getLsbD_place {n : Nat} (v : BitVec n) (lo k : Nat) (h : lo + n ≤ 32) :
    (place v lo).getLsbD k = (decide (lo ≤ k) && v.getLsbD (k - lo)) := by
  by_cases hk : k < lo
  · have : ¬ lo ≤ k := by omega
    simp [place, hk, this]
  · by_cases hv : k - lo < n
    · have h1 : k < 32 := by omega
      have h3 : lo ≤ k := by omega
      simp [place, hk, h1, h3]
    · have h3 : v.getLsbD (k - lo) = false := BitVec.getLsbD_of_ge v _ (by omega)
      simp [place, h3]

/-- A field read where it was placed. -/
theorem field_place_same {n : Nat} (v : BitVec n) (lo : Nat) (h : lo + n ≤ 32) : field (place v lo) lo n = v := by
  apply BitVec.eq_of_getLsbD_eq
  intro i hi
  simp [field, getLsbD_place v lo _ h, hi]

/-- A field read beside the one that was placed is 0. -/
theorem field_place_disjoint {m : Nat} (v : BitVec m) (lo lo' n : Nat) (h : lo' + m ≤ 32)
    (hd : lo + n ≤ lo' ∨ lo' + m ≤ lo) : field (place v lo') lo n = 0#n := by
  apply BitVec.eq_of_getLsbD_eq
  intro i hi
  simp only [field, BitVec.getLsbD_extractLsb', getLsbD_place v lo' _ h, BitVec.getLsbD_zero, hi, decide_true,
    Bool.true_and]
  rcases hd with hd | hd
  · have : ¬ lo' ≤ lo + i := by omega
    simp [this]
  · rw [BitVec.getLsbD_of_ge v _ (by omega), Bool.and_false]

@[simp] theorem flag_or (x y : Word) (k : Nat) : flag (x ||| y) k = (flag x k || flag y k) := by
  simp [flag]

/-- An option bit read where it was placed. -/
theorem flag_placeFlag_same (c : Bool) (k : Nat) (h : k + 1 ≤ 32) : flag (placeFlag c k) k = c := by
  simp [flag, placeFlag, getLsbD_place (BitVec.ofBool c) k k h]

/-- An option bit read beside a placed field is false. -/
theorem flag_place_disjoint {m : Nat} (v : BitVec m) (k lo : Nat) (h : lo + m ≤ 32) (hd : k < lo ∨ lo + m ≤ k) :
    flag (place v lo) k = false := by
  rw [flag, getLsbD_place v lo k h]
  rcases hd with hd | hd
  · have : ¬ lo ≤ k := by omega
    simp [this]
  · rw [BitVec.getLsbD_of_ge v _ (by omega), Bool.and_false]

/-- A field read beside a placed option bit is 0. -/
theorem field_placeFlag_disjoint (c : Bool) (lo k n : Nat) (h : k + 1 ≤ 32) (hd : lo + n ≤ k ∨ k + 1 ≤ lo) :
    field (placeFlag c k) lo n = 0#n := field_place_disjoint (BitVec.ofBool c) lo k n h hd

/-- An option bit read beside another placed option bit is false. -/
theorem flag_placeFlag_disjoint (c : Bool) (k j : Nat) (h : j + 1 ≤ 32) (hd : k < j ∨ j + 1 ≤ k) :
    flag (placeFlag c j) k = false := flag_place_disjoint (BitVec.ofBool c) k j h hd

/-! ### Placed fields under a mask -/

theorem or_and_mask (x y m : Word) : (x ||| y) &&& m = x &&& m ||| y &&& m := by
  ext i hi
  simp [Bool.and_or_distrib_right]

/-- A mask meets a placed field only in the mask's own field. -/
theorem place_and_mask {n : Nat} (v : BitVec n) (lo : Nat) (m : Word) (h : lo + n ≤ 32) :
    place v lo &&& m = place (v &&& field m lo n) lo := by
  apply BitVec.eq_of_getLsbD_eq
  intro i hi
  rw [BitVec.getLsbD_and, getLsbD_place v lo i h, getLsbD_place _ lo i h, BitVec.getLsbD_and]
  by_cases h1 : lo ≤ i
  · by_cases h2 : i - lo < n
    · simp [field, h1, h2]
    · simp [BitVec.getLsbD_of_ge v (i - lo) (by omega)]
  · simp [h1]

theorem and_or_mask (x m n : Word) : x &&& (m ||| n) = x &&& m ||| x &&& n := by
  ext i hi
  simp [Bool.and_or_distrib_left]

@[simp] theorem place_zero (n lo : Nat) : place (0#n) lo = 0#32 := by
  simp [place]

/-- A word without bits in the low 19 meets no mask of an operand argument. -/
theorem and_opArgMask (x : Word) (mode : BitVec 5) (h : field x 0 19 = 0#19) : x &&& opArgMask mode = 0#32 := by
  have hm : opArgMask mode = opArgMask mode &&& 0x7FFFF#32 := by
    revert mode
    decide
  have hx : x &&& 0x7FFFF#32 = 0#32 := by
    rw [show (0x7FFFF#32 : Word) = place 0x7FFFF#19 0 from rfl, BitVec.and_comm, place_and_mask _ _ _ (by decide), h]
    simp
  rw [hm, BitVec.and_comm (opArgMask mode), ← BitVec.and_assoc, hx, BitVec.zero_and]

theorem and_loadArgMask (x : Word) (mode : BitVec 5) (h : field x 0 19 = 0#19) : x &&& loadArgMask mode = 0#32 := by
  have hm : loadArgMask mode = loadArgMask mode &&& opArgMask mode := by
    revert mode
    decide
  rw [hm, BitVec.and_comm (loadArgMask mode), ← BitVec.and_assoc, and_opArgMask x mode h, BitVec.zero_and]

/-- The selector of MR that names an existing register meets none of the bits R149 marks 0. -/
theorem specialFieldOk_cr (s : BitVec 6) (h : specialFieldOk true s = true) : s &&& 32#6 = 0#6 := by
  revert s
  decide

theorem specialFieldOk_sr (s : BitVec 6) (h : specialFieldOk false s = true) : s &&& 56#6 = 0#6 := by
  revert s
  decide

/-- A segment field that is below 8 has its leftmost bit 0 (30_encoding.md R146). -/
theorem segFieldOk_and (a : BitVec 4) (h : segFieldOk a = true) : a &&& 8#4 = 0#4 := by
  revert a
  decide

/-! ### The condition codes -/

@[simp] theorem cmpCondOf_bits (c : CmpCond) : cmpCondOf (cmpCondBits c) = c := by cases c <;> rfl

@[simp] theorem testCondOf_bits (c : TestCond) : testCondOf (testCondBits c) = c := by cases c <;> rfl

/-! ### Operands -/

/-- A field of the low 19 bits is a function of them. -/
theorem field_congr_low {x y : Word} (h : field x 0 19 = field y 0 19) (lo n : Nat) (hn : lo + n ≤ 19) :
    field x lo n = field y lo n := by
  apply BitVec.eq_of_getLsbD_eq
  intro i hi
  have := congrArg (fun v => v.getLsbD (lo + i)) h
  have hl : lo + i < 19 := by omega
  simpa [field, hi, hl] using this

/-- The operand mode and the operand are functions of the low 19 bits. -/
theorem opModeOf_congr {x y : Word} (h : field x 0 19 = field y 0 19) : opModeOf x = opModeOf y :=
  field_congr_low h 14 5 (by decide)

theorem parseOperand_congr {x y : Word} (h : field x 0 19 = field y 0 19) : parseOperand x = parseOperand y := by
  simp only [parseOperand, opModeOf_congr h, field_congr_low h 0 14 (by decide), field_congr_low h 0 4 (by decide),
    field_congr_low h 4 4 (by decide), field_congr_low h 12 2 (by decide), field_congr_low h 14 3 (by decide),
    field_congr_low h 17 2 (by decide), field_congr_low h 0 12 (by decide)]

/-- The mode field of an indexed operand is its width group and its index register. -/
theorem opMode_indexed (w : Width) (base : BitVec 3) :
    field (place (widthGroup w) 17) 14 5 ||| field (place base 14) 14 5 = widthGroup w ++ base := by
  revert base
  cases w <;> decide

/-- An encoded operand lies in the low 19 bits. -/
theorem field_encodeOperand_high (opd : Operand) (lo n : Nat) (h : 19 ≤ lo) : field (encodeOperand opd) lo n = 0#n := by
  cases opd <;> simp only [encodeOperand, field_or] <;>
    repeat rw [field_place_disjoint _ lo _ n (by omega) (by omega)]
  all_goals simp

theorem flag_encodeOperand_high (opd : Operand) (k : Nat) (h : 19 ≤ k) : flag (encodeOperand opd) k = false := by
  cases opd <;> simp only [encodeOperand, flag_or] <;>
    repeat rw [flag_place_disjoint _ k _ (by omega) (by omega)]
  all_goals rfl

/-- An encoded operand meets no mask above its 19 bits. -/
theorem encodeOperand_and_high (opd : Operand) (m : Word) (h : field m 0 19 = 0#19) :
    encodeOperand opd &&& m = 0#32 := by
  have hf : ∀ lo n, lo + n ≤ 19 → field m lo n = 0#n := fun lo n hn =>
    (field_congr_low (y := 0#32) (by simpa [field] using h) lo n hn).trans (by simp [field])
  cases opd <;> simp [encodeOperand, or_and_mask, place_and_mask, hf]

/-- The mode field of an encoded operand. -/
def modeOf : Operand → BitVec 5
  | .imm _ => 0#5
  | .reg _ => 1#5
  | .regs _ _ => 2#5
  | .mode3 _ => 3#5
  | .regIdx w _ _ _ => regIdxMode w
  | .mode7 _ => 7#5
  | .indexed w base _ _ => widthGroup w ++ base

theorem opModeOf_encodeOperand (opd : Operand) : opModeOf (encodeOperand opd) = modeOf opd := by
  cases opd with
  | indexed w base seg ofs =>
    simp [encodeOperand, opModeOf, modeOf, opMode_indexed, field_place_disjoint]
  | _ => simp [encodeOperand, opModeOf, modeOf, field_place_same, field_place_disjoint]

/-- An encoded operand has no bit set that its mode's layout marks 0. -/
theorem encodeOperand_reserved (opd : Operand) : encodeOperand opd &&& opArgMask (modeOf opd) = 0#32 := by
  cases opd with
  | indexed w base seg ofs =>
    have h : ∀ base : BitVec 3, opArgMask (widthGroup w ++ base) = 0#32 := by cases w <;> decide
    rw [modeOf, h, BitVec.and_zero]
  | regIdx w seg a b =>
    cases w <;> simp [encodeOperand, modeOf, regIdxMode, opArgMask, or_and_mask, place_and_mask] <;> simp [field]
  | _ => simp [encodeOperand, modeOf, opArgMask, or_and_mask, place_and_mask] <;> simp [field]

/-- What opcode 0x18 marks 0 in a mode is among what ADD to CMP mark 0. -/
theorem encodeOperand_loadArg (opd : Operand) : encodeOperand opd &&& loadArgMask (modeOf opd) = 0#32 := by
  have hm : ∀ mode : BitVec 5, loadArgMask mode = opArgMask mode &&& loadArgMask mode := by decide
  rw [hm, ← BitVec.and_assoc, encodeOperand_reserved, BitVec.zero_and]

/-- A word whose low 19 bits are those of an encoded operand has its mode. -/
theorem opModeOf_or_encodeOperand (x : Word) (opd : Operand) (h : field x 0 19 = 0#19) :
    opModeOf (x ||| encodeOperand opd) = modeOf opd := by
  rw [← opModeOf_encodeOperand]
  exact opModeOf_congr (by simp [h])

/-- An encoded operand decodes to itself. -/
theorem parseOperand_encodeOperand (opd : Operand) : parseOperand (encodeOperand opd) = opd := by
  have hm := opModeOf_encodeOperand opd
  simp only [parseOperand, hm]
  cases opd with
  | indexed w base seg ofs =>
    have h : ∀ base : BitVec 3, 8 ≤ (widthGroup w ++ base).toNat := by cases w <;> decide
    have h := h base
    have hg : field (encodeOperand (.indexed w base seg ofs)) 17 2 = widthGroup w := by
      simp [encodeOperand, field_place_same, field_place_disjoint]
    simp only [modeOf, hg]
    split <;> first | omega | skip
    cases w <;> simp [encodeOperand, widthGroup, field_place_same, field_place_disjoint]
  | regIdx w seg a b =>
    cases w <;> simp [encodeOperand, modeOf, regIdxMode, field_place_same, field_place_disjoint]
  | _ => simp [encodeOperand, modeOf, field_place_same, field_place_disjoint]

/-- An encoded operand decodes to itself beside any bits above it. -/
theorem parseOperand_or_encodeOperand (x : Word) (opd : Operand) (h : field x 0 19 = 0#19) :
    parseOperand (x ||| encodeOperand opd) = opd := by
  refine Eq.trans (parseOperand_congr ?_) (parseOperand_encodeOperand opd)
  simp [h]

/-! ### The bytes of a word -/

/-- A word is the word of its bytes. -/
theorem bytesWord_wordBytes (w : Word) : bytesWord (field w 24 8) (field w 16 8) (field w 8 8) (field w 0 8) = w := by
  apply BitVec.eq_of_getLsbD_eq
  intro i hi
  simp only [bytesWord, field, BitVec.getLsbD_append, BitVec.getLsbD_extractLsb']
  split_ifs
  all_goals
    rw [decide_eq_true (by omega), Bool.true_and]
    congr 1
    omega

end Sys2Proof.Laws
end

