-- ==== Sys2Proof/Laws/State.lean ====
section
/-! SUPPORT. One lemma for each field of the state under each of its updates, and the reads of the register files
after their writes, so that no proof unfolds a record update. -/

namespace Sys2Proof.Laws

open Sys2Proof Sys2Proof.Machine

/-! ### setGR -/

@[simp] theorem setGR_gr (s : State) (r : GReg) (v : Word) : (s.setGR r v).gr = s.gr.set r.toNat v r.isLt := rfl
@[simp] theorem setGR_sr (s : State) (r : GReg) (v : Word) : (s.setGR r v).sr = s.sr := rfl
@[simp] theorem setGR_cr (s : State) (r : GReg) (v : Word) : (s.setGR r v).cr = s.cr := rfl
@[simp] theorem setGR_iaSeg (s : State) (r : GReg) (v : Word) : (s.setGR r v).iaSeg = s.iaSeg := rfl
@[simp] theorem setGR_iaOfs (s : State) (r : GReg) (v : Word) : (s.setGR r v).iaOfs = s.iaOfs := rfl
@[simp] theorem setGR_st (s : State) (r : GReg) (v : Word) : (s.setGR r v).st = s.st := rfl
@[simp] theorem setGR_mem (s : State) (r : GReg) (v : Word) : (s.setGR r v).mem = s.mem := rfl
@[simp] theorem setGR_itlb (s : State) (r : GReg) (v : Word) : (s.setGR r v).itlb = s.itlb := rfl
@[simp] theorem setGR_dtlb (s : State) (r : GReg) (v : Word) : (s.setGR r v).dtlb = s.dtlb := rfl
@[simp] theorem setGR_resv (s : State) (r : GReg) (v : Word) : (s.setGR r v).resv = s.resv := rfl
@[simp] theorem setGR_needsFlush (s : State) (r : GReg) (v : Word) : (s.setGR r v).needsFlush = s.needsFlush := rfl
@[simp] theorem setGR_needsPurge (s : State) (r : GReg) (v : Word) : (s.setGR r v).needsPurge = s.needsPurge := rfl
@[simp] theorem setGR_extIrq (s : State) (r : GReg) (v : Word) : (s.setGR r v).extIrq = s.extIrq := rfl
@[simp] theorem setGR_machineCheck (s : State) (r : GReg) (v : Word) : (s.setGR r v).machineCheck = s.machineCheck := rfl
@[simp] theorem setGR_powerFailure (s : State) (r : GReg) (v : Word) : (s.setGR r v).powerFailure = s.powerFailure := rfl
@[simp] theorem setGR_ir (s : State) (r : GReg) (v : Word) : (s.setGR r v).ir = s.ir := rfl
@[simp] theorem setGR_envTrace (s : State) (r : GReg) (v : Word) : (s.setGR r v).envTrace = s.envTrace := rfl
@[simp] theorem setGR_draws (s : State) (r : GReg) (v : Word) : (s.setGR r v).draws = s.draws := rfl

/-! ### setSR -/

@[simp] theorem setSR_gr (s : State) (n : SReg) (v : Word) : (s.setSR n v).gr = s.gr := rfl
@[simp] theorem setSR_sr (s : State) (n : SReg) (v : Word) : (s.setSR n v).sr = s.sr.set n.toNat v n.isLt := rfl
@[simp] theorem setSR_cr (s : State) (n : SReg) (v : Word) : (s.setSR n v).cr = s.cr := rfl
@[simp] theorem setSR_iaSeg (s : State) (n : SReg) (v : Word) : (s.setSR n v).iaSeg = s.iaSeg := rfl
@[simp] theorem setSR_iaOfs (s : State) (n : SReg) (v : Word) : (s.setSR n v).iaOfs = s.iaOfs := rfl
@[simp] theorem setSR_st (s : State) (n : SReg) (v : Word) : (s.setSR n v).st = s.st := rfl
@[simp] theorem setSR_mem (s : State) (n : SReg) (v : Word) : (s.setSR n v).mem = s.mem := rfl
@[simp] theorem setSR_itlb (s : State) (n : SReg) (v : Word) : (s.setSR n v).itlb = s.itlb := rfl
@[simp] theorem setSR_dtlb (s : State) (n : SReg) (v : Word) : (s.setSR n v).dtlb = s.dtlb := rfl
@[simp] theorem setSR_resv (s : State) (n : SReg) (v : Word) : (s.setSR n v).resv = s.resv := rfl
@[simp] theorem setSR_needsFlush (s : State) (n : SReg) (v : Word) : (s.setSR n v).needsFlush = s.needsFlush := rfl
@[simp] theorem setSR_needsPurge (s : State) (n : SReg) (v : Word) : (s.setSR n v).needsPurge = s.needsPurge := rfl
@[simp] theorem setSR_extIrq (s : State) (n : SReg) (v : Word) : (s.setSR n v).extIrq = s.extIrq := rfl
@[simp] theorem setSR_machineCheck (s : State) (n : SReg) (v : Word) : (s.setSR n v).machineCheck = s.machineCheck := rfl
@[simp] theorem setSR_powerFailure (s : State) (n : SReg) (v : Word) : (s.setSR n v).powerFailure = s.powerFailure := rfl
@[simp] theorem setSR_ir (s : State) (n : SReg) (v : Word) : (s.setSR n v).ir = s.ir := rfl
@[simp] theorem setSR_envTrace (s : State) (n : SReg) (v : Word) : (s.setSR n v).envTrace = s.envTrace := rfl
@[simp] theorem setSR_draws (s : State) (n : SReg) (v : Word) : (s.setSR n v).draws = s.draws := rfl

/-! ### setCR -/

@[simp] theorem setCR_gr (s : State) (n : CReg) (v : Word) : (s.setCR n v).gr = s.gr := rfl
@[simp] theorem setCR_sr (s : State) (n : CReg) (v : Word) : (s.setCR n v).sr = s.sr := rfl
@[simp] theorem setCR_cr (s : State) (n : CReg) (v : Word) : (s.setCR n v).cr = s.cr.set n.toNat v n.isLt := rfl
@[simp] theorem setCR_iaSeg (s : State) (n : CReg) (v : Word) : (s.setCR n v).iaSeg = s.iaSeg := rfl
@[simp] theorem setCR_iaOfs (s : State) (n : CReg) (v : Word) : (s.setCR n v).iaOfs = s.iaOfs := rfl
@[simp] theorem setCR_st (s : State) (n : CReg) (v : Word) : (s.setCR n v).st = s.st := rfl
@[simp] theorem setCR_mem (s : State) (n : CReg) (v : Word) : (s.setCR n v).mem = s.mem := rfl
@[simp] theorem setCR_itlb (s : State) (n : CReg) (v : Word) : (s.setCR n v).itlb = s.itlb := rfl
@[simp] theorem setCR_dtlb (s : State) (n : CReg) (v : Word) : (s.setCR n v).dtlb = s.dtlb := rfl
@[simp] theorem setCR_resv (s : State) (n : CReg) (v : Word) : (s.setCR n v).resv = s.resv := rfl
@[simp] theorem setCR_needsFlush (s : State) (n : CReg) (v : Word) : (s.setCR n v).needsFlush = s.needsFlush := rfl
@[simp] theorem setCR_needsPurge (s : State) (n : CReg) (v : Word) : (s.setCR n v).needsPurge = s.needsPurge := rfl
@[simp] theorem setCR_extIrq (s : State) (n : CReg) (v : Word) : (s.setCR n v).extIrq = s.extIrq := rfl
@[simp] theorem setCR_machineCheck (s : State) (n : CReg) (v : Word) : (s.setCR n v).machineCheck = s.machineCheck := rfl
@[simp] theorem setCR_powerFailure (s : State) (n : CReg) (v : Word) : (s.setCR n v).powerFailure = s.powerFailure := rfl
@[simp] theorem setCR_ir (s : State) (n : CReg) (v : Word) : (s.setCR n v).ir = s.ir := rfl
@[simp] theorem setCR_envTrace (s : State) (n : CReg) (v : Word) : (s.setCR n v).envTrace = s.envTrace := rfl
@[simp] theorem setCR_draws (s : State) (n : CReg) (v : Word) : (s.setCR n v).draws = s.draws := rfl

/-! ### setPc -/

@[simp] theorem setPc_gr (s : State) (t : Word) : (s.setPc t).gr = s.gr := rfl
@[simp] theorem setPc_sr (s : State) (t : Word) : (s.setPc t).sr = s.sr := rfl
@[simp] theorem setPc_cr (s : State) (t : Word) : (s.setPc t).cr = s.cr := rfl
@[simp] theorem setPc_iaSeg (s : State) (t : Word) : (s.setPc t).iaSeg = s.iaSeg := rfl
@[simp] theorem setPc_iaOfs (s : State) (t : Word) : (s.setPc t).iaOfs = dropLow2 t := rfl
@[simp] theorem setPc_st (s : State) (t : Word) : (s.setPc t).st = s.st := rfl
@[simp] theorem setPc_mem (s : State) (t : Word) : (s.setPc t).mem = s.mem := rfl
@[simp] theorem setPc_itlb (s : State) (t : Word) : (s.setPc t).itlb = s.itlb := rfl
@[simp] theorem setPc_dtlb (s : State) (t : Word) : (s.setPc t).dtlb = s.dtlb := rfl
@[simp] theorem setPc_resv (s : State) (t : Word) : (s.setPc t).resv = s.resv := rfl
@[simp] theorem setPc_needsFlush (s : State) (t : Word) : (s.setPc t).needsFlush = s.needsFlush := rfl
@[simp] theorem setPc_needsPurge (s : State) (t : Word) : (s.setPc t).needsPurge = s.needsPurge := rfl
@[simp] theorem setPc_extIrq (s : State) (t : Word) : (s.setPc t).extIrq = s.extIrq := rfl
@[simp] theorem setPc_machineCheck (s : State) (t : Word) : (s.setPc t).machineCheck = s.machineCheck := rfl
@[simp] theorem setPc_powerFailure (s : State) (t : Word) : (s.setPc t).powerFailure = s.powerFailure := rfl
@[simp] theorem setPc_ir (s : State) (t : Word) : (s.setPc t).ir = s.ir := rfl
@[simp] theorem setPc_envTrace (s : State) (t : Word) : (s.setPc t).envTrace = s.envTrace := rfl
@[simp] theorem setPc_draws (s : State) (t : Word) : (s.setPc t).draws = s.draws := rfl

/-! ### retire -/

@[simp] theorem retire_gr (s : State) : s.retire.gr = s.gr := rfl
@[simp] theorem retire_sr (s : State) : s.retire.sr = s.sr := rfl
@[simp] theorem retire_cr (s : State) : s.retire.cr = s.cr := rfl
@[simp] theorem retire_iaSeg (s : State) : s.retire.iaSeg = s.iaSeg := rfl
@[simp] theorem retire_iaOfs (s : State) : s.retire.iaOfs = s.iaOfs + 4#32 := rfl
@[simp] theorem retire_st (s : State) : s.retire.st = s.st := rfl
@[simp] theorem retire_mem (s : State) : s.retire.mem = s.mem := rfl
@[simp] theorem retire_itlb (s : State) : s.retire.itlb = s.itlb := rfl
@[simp] theorem retire_dtlb (s : State) : s.retire.dtlb = s.dtlb := rfl
@[simp] theorem retire_resv (s : State) : s.retire.resv = s.resv := rfl
@[simp] theorem retire_needsFlush (s : State) : s.retire.needsFlush = s.needsFlush := rfl
@[simp] theorem retire_needsPurge (s : State) : s.retire.needsPurge = s.needsPurge := rfl
@[simp] theorem retire_extIrq (s : State) : s.retire.extIrq = s.extIrq := rfl
@[simp] theorem retire_machineCheck (s : State) : s.retire.machineCheck = s.machineCheck := rfl
@[simp] theorem retire_powerFailure (s : State) : s.retire.powerFailure = s.powerFailure := rfl
@[simp] theorem retire_ir (s : State) : s.retire.ir = s.ir := rfl
@[simp] theorem retire_envTrace (s : State) : s.retire.envTrace = s.envTrace := rfl
@[simp] theorem retire_draws (s : State) : s.retire.draws = s.draws := rfl

/-! ### markStale -/

@[simp] theorem markStale_gr (s : State) (pa : Word) : (s.markStale pa).gr = s.gr := rfl
@[simp] theorem markStale_sr (s : State) (pa : Word) : (s.markStale pa).sr = s.sr := rfl
@[simp] theorem markStale_cr (s : State) (pa : Word) : (s.markStale pa).cr = s.cr := rfl
@[simp] theorem markStale_iaSeg (s : State) (pa : Word) : (s.markStale pa).iaSeg = s.iaSeg := rfl
@[simp] theorem markStale_iaOfs (s : State) (pa : Word) : (s.markStale pa).iaOfs = s.iaOfs := rfl
@[simp] theorem markStale_st (s : State) (pa : Word) : (s.markStale pa).st = s.st := rfl
@[simp] theorem markStale_mem (s : State) (pa : Word) : (s.markStale pa).mem = s.mem := rfl
@[simp] theorem markStale_itlb (s : State) (pa : Word) : (s.markStale pa).itlb = s.itlb := rfl
@[simp] theorem markStale_dtlb (s : State) (pa : Word) : (s.markStale pa).dtlb = s.dtlb := rfl
@[simp] theorem markStale_resv (s : State) (pa : Word) : (s.markStale pa).resv = s.resv := rfl
@[simp] theorem markStale_needsFlush (s : State) (pa : Word) : (s.markStale pa).needsFlush = addAddr s.needsFlush (wordOf pa).toNat := rfl
@[simp] theorem markStale_needsPurge (s : State) (pa : Word) : (s.markStale pa).needsPurge = addAddr s.needsPurge (wordOf pa).toNat := rfl
@[simp] theorem markStale_extIrq (s : State) (pa : Word) : (s.markStale pa).extIrq = s.extIrq := rfl
@[simp] theorem markStale_machineCheck (s : State) (pa : Word) : (s.markStale pa).machineCheck = s.machineCheck := rfl
@[simp] theorem markStale_powerFailure (s : State) (pa : Word) : (s.markStale pa).powerFailure = s.powerFailure := rfl
@[simp] theorem markStale_ir (s : State) (pa : Word) : (s.markStale pa).ir = s.ir := rfl
@[simp] theorem markStale_envTrace (s : State) (pa : Word) : (s.markStale pa).envTrace = s.envTrace := rfl
@[simp] theorem markStale_draws (s : State) (pa : Word) : (s.markStale pa).draws = s.draws := rfl

/-! ### breakReservation -/

@[simp] theorem breakReservation_gr (s : State) (pa : Word) : (s.breakReservation pa).gr = s.gr := rfl
@[simp] theorem breakReservation_sr (s : State) (pa : Word) : (s.breakReservation pa).sr = s.sr := rfl
@[simp] theorem breakReservation_cr (s : State) (pa : Word) : (s.breakReservation pa).cr = s.cr := rfl
@[simp] theorem breakReservation_iaSeg (s : State) (pa : Word) : (s.breakReservation pa).iaSeg = s.iaSeg := rfl
@[simp] theorem breakReservation_iaOfs (s : State) (pa : Word) : (s.breakReservation pa).iaOfs = s.iaOfs := rfl
@[simp] theorem breakReservation_st (s : State) (pa : Word) : (s.breakReservation pa).st = s.st := rfl
@[simp] theorem breakReservation_mem (s : State) (pa : Word) : (s.breakReservation pa).mem = s.mem := rfl
@[simp] theorem breakReservation_itlb (s : State) (pa : Word) : (s.breakReservation pa).itlb = s.itlb := rfl
@[simp] theorem breakReservation_dtlb (s : State) (pa : Word) : (s.breakReservation pa).dtlb = s.dtlb := rfl
@[simp] theorem breakReservation_resv (s : State) (pa : Word) : (s.breakReservation pa).resv = if s.resv = some (wordOf pa) then none else s.resv := rfl
@[simp] theorem breakReservation_needsFlush (s : State) (pa : Word) : (s.breakReservation pa).needsFlush = s.needsFlush := rfl
@[simp] theorem breakReservation_needsPurge (s : State) (pa : Word) : (s.breakReservation pa).needsPurge = s.needsPurge := rfl
@[simp] theorem breakReservation_extIrq (s : State) (pa : Word) : (s.breakReservation pa).extIrq = s.extIrq := rfl
@[simp] theorem breakReservation_machineCheck (s : State) (pa : Word) : (s.breakReservation pa).machineCheck = s.machineCheck := rfl
@[simp] theorem breakReservation_powerFailure (s : State) (pa : Word) : (s.breakReservation pa).powerFailure = s.powerFailure := rfl
@[simp] theorem breakReservation_ir (s : State) (pa : Word) : (s.breakReservation pa).ir = s.ir := rfl
@[simp] theorem breakReservation_envTrace (s : State) (pa : Word) : (s.breakReservation pa).envTrace = s.envTrace := rfl
@[simp] theorem breakReservation_draws (s : State) (pa : Word) : (s.breakReservation pa).draws = s.draws := rfl

/-! ### trapEntry -/

@[simp] theorem trapEntry_gr (t : Trap) (s : State) : (trapEntry t s).gr = s.gr := rfl
@[simp] theorem trapEntry_sr (t : Trap) (s : State) : (trapEntry t s).sr = s.sr := rfl
@[simp] theorem trapEntry_iaSeg (t : Trap) (s : State) : (trapEntry t s).iaSeg = 0#32 := rfl
@[simp] theorem trapEntry_iaOfs (t : Trap) (s : State) : (trapEntry t s).iaOfs = handlerAddress (s.getCR 16#5) (trapNumber t.cause) := rfl
@[simp] theorem trapEntry_st (t : Trap) (s : State) : (trapEntry t s).st = Status.zero := rfl
@[simp] theorem trapEntry_mem (t : Trap) (s : State) : (trapEntry t s).mem = s.mem := rfl
@[simp] theorem trapEntry_itlb (t : Trap) (s : State) : (trapEntry t s).itlb = s.itlb := rfl
@[simp] theorem trapEntry_dtlb (t : Trap) (s : State) : (trapEntry t s).dtlb = s.dtlb := rfl
@[simp] theorem trapEntry_resv (t : Trap) (s : State) : (trapEntry t s).resv = none := rfl
@[simp] theorem trapEntry_needsFlush (t : Trap) (s : State) : (trapEntry t s).needsFlush = s.needsFlush := rfl
@[simp] theorem trapEntry_needsPurge (t : Trap) (s : State) : (trapEntry t s).needsPurge = s.needsPurge := rfl
@[simp] theorem trapEntry_extIrq (t : Trap) (s : State) : (trapEntry t s).extIrq = s.extIrq := rfl
@[simp] theorem trapEntry_machineCheck (t : Trap) (s : State) : (trapEntry t s).machineCheck = s.machineCheck := rfl
@[simp] theorem trapEntry_powerFailure (t : Trap) (s : State) : (trapEntry t s).powerFailure = s.powerFailure := rfl
@[simp] theorem trapEntry_ir (t : Trap) (s : State) : (trapEntry t s).ir = s.ir := rfl
@[simp] theorem trapEntry_envTrace (t : Trap) (s : State) : (trapEntry t s).envTrace = s.envTrace := rfl
@[simp] theorem trapEntry_draws (t : Trap) (s : State) : (trapEntry t s).draws = s.draws + 3 := rfl

/-! ### trapReturn -/

@[simp] theorem trapReturn_gr (s : State) : (trapReturn s).gr = s.gr := rfl
@[simp] theorem trapReturn_sr (s : State) : (trapReturn s).sr = s.sr := rfl
@[simp] theorem trapReturn_cr (s : State) : (trapReturn s).cr = s.cr := rfl
@[simp] theorem trapReturn_iaSeg (s : State) : (trapReturn s).iaSeg = s.getCR 18#5 := rfl
@[simp] theorem trapReturn_iaOfs (s : State) : (trapReturn s).iaOfs = dropLow2 (s.getCR 19#5) := rfl
@[simp] theorem trapReturn_st (s : State) : (trapReturn s).st = statusOfWord (s.getCR 17#5) := rfl
@[simp] theorem trapReturn_mem (s : State) : (trapReturn s).mem = s.mem := rfl
@[simp] theorem trapReturn_itlb (s : State) : (trapReturn s).itlb = s.itlb := rfl
@[simp] theorem trapReturn_dtlb (s : State) : (trapReturn s).dtlb = s.dtlb := rfl
@[simp] theorem trapReturn_resv (s : State) : (trapReturn s).resv = none := rfl
@[simp] theorem trapReturn_needsFlush (s : State) : (trapReturn s).needsFlush = s.needsFlush := rfl
@[simp] theorem trapReturn_needsPurge (s : State) : (trapReturn s).needsPurge = s.needsPurge := rfl
@[simp] theorem trapReturn_extIrq (s : State) : (trapReturn s).extIrq = s.extIrq := rfl
@[simp] theorem trapReturn_machineCheck (s : State) : (trapReturn s).machineCheck = s.machineCheck := rfl
@[simp] theorem trapReturn_powerFailure (s : State) : (trapReturn s).powerFailure = s.powerFailure := rfl
@[simp] theorem trapReturn_ir (s : State) : (trapReturn s).ir = s.ir := rfl
@[simp] theorem trapReturn_envTrace (s : State) : (trapReturn s).envTrace = s.envTrace := rfl
@[simp] theorem trapReturn_draws (s : State) : (trapReturn s).draws = s.draws := rfl

/-! ### setCarry -/

@[simp] theorem setCarry_gr (l cb : Bool) (s : State) : (setCarry l cb s).gr = s.gr := by cases l <;> rfl
@[simp] theorem setCarry_sr (l cb : Bool) (s : State) : (setCarry l cb s).sr = s.sr := by cases l <;> rfl
@[simp] theorem setCarry_cr (l cb : Bool) (s : State) : (setCarry l cb s).cr = s.cr := by cases l <;> rfl
@[simp] theorem setCarry_iaSeg (l cb : Bool) (s : State) : (setCarry l cb s).iaSeg = s.iaSeg := by cases l <;> rfl
@[simp] theorem setCarry_iaOfs (l cb : Bool) (s : State) : (setCarry l cb s).iaOfs = s.iaOfs := by cases l <;> rfl
@[simp] theorem setCarry_st (l cb : Bool) (s : State) : (setCarry l cb s).st = { s.st with cb := if l then s.st.cb else cb } := by cases l <;> rfl
@[simp] theorem setCarry_mem (l cb : Bool) (s : State) : (setCarry l cb s).mem = s.mem := by cases l <;> rfl
@[simp] theorem setCarry_itlb (l cb : Bool) (s : State) : (setCarry l cb s).itlb = s.itlb := by cases l <;> rfl
@[simp] theorem setCarry_dtlb (l cb : Bool) (s : State) : (setCarry l cb s).dtlb = s.dtlb := by cases l <;> rfl
@[simp] theorem setCarry_resv (l cb : Bool) (s : State) : (setCarry l cb s).resv = s.resv := by cases l <;> rfl
@[simp] theorem setCarry_needsFlush (l cb : Bool) (s : State) : (setCarry l cb s).needsFlush = s.needsFlush := by cases l <;> rfl
@[simp] theorem setCarry_needsPurge (l cb : Bool) (s : State) : (setCarry l cb s).needsPurge = s.needsPurge := by cases l <;> rfl
@[simp] theorem setCarry_extIrq (l cb : Bool) (s : State) : (setCarry l cb s).extIrq = s.extIrq := by cases l <;> rfl
@[simp] theorem setCarry_machineCheck (l cb : Bool) (s : State) : (setCarry l cb s).machineCheck = s.machineCheck := by cases l <;> rfl
@[simp] theorem setCarry_powerFailure (l cb : Bool) (s : State) : (setCarry l cb s).powerFailure = s.powerFailure := by cases l <;> rfl
@[simp] theorem setCarry_ir (l cb : Bool) (s : State) : (setCarry l cb s).ir = s.ir := by cases l <;> rfl
@[simp] theorem setCarry_envTrace (l cb : Bool) (s : State) : (setCarry l cb s).envTrace = s.envTrace := by cases l <;> rfl
@[simp] theorem setCarry_draws (l cb : Bool) (s : State) : (setCarry l cb s).draws = s.draws := by cases l <;> rfl

/-! ### demote -/

@[simp] theorem demote_gr (e : TlbEntry) (s : State) : (demote e s).gr = s.gr := rfl
@[simp] theorem demote_sr (e : TlbEntry) (s : State) : (demote e s).sr = s.sr := rfl
@[simp] theorem demote_cr (e : TlbEntry) (s : State) : (demote e s).cr = s.cr := rfl
@[simp] theorem demote_iaSeg (e : TlbEntry) (s : State) : (demote e s).iaSeg = s.iaSeg := rfl
@[simp] theorem demote_iaOfs (e : TlbEntry) (s : State) : (demote e s).iaOfs = s.iaOfs := rfl
@[simp] theorem demote_st (e : TlbEntry) (s : State) : (demote e s).st = { s.st with x := s.st.x || e.prot.pl2 } := rfl
@[simp] theorem demote_mem (e : TlbEntry) (s : State) : (demote e s).mem = s.mem := rfl
@[simp] theorem demote_itlb (e : TlbEntry) (s : State) : (demote e s).itlb = s.itlb := rfl
@[simp] theorem demote_dtlb (e : TlbEntry) (s : State) : (demote e s).dtlb = s.dtlb := rfl
@[simp] theorem demote_resv (e : TlbEntry) (s : State) : (demote e s).resv = s.resv := rfl
@[simp] theorem demote_needsFlush (e : TlbEntry) (s : State) : (demote e s).needsFlush = s.needsFlush := rfl
@[simp] theorem demote_needsPurge (e : TlbEntry) (s : State) : (demote e s).needsPurge = s.needsPurge := rfl
@[simp] theorem demote_extIrq (e : TlbEntry) (s : State) : (demote e s).extIrq = s.extIrq := rfl
@[simp] theorem demote_machineCheck (e : TlbEntry) (s : State) : (demote e s).machineCheck = s.machineCheck := rfl
@[simp] theorem demote_powerFailure (e : TlbEntry) (s : State) : (demote e s).powerFailure = s.powerFailure := rfl
@[simp] theorem demote_ir (e : TlbEntry) (s : State) : (demote e s).ir = s.ir := rfl
@[simp] theorem demote_envTrace (e : TlbEntry) (s : State) : (demote e s).envTrace = s.envTrace := rfl
@[simp] theorem demote_draws (e : TlbEntry) (s : State) : (demote e s).draws = s.draws := rfl

/-! ### withTlb -/

@[simp] theorem withTlb_gr (s : State) (t : Bool) (m : Tlb) : (s.withTlb t m).gr = s.gr := by cases t <;> rfl
@[simp] theorem withTlb_sr (s : State) (t : Bool) (m : Tlb) : (s.withTlb t m).sr = s.sr := by cases t <;> rfl
@[simp] theorem withTlb_cr (s : State) (t : Bool) (m : Tlb) : (s.withTlb t m).cr = s.cr := by cases t <;> rfl
@[simp] theorem withTlb_iaSeg (s : State) (t : Bool) (m : Tlb) : (s.withTlb t m).iaSeg = s.iaSeg := by cases t <;> rfl
@[simp] theorem withTlb_iaOfs (s : State) (t : Bool) (m : Tlb) : (s.withTlb t m).iaOfs = s.iaOfs := by cases t <;> rfl
@[simp] theorem withTlb_st (s : State) (t : Bool) (m : Tlb) : (s.withTlb t m).st = s.st := by cases t <;> rfl
@[simp] theorem withTlb_mem (s : State) (t : Bool) (m : Tlb) : (s.withTlb t m).mem = s.mem := by cases t <;> rfl
@[simp] theorem withTlb_itlb (s : State) (t : Bool) (m : Tlb) : (s.withTlb t m).itlb = if t then s.itlb else m := by cases t <;> rfl
@[simp] theorem withTlb_dtlb (s : State) (t : Bool) (m : Tlb) : (s.withTlb t m).dtlb = if t then m else s.dtlb := by cases t <;> rfl
@[simp] theorem withTlb_resv (s : State) (t : Bool) (m : Tlb) : (s.withTlb t m).resv = s.resv := by cases t <;> rfl
@[simp] theorem withTlb_needsFlush (s : State) (t : Bool) (m : Tlb) : (s.withTlb t m).needsFlush = s.needsFlush := by cases t <;> rfl
@[simp] theorem withTlb_needsPurge (s : State) (t : Bool) (m : Tlb) : (s.withTlb t m).needsPurge = s.needsPurge := by cases t <;> rfl
@[simp] theorem withTlb_extIrq (s : State) (t : Bool) (m : Tlb) : (s.withTlb t m).extIrq = s.extIrq := by cases t <;> rfl
@[simp] theorem withTlb_machineCheck (s : State) (t : Bool) (m : Tlb) : (s.withTlb t m).machineCheck = s.machineCheck := by cases t <;> rfl
@[simp] theorem withTlb_powerFailure (s : State) (t : Bool) (m : Tlb) : (s.withTlb t m).powerFailure = s.powerFailure := by cases t <;> rfl
@[simp] theorem withTlb_ir (s : State) (t : Bool) (m : Tlb) : (s.withTlb t m).ir = s.ir := by cases t <;> rfl
@[simp] theorem withTlb_envTrace (s : State) (t : Bool) (m : Tlb) : (s.withTlb t m).envTrace = s.envTrace := by cases t <;> rfl
@[simp] theorem withTlb_draws (s : State) (t : Bool) (m : Tlb) : (s.withTlb t m).draws = s.draws := by cases t <;> rfl

/-! ### placeWord -/

@[simp] theorem placeWord_gr (pa w : Word) (s : State) : (placeWord pa w s).gr = s.gr := rfl
@[simp] theorem placeWord_sr (pa w : Word) (s : State) : (placeWord pa w s).sr = s.sr := rfl
@[simp] theorem placeWord_cr (pa w : Word) (s : State) : (placeWord pa w s).cr = s.cr := rfl
@[simp] theorem placeWord_iaSeg (pa w : Word) (s : State) : (placeWord pa w s).iaSeg = s.iaSeg := rfl
@[simp] theorem placeWord_iaOfs (pa w : Word) (s : State) : (placeWord pa w s).iaOfs = s.iaOfs := rfl
@[simp] theorem placeWord_st (pa w : Word) (s : State) : (placeWord pa w s).st = s.st := rfl
@[simp] theorem placeWord_mem (pa w : Word) (s : State) : (placeWord pa w s).mem = s.mem.write pa.toNat .word w := rfl
@[simp] theorem placeWord_itlb (pa w : Word) (s : State) : (placeWord pa w s).itlb = s.itlb := rfl
@[simp] theorem placeWord_dtlb (pa w : Word) (s : State) : (placeWord pa w s).dtlb = s.dtlb := rfl
@[simp] theorem placeWord_resv (pa w : Word) (s : State) : (placeWord pa w s).resv = s.resv := rfl
@[simp] theorem placeWord_needsFlush (pa w : Word) (s : State) : (placeWord pa w s).needsFlush = s.needsFlush.filter (fun a => decide (a ≠ (wordOf pa).toNat)) := rfl
@[simp] theorem placeWord_needsPurge (pa w : Word) (s : State) : (placeWord pa w s).needsPurge = s.needsPurge.filter (fun a => decide (a ≠ (wordOf pa).toNat)) := rfl
@[simp] theorem placeWord_extIrq (pa w : Word) (s : State) : (placeWord pa w s).extIrq = s.extIrq := rfl
@[simp] theorem placeWord_machineCheck (pa w : Word) (s : State) : (placeWord pa w s).machineCheck = s.machineCheck := rfl
@[simp] theorem placeWord_powerFailure (pa w : Word) (s : State) : (placeWord pa w s).powerFailure = s.powerFailure := rfl
@[simp] theorem placeWord_ir (pa w : Word) (s : State) : (placeWord pa w s).ir = s.ir := rfl
@[simp] theorem placeWord_envTrace (pa w : Word) (s : State) : (placeWord pa w s).envTrace = s.envTrace := rfl
@[simp] theorem placeWord_draws (pa w : Word) (s : State) : (placeWord pa w s).draws = s.draws := rfl

/-! ### Register reads after register writes -/

@[simp] theorem getGR_setGR (s : State) (r q : GReg) (v : Word) :
    (s.setGR r v).getGR q = if q = r then v else s.getGR q := by
  simp only [State.getGR, State.setGR, Vector.getElem_set, BitVec.toNat_inj, eq_comm]

@[simp] theorem getSR_setSR (s : State) (n q : SReg) (v : Word) :
    (s.setSR n v).getSR q = if q = n then v else s.getSR q := by
  simp only [State.getSR, State.setSR, Vector.getElem_set, BitVec.toNat_inj, eq_comm]

@[simp] theorem getCR_setCR (s : State) (n q : CReg) (v : Word) :
    (s.setCR n v).getCR q = if q = n then v else s.getCR q := by
  simp only [State.getCR, State.setCR, Vector.getElem_set, BitVec.toNat_inj, eq_comm]

/-- A register file read depends on its file only. -/
theorem getGR_congr {s t : State} (h : t.gr = s.gr) (q : GReg) : t.getGR q = s.getGR q := by
  simp only [State.getGR, h]

theorem getSR_congr {s t : State} (h : t.sr = s.sr) (q : SReg) : t.getSR q = s.getSR q := by
  simp only [State.getSR, h]

theorem getCR_congr {s t : State} (h : t.cr = s.cr) (q : CReg) : t.getCR q = s.getCR q := by
  simp only [State.getCR, h]

@[simp] theorem getSR_setGR (s : State) (r : GReg) (v : Word) (q : SReg) : (s.setGR r v).getSR q = s.getSR q := rfl
@[simp] theorem getCR_setGR (s : State) (r : GReg) (v : Word) (q : CReg) : (s.setGR r v).getCR q = s.getCR q := rfl
@[simp] theorem getGR_setSR (s : State) (n : SReg) (v : Word) (q : GReg) : (s.setSR n v).getGR q = s.getGR q := rfl
@[simp] theorem getCR_setSR (s : State) (n : SReg) (v : Word) (q : CReg) : (s.setSR n v).getCR q = s.getCR q := rfl
@[simp] theorem getGR_setCR (s : State) (n : CReg) (v : Word) (q : GReg) : (s.setCR n v).getGR q = s.getGR q := rfl
@[simp] theorem getSR_setCR (s : State) (n : CReg) (v : Word) (q : SReg) : (s.setCR n v).getSR q = s.getSR q := rfl
@[simp] theorem getGR_setPc (s : State) (t : Word) (q : GReg) : (s.setPc t).getGR q = s.getGR q := rfl
@[simp] theorem getSR_setPc (s : State) (t : Word) (q : SReg) : (s.setPc t).getSR q = s.getSR q := rfl
@[simp] theorem getCR_setPc (s : State) (t : Word) (q : CReg) : (s.setPc t).getCR q = s.getCR q := rfl
@[simp] theorem getGR_retire (s : State) (q : GReg) : s.retire.getGR q = s.getGR q := rfl
@[simp] theorem getSR_retire (s : State) (q : SReg) : s.retire.getSR q = s.getSR q := rfl
@[simp] theorem getCR_retire (s : State) (q : CReg) : s.retire.getCR q = s.getCR q := rfl
@[simp] theorem getGR_markStale (s : State) (pa : Word) (q : GReg) : (s.markStale pa).getGR q = s.getGR q := rfl
@[simp] theorem getSR_markStale (s : State) (pa : Word) (q : SReg) : (s.markStale pa).getSR q = s.getSR q := rfl
@[simp] theorem getCR_markStale (s : State) (pa : Word) (q : CReg) : (s.markStale pa).getCR q = s.getCR q := rfl
@[simp] theorem getGR_breakReservation (s : State) (pa : Word) (q : GReg) : (s.breakReservation pa).getGR q = s.getGR q := rfl
@[simp] theorem getSR_breakReservation (s : State) (pa : Word) (q : SReg) : (s.breakReservation pa).getSR q = s.getSR q := rfl
@[simp] theorem getCR_breakReservation (s : State) (pa : Word) (q : CReg) : (s.breakReservation pa).getCR q = s.getCR q := rfl
@[simp] theorem getGR_trapEntry (t : Trap) (s : State) (q : GReg) : (trapEntry t s).getGR q = s.getGR q := rfl
@[simp] theorem getSR_trapEntry (t : Trap) (s : State) (q : SReg) : (trapEntry t s).getSR q = s.getSR q := rfl
@[simp] theorem getGR_trapReturn (s : State) (q : GReg) : (trapReturn s).getGR q = s.getGR q := rfl
@[simp] theorem getSR_trapReturn (s : State) (q : SReg) : (trapReturn s).getSR q = s.getSR q := rfl
@[simp] theorem getCR_trapReturn (s : State) (q : CReg) : (trapReturn s).getCR q = s.getCR q := rfl
@[simp] theorem getGR_setCarry (l cb : Bool) (s : State) (q : GReg) : (setCarry l cb s).getGR q = s.getGR q := getGR_congr (setCarry_gr _ _ _) q
@[simp] theorem getSR_setCarry (l cb : Bool) (s : State) (q : SReg) : (setCarry l cb s).getSR q = s.getSR q := getSR_congr (setCarry_sr _ _ _) q
@[simp] theorem getCR_setCarry (l cb : Bool) (s : State) (q : CReg) : (setCarry l cb s).getCR q = s.getCR q := getCR_congr (setCarry_cr _ _ _) q
@[simp] theorem getGR_demote (e : TlbEntry) (s : State) (q : GReg) : (demote e s).getGR q = s.getGR q := rfl
@[simp] theorem getSR_demote (e : TlbEntry) (s : State) (q : SReg) : (demote e s).getSR q = s.getSR q := rfl
@[simp] theorem getCR_demote (e : TlbEntry) (s : State) (q : CReg) : (demote e s).getCR q = s.getCR q := rfl
@[simp] theorem getGR_withTlb (s : State) (t : Bool) (m : Tlb) (q : GReg) : (s.withTlb t m).getGR q = s.getGR q := getGR_congr (withTlb_gr _ _ _) q
@[simp] theorem getSR_withTlb (s : State) (t : Bool) (m : Tlb) (q : SReg) : (s.withTlb t m).getSR q = s.getSR q := getSR_congr (withTlb_sr _ _ _) q
@[simp] theorem getCR_withTlb (s : State) (t : Bool) (m : Tlb) (q : CReg) : (s.withTlb t m).getCR q = s.getCR q := getCR_congr (withTlb_cr _ _ _) q
@[simp] theorem getGR_placeWord (pa w : Word) (s : State) (q : GReg) : (placeWord pa w s).getGR q = s.getGR q := rfl
@[simp] theorem getSR_placeWord (pa w : Word) (s : State) (q : SReg) : (placeWord pa w s).getSR q = s.getSR q := rfl
@[simp] theorem getCR_placeWord (pa w : Word) (s : State) (q : CReg) : (placeWord pa w s).getCR q = s.getCR q := rfl

/-! ### The control registers after a trap entry (60_exceptions.md R341) -/

@[simp] theorem getCR_trapEntry_17 (t : Trap) (s : State) : (trapEntry t s).getCR 17#5 = statusWord s.st := by
  simp [State.getCR, trapEntry]

@[simp] theorem getCR_trapEntry_18 (t : Trap) (s : State) : (trapEntry t s).getCR 18#5 = s.iaSeg := by
  simp [State.getCR, trapEntry]

@[simp] theorem getCR_trapEntry_19 (t : Trap) (s : State) : (trapEntry t s).getCR 19#5 = s.iaOfs := by
  simp [State.getCR, trapEntry]

@[simp] theorem getCR_trapEntry_20 (t : Trap) (s : State) :
    (trapEntry t s).getCR 20#5 = t.p0.getD (Config.noParameter s.draws) := by
  simp [State.getCR, trapEntry]

@[simp] theorem getCR_trapEntry_21 (t : Trap) (s : State) :
    (trapEntry t s).getCR 21#5 = t.p1.getD (Config.noParameter (s.draws + 1)) := by
  simp [State.getCR, trapEntry]

@[simp] theorem getCR_trapEntry_22 (t : Trap) (s : State) :
    (trapEntry t s).getCR 22#5 = t.p2.getD (Config.noParameter (s.draws + 2)) := by
  simp [State.getCR, trapEntry]

/-- Every control register but CR17 to CR22 is unchanged by a trap entry. -/
theorem getCR_trapEntry_other (t : Trap) (s : State) (q : CReg) (h : ¬(17 ≤ q.toNat ∧ q.toNat ≤ 22)) :
    (trapEntry t s).getCR q = s.getCR q := by
  simp only [State.getCR, trapEntry, Vector.getElem_set]
  repeat' rw [if_neg (by omega)]

/-! ### Status words (10_state.md R35) -/

/-- The status word determines the status and back: the ten bits survive the round trip. -/
theorem statusOfWord_statusWord (st : Status) : statusOfWord (statusWord st) = st := by
  rcases st with ⟨_ | _, _ | _, _ | _, _ | _, _ | _, _ | _, _ | _, _ | _, _ | _, _ | _⟩ <;> decide

/-! ### The split TLBs (10_state.md R51) -/

@[simp] theorem tlbOf_true (s : State) : s.tlbOf true = s.dtlb := rfl

@[simp] theorem tlbOf_false (s : State) : s.tlbOf false = s.itlb := rfl

@[simp] theorem dataTlb_eq (s : State) : s.dataTlb = s.dtlb := rfl

@[simp] theorem instrTlb_eq (s : State) : s.instrTlb = s.itlb := rfl

@[simp] theorem tlbOf_withTlb_same (s : State) (t : Bool) (m : Tlb) : (s.withTlb t m).tlbOf t = m := by
  cases t <;> rfl

@[simp] theorem tlbOf_withTlb_not (s : State) (t : Bool) (m : Tlb) : (s.withTlb t m).tlbOf (!t) = s.tlbOf (!t) := by
  cases t <;> rfl

end Sys2Proof.Laws
end

