-- ==== Sys2Proof/Laws/Memory.lean ====
section
/-! SUPPORT. Memory: a read after a write, and the canonical form kept by every operation. The same for the flag lists
and the TLBs. -/

namespace Sys2Proof.Laws

open Sys2Proof Sys2Proof.Machine

/-! ### Reads after writes -/

theorem find_put (m : Memory) (a b : Nat) (v : Byte) :
    Memory.find (Memory.put m a v) b = if b = a then some v else Memory.find m b := by
  induction m with
  | nil => simp only [Memory.put, Memory.find, eq_comm]
  | cons c t ih =>
    obtain ⟨k, x⟩ := c
    simp only [Memory.put]
    split
    · simp only [Memory.find, eq_comm]
    · split
      · subst k
        simp only [Memory.find, eq_comm]
        split <;> rfl
      · simp only [Memory.find, ih]
        split_ifs <;> first | rfl | omega

/-- A byte read after a byte write. -/
@[simp] theorem byte_put (m : Memory) (a b : Nat) (v : Byte) :
    Memory.byte (Memory.put m a v) b = if b = a then v else Memory.byte m b := by
  simp only [Memory.byte, find_put]
  split <;> rfl

/-- Every byte outside the stored ones reads as before (20_memory.md R72). -/
theorem byte_write_outside (m : Memory) (a b : Nat) (w : Width) (v : Word) (h : b < a ∨ a + widthBytes w ≤ b) :
    Memory.byte (Memory.write m a w v) b = Memory.byte m b := by
  cases w <;> simp only [Memory.write, byte_put, widthBytes] at * <;> repeat rw [if_neg (by omega)]

/-- Concatenation as arithmetic. -/
theorem toNat_append_eq {n m : Nat} (x : BitVec n) (y : BitVec m) :
    (x ++ y).toNat = x.toNat * 2 ^ m + y.toNat := by
  rw [BitVec.toNat_append, ← Nat.shiftLeft_add_eq_or_of_lt y.isLt, Nat.shiftLeft_eq]

/-- A byte of a word as arithmetic. -/
theorem toNat_byte (v : Word) (k : Nat) : (v.extractLsb' k 8).toNat = v.toNat / 2 ^ k % 256 := by
  rw [BitVec.extractLsb'_toNat, Nat.shiftRight_eq_div_pow]

theorem lowBytes_half (v : Word) : (lowBytes .half v).toNat = v.toNat % 65536 :=
  (BitVec.toNat_and _ _).trans (Nat.and_two_pow_sub_one_eq_mod v.toNat 16)

theorem lowBytes_byte (v : Word) : (lowBytes .byte v).toNat = v.toNat % 256 :=
  (BitVec.toNat_and _ _).trans (Nat.and_two_pow_sub_one_eq_mod v.toNat 8)

/-- What a store of width `w` stores, a load of the same width at the same address reads, zero-extended (R72). -/
theorem read_write_same (m : Memory) (a : Nat) (w : Width) (v : Word) :
    Memory.read (Memory.write m a w v) a w = lowBytes w v := by
  have hv := v.isLt
  have hb := toNat_byte v
  apply BitVec.eq_of_toNat_eq
  cases w
  · have e : Memory.read (Memory.write m a .word v) a .word =
        v.extractLsb' 24 8 ++ v.extractLsb' 16 8 ++ v.extractLsb' 8 8 ++ v.extractLsb' 0 8 := by
      simp [Memory.read, Memory.write]
    rw [e, lowBytes, toNat_append_eq, toNat_append_eq, toNat_append_eq, hb, hb, hb, hb]
    omega
  · have e : Memory.read (Memory.write m a .half v) a .half = (v.extractLsb' 8 8 ++ v.extractLsb' 0 8).setWidth 32 := by
      simp [Memory.read, Memory.write]
    rw [e, lowBytes_half, BitVec.toNat_setWidth, toNat_append_eq, hb, hb]
    omega
  · have e : Memory.read (Memory.write m a .byte v) a .byte = (v.extractLsb' 0 8).setWidth 32 := by
      simp [Memory.read, Memory.write]
    rw [e, lowBytes_byte, BitVec.toNat_setWidth, hb]
    omega

/-! ### The canonical form -/

theorem risingFrom_mono {lo hi : Nat} (m : Memory) (h : lo ≤ hi) (hm : risingFrom hi m = true) :
    risingFrom lo m = true := by
  cases m with
  | nil => rfl
  | cons c t =>
    obtain ⟨k, x⟩ := c
    simp only [risingFrom, Bool.and_eq_true, decide_eq_true_eq] at *
    exact ⟨le_trans h hm.1, hm.2⟩

theorem risingFrom_put {lo : Nat} (m : Memory) (a : Nat) (v : Byte) (ha : lo ≤ a) (hm : risingFrom lo m = true) :
    risingFrom lo (Memory.put m a v) = true := by
  induction m generalizing lo with
  | nil => simp [Memory.put, risingFrom, ha]
  | cons c t ih =>
    obtain ⟨k, x⟩ := c
    simp only [Memory.put]
    simp only [risingFrom, Bool.and_eq_true, decide_eq_true_eq] at hm
    split
    · simp only [risingFrom, Bool.and_eq_true, decide_eq_true_eq]
      exact ⟨ha, by omega, hm.2⟩
    · split
      · simp only [risingFrom, Bool.and_eq_true, decide_eq_true_eq]
        subst k
        exact ⟨ha, hm.2⟩
      · simp only [risingFrom, Bool.and_eq_true, decide_eq_true_eq]
        exact ⟨hm.1, ih (by omega) hm.2⟩

theorem all_put (m : Memory) (a : Nat) (v : Byte) (p : Nat → Bool) (ha : p a = true)
    (hm : m.all (fun c => p c.1) = true) : (Memory.put m a v).all (fun c => p c.1) = true := by
  induction m with
  | nil => simp [Memory.put, ha]
  | cons c t ih =>
    obtain ⟨k, x⟩ := c
    simp only [List.all_cons, Bool.and_eq_true] at hm
    simp only [Memory.put]
    split_ifs <;> simp only [List.all_cons, Bool.and_eq_true] <;>
      first | exact ⟨ha, hm.1, hm.2⟩ | exact ⟨ha, hm.2⟩ | exact ⟨hm.1, ih hm.2⟩

/-- A byte write to installed memory keeps the canonical form. -/
theorem wf_put {m : Memory} (a : Nat) (v : Byte) (ha : a < Config.physMemSize) (hm : Memory.wf m = true) :
    Memory.wf (Memory.put m a v) = true := by
  simp only [Memory.wf, Bool.and_eq_true] at *
  exact ⟨risingFrom_put m a v (Nat.zero_le a) hm.1,
    all_put m a v (fun k => decide (k < Config.physMemSize)) (by simpa using ha) hm.2⟩

/-- A write that lies in installed memory keeps the canonical form. -/
theorem wf_write {m : Memory} (a : Nat) (w : Width) (v : Word) (ha : a + widthBytes w ≤ Config.physMemSize)
    (hm : Memory.wf m = true) : Memory.wf (Memory.write m a w v) = true := by
  cases w <;> simp only [widthBytes] at ha <;> simp only [Memory.write] <;>
    repeat first | exact hm | refine wf_put _ _ (by omega) ?_

/-! ### The flag lists (20_memory.md R120) -/

theorem risingAddrs_mono {lo hi : Nat} (l : List Nat) (h : lo ≤ hi) (hl : risingAddrs hi l = true) :
    risingAddrs lo l = true := by
  cases l with
  | nil => rfl
  | cons k t =>
    simp only [risingAddrs, Bool.and_eq_true, decide_eq_true_eq] at *
    exact ⟨le_trans h hl.1, hl.2⟩

theorem risingAddrs_addAddr {lo : Nat} (l : List Nat) (a : Nat) (ha : lo ≤ a) (hl : risingAddrs lo l = true) :
    risingAddrs lo (addAddr l a) = true := by
  induction l generalizing lo with
  | nil => simp [addAddr, risingAddrs, ha]
  | cons k t ih =>
    simp only [risingAddrs, Bool.and_eq_true, decide_eq_true_eq] at hl
    simp only [addAddr]
    split_ifs with h1 h2 <;> simp only [risingAddrs, Bool.and_eq_true, decide_eq_true_eq]
    · exact ⟨ha, by omega, hl.2⟩
    · exact hl
    · exact ⟨hl.1, ih (by omega) hl.2⟩

theorem risingAddrs_filter {lo : Nat} (l : List Nat) (p : Nat → Bool) (hl : risingAddrs lo l = true) :
    risingAddrs lo (l.filter p) = true := by
  induction l generalizing lo with
  | nil => rfl
  | cons k t ih =>
    simp only [risingAddrs, Bool.and_eq_true, decide_eq_true_eq] at hl
    simp only [List.filter_cons]
    split_ifs
    · simp only [risingAddrs, Bool.and_eq_true, decide_eq_true_eq]
      exact ⟨hl.1, ih hl.2⟩
    · exact risingAddrs_mono _ (by omega) (ih hl.2)

/-- Membership after an address is added. -/
@[simp] theorem contains_addAddr (l : List Nat) (a b : Nat) :
    (addAddr l a).contains b = (b == a || l.contains b) := by
  induction l with
  | nil => rw [Bool.eq_iff_iff]; simp [addAddr]
  | cons k t ih =>
    simp only [addAddr]
    split_ifs with h1 h2
    · rfl
    · subst h2
      by_cases h : b = a <;> simp [h]
    · simp only [List.contains_cons, ih]
      cases h : (b == k) <;> simp

/-- A flag that is set stays set when another is added. -/
theorem mem_addAddr {l : List Nat} {a k : Nat} (h : k ∈ l) : k ∈ addAddr l a := by
  have hc := contains_addAddr l a k
  rw [List.contains_iff_mem.mpr h, Bool.or_true] at hc
  exact List.contains_iff_mem.mp hc

theorem all_addAddr (l : List Nat) (a : Nat) (p : Nat → Bool) (ha : p a = true) (hl : l.all p = true) :
    (addAddr l a).all p = true := by
  induction l with
  | nil => simp [addAddr, ha]
  | cons k t ih =>
    simp only [List.all_cons, Bool.and_eq_true] at hl
    simp only [addAddr]
    split_ifs <;> simp only [List.all_cons, Bool.and_eq_true]
    · exact ⟨ha, hl⟩
    · exact hl
    · exact ⟨hl.1, ih hl.2⟩

theorem wordOf_mod_four (pa : Word) : (wordOf pa).toNat % 4 = 0 := by
  rw [wordOf, BitVec.toNat_and, show (4 : Nat) = 2 ^ 2 from rfl, Nat.and_mod_two_pow]
  exact Nat.and_zero _

/-- Marking a word keeps a flag list in canonical form. -/
theorem flagsWf_addAddr {l : List Nat} (pa : Word) (hl : flagsWf l = true) :
    flagsWf (addAddr l (wordOf pa).toNat) = true := by
  simp only [flagsWf, Bool.and_eq_true] at *
  exact ⟨risingAddrs_addAddr l _ (Nat.zero_le _) hl.1,
    all_addAddr l _ _ (by simpa using ⟨wordOf_mod_four pa, (wordOf pa).isLt⟩) hl.2⟩

/-- Clearing flags keeps a flag list in canonical form. -/
theorem flagsWf_filter {l : List Nat} (p : Nat → Bool) (hl : flagsWf l = true) : flagsWf (l.filter p) = true := by
  simp only [flagsWf, Bool.and_eq_true] at *
  refine ⟨risingAddrs_filter l p hl.1, List.all_eq_true.mpr fun x hx => ?_⟩
  exact List.all_eq_true.mp hl.2 x (List.mem_of_mem_filter hx)

/-! ### TLB maps (10_state.md R55 to R58) -/

theorem risingKeys_mono {lo hi : Nat} (t : Tlb) (h : lo ≤ hi) (ht : risingKeys hi t = true) :
    risingKeys lo t = true := by
  cases t with
  | nil => rfl
  | cons e r =>
    simp only [risingKeys, Bool.and_eq_true, decide_eq_true_eq] at *
    exact ⟨le_trans h ht.1, ht.2⟩

theorem risingKeys_tlbPut {lo : Nat} (t : Tlb) (n : TlbEntry) (hn : lo ≤ entryKey n) (ht : risingKeys lo t = true) :
    risingKeys lo (tlbPut t n) = true := by
  induction t generalizing lo with
  | nil => simp [tlbPut, risingKeys, hn]
  | cons e r ih =>
    simp only [risingKeys, Bool.and_eq_true, decide_eq_true_eq] at ht
    simp only [tlbPut]
    split_ifs with h1 h2 <;> simp only [risingKeys, Bool.and_eq_true, decide_eq_true_eq]
    · exact ⟨hn, by omega, ht.2⟩
    · exact ⟨hn, by rw [h2]; exact ht.2⟩
    · exact ⟨ht.1, ih (by omega) ht.2⟩

theorem risingKeys_sublist {lo : Nat} {t u : Tlb} (h : u.Sublist t) (ht : risingKeys lo t = true) :
    risingKeys lo u = true := by
  induction h generalizing lo with
  | slnil => rfl
  | cons e _ ih =>
    simp only [risingKeys, Bool.and_eq_true, decide_eq_true_eq] at ht
    exact risingKeys_mono _ (by omega) (ih ht.2)
  | cons_cons e _ ih =>
    simp only [risingKeys, Bool.and_eq_true, decide_eq_true_eq] at *
    exact ⟨ht.1, ih ht.2⟩

/-- A lookup after an insert. -/
theorem tlbFind_tlbPut (t : Tlb) (n : TlbEntry) (k : Nat) :
    tlbFind (tlbPut t n) k = if k = entryKey n then some n else tlbFind t k := by
  induction t with
  | nil => simp only [tlbPut, tlbFind, eq_comm]
  | cons e r ih =>
    simp only [tlbPut]
    split_ifs with h1 h2 h3 h4 <;> simp only [tlbFind, ih] <;> split_ifs <;> first | rfl | omega

/-- A lookup after a removal. -/
theorem tlbFind_tlbRemove (t : Tlb) (k q : Nat) :
    tlbFind (tlbRemove t k) q = if q = k then none else tlbFind t q := by
  induction t with
  | nil => simp [tlbRemove, tlbFind]
  | cons e r ih =>
    simp only [tlbRemove] at ih
    simp only [tlbRemove, List.filter_cons, tlbFind]
    by_cases h : entryKey e = k
    · simp only [h, ne_eq, not_true_eq_false, decide_false, Bool.false_eq_true, if_false, ih]
      split_ifs <;> first | rfl | omega
    · simp only [h, ne_eq, not_false_eq_true, decide_true, if_true, tlbFind, ih]
      split_ifs <;> first | rfl | omega

/-- No entry of a key below all keys of a rising list. -/
theorem tlbFind_below {lo k : Nat} (t : Tlb) (h : k < lo) (ht : risingKeys lo t = true) : tlbFind t k = none := by
  induction t generalizing lo with
  | nil => rfl
  | cons e r ih =>
    simp only [risingKeys, Bool.and_eq_true, decide_eq_true_eq] at ht
    rw [tlbFind, if_neg (by omega), ih (by omega) ht.2]

/-- The entry found for a key has that key. -/
theorem tlbFind_key {t : Tlb} {k : Nat} {e : TlbEntry} (h : tlbFind t k = some e) : entryKey e = k := by
  induction t with
  | nil => cases h
  | cons a r ih =>
    simp only [tlbFind] at h
    split_ifs at h with hk
    · cases h; exact hk
    · exact ih h

/-- An insert replaces the entry of its key, if there is one. -/
theorem length_tlbPut_found {lo : Nat} (t : Tlb) (n : TlbEntry) (ht : risingKeys lo t = true)
    (hn : (tlbFind t (entryKey n)).isSome = true) : (tlbPut t n).length = t.length := by
  induction t generalizing lo with
  | nil => cases hn
  | cons e r ih =>
    simp only [risingKeys, Bool.and_eq_true, decide_eq_true_eq] at ht
    simp only [tlbFind] at hn
    simp only [tlbPut]
    rcases Nat.lt_trichotomy (entryKey n) (entryKey e) with h | h | h
    · rw [if_neg (by omega), tlbFind_below r (Nat.lt_succ_of_lt h) ht.2] at hn
      cases hn
    · simp [h]
    · rw [if_neg (by omega)] at hn
      rw [if_neg (by omega), if_neg (by omega), List.length_cons, ih ht.2 hn, List.length_cons]

/-- An insert adds at most one entry. -/
theorem length_tlbPut_le (t : Tlb) (n : TlbEntry) : (tlbPut t n).length ≤ t.length + 1 := by
  induction t with
  | nil => exact Nat.le_refl 1
  | cons e r ih =>
    simp only [tlbPut]
    split_ifs <;> simp only [List.length_cons] <;> omega

/-- An insert keeps a TLB a map, in any room that holds one more entry or already holds the key. -/
theorem tlbWf_tlbPut {t : Tlb} {cap : Nat} (n : TlbEntry) (ht : tlbWf t cap = true)
    (hn : t.length < cap ∨ (tlbFind t (entryKey n)).isSome = true) : tlbWf (tlbPut t n) cap = true := by
  simp only [tlbWf, Bool.and_eq_true, decide_eq_true_eq] at *
  refine ⟨risingKeys_tlbPut t n (Nat.zero_le _) ht.1, ?_⟩
  rcases hn with h | h
  · exact le_trans (length_tlbPut_le t n) h
  · exact le_of_eq_of_le (length_tlbPut_found t n ht.1 h) ht.2

/-- Any selection of the entries of a map is a map. -/
theorem tlbWf_sublist {t u : Tlb} {cap : Nat} (h : u.Sublist t) (ht : tlbWf t cap = true) : tlbWf u cap = true := by
  simp only [tlbWf, Bool.and_eq_true, decide_eq_true_eq] at *
  exact ⟨risingKeys_sublist h ht.1, le_trans h.length_le ht.2⟩

end Sys2Proof.Laws
end

