-- ==== Sys2Proof/Laws/Ops.lean ====
section
/-! SUPPORT. One lemma for each shared operation that says once everything it can answer. Proofs cite these instead of
unfolding the operation. -/

namespace Sys2Proof.Laws

open Sys2Proof Sys2Proof.Machine

/-! ### Attempts -/

@[simp] theorem bind_done_left {α β : Type} (a : α) (k : α → Attempt β) : (Attempt.done a).bind k = k a := rfl

@[simp] theorem bind_trap_left {α β : Type} (p : Trap) (k : α → Attempt β) :
    (Attempt.trap p : Attempt α).bind k = .trap p := rfl

@[simp] theorem bind_refuse_left {α β : Type} (r : Refusal) (k : α → Attempt β) :
    (Attempt.refuse r : Attempt α).bind k = .refuse r := rfl

/-- A sequence is done iff both parts are. -/
theorem bind_done {α β : Type} {x : Attempt α} {k : α → Attempt β} {b : β} :
    x.bind k = .done b ↔ ∃ a, x = .done a ∧ k a = .done b := by
  cases x <;> simp

/-- A sequence traps iff its first part does, or is done and the second part traps. -/
theorem bind_trap {α β : Type} {x : Attempt α} {k : α → Attempt β} {p : Trap} :
    x.bind k = .trap p ↔ x = .trap p ∨ ∃ a, x = .done a ∧ k a = .trap p := by
  cases x <;> simp

/-- A sequence is refused iff its first part is, or is done and the second part is refused. -/
theorem bind_refuse {α β : Type} {x : Attempt α} {k : α → Attempt β} {r : Refusal} :
    x.bind k = .refuse r ↔ x = .refuse r ∨ ∃ a, x = .done a ∧ k a = .refuse r := by
  cases x <;> simp

@[simp] theorem conclude_done (s t : State) : conclude s (.done t) = .next t := rfl

@[simp] theorem conclude_trap (s : State) (p : Trap) : conclude s (.trap p) = takeTrap p s := rfl

@[simp] theorem conclude_refuse (s : State) (r : Refusal) : conclude s (.refuse r) = .refused r := rfl

/-- The vector table base is page aligned iff it is a multiple of 4096. -/
theorem vectorAligned_iff {s : State} : vectorAligned s = true ↔ (s.getCR 16#5).toNat % 4096 = 0 := by
  simp [vectorAligned, ← BitVec.toNat_inj, BitVec.extractLsb'_toNat]

/-- Taking a trap with a page-aligned base is its entry (60_exceptions.md R341). -/
theorem takeTrap_aligned {p : Trap} {s : State} (h : vectorAligned s = true) : takeTrap p s = .next (trapEntry p s) := by
  simp [takeTrap, h]

/-- Taking a trap with any other base is refused (60_exceptions.md R341). -/
theorem takeTrap_refused {p : Trap} {s : State} (h : vectorAligned s = false) :
    takeTrap p s = .refused .vectorBase := by
  simp [takeTrap, h]

/-- The next state of a trap taken is its entry, and the base was page aligned. -/
theorem takeTrap_next {p : Trap} {s t : State} :
    takeTrap p s = .next t ↔ vectorAligned s = true ∧ t = trapEntry p s := by
  cases h : vectorAligned s <;> simp [takeTrap, h, eq_comm]

/-- An instruction's next state: its own effect, or the entry of the trap it raised, from the state it started in
(60_exceptions.md R340). -/
theorem conclude_next {s t : State} {x : Attempt State} :
    conclude s x = .next t ↔ x = .done t ∨ ∃ p, x = .trap p ∧ takeTrap p s = .next t := by
  cases x <;> simp

/-- A privileged operation in privileged mode is the operation; in user mode it is trap 6. -/
theorem privileged_done {s t : State} {x : Attempt State} :
    privileged s x = .done t ↔ s.st.x = false ∧ x = .done t := by
  simp only [privileged]
  split <;> simp_all

theorem privileged_of_user {s : State} (x : Attempt State) (h : s.st.x = true) :
    privileged s x = .trap (instrTrap .privilegedOperation s) := if_pos h

theorem privileged_of_kernel {s : State} (x : Attempt State) (h : s.st.x = false) : privileged s x = x :=
  if_neg (by simp [h])

/-! ### Addresses -/

/-- Dropping the two low bits leaves the 4-byte block below the address. -/
theorem toNat_dropLow2 (t : Word) : (dropLow2 t).toNat = t.toNat / 4 * 4 := by
  have h : dropLow2 t = t >>> 2 <<< 2 := by
    ext i hi
    simp only [dropLow2, BitVec.getElem_and, BitVec.getElem_shiftLeft]
    interval_cases i <;> simp
  have ht := t.isLt
  rw [h, BitVec.toNat_shiftLeft, BitVec.toNat_ushiftRight, Nat.shiftLeft_eq, Nat.shiftRight_eq_div_pow]
  omega

@[simp] theorem dropLow2_idem (t : Word) : dropLow2 (dropLow2 t) = dropLow2 t := by
  rw [dropLow2, dropLow2, BitVec.and_assoc]
  rfl

theorem wordOf_eq (pa : Word) : wordOf pa = dropLow2 pa := rfl

/-- An address is a word address iff it is a multiple of 4. -/
theorem wordAligned_iff (t : Word) : wordAligned t = true ↔ t.toNat % 4 = 0 := by
  rw [wordAligned, decide_eq_true_eq, ← BitVec.toNat_inj, toNat_dropLow2]
  omega

@[simp] theorem wordAligned_dropLow2 (t : Word) : wordAligned (dropLow2 t) = true := by
  rw [wordAligned, dropLow2_idem, decide_eq_true_eq]

theorem wordAligned_add_four {t : Word} (h : wordAligned t = true) : wordAligned (t + 4#32) = true := by
  rw [wordAligned_iff] at *
  rw [BitVec.toNat_add]
  simp only [BitVec.toNat_ofNat]
  omega

/-- The handler of a trap starts at a word address. -/
theorem wordAligned_handlerAddress {s : State} (n : Nat) (h : vectorAligned s = true) :
    wordAligned (handlerAddress (s.getCR 16#5) n) = true := by
  have hb := vectorAligned_iff.mp h
  rw [handlerAddress, wordAligned_iff, BitVec.toNat_add, BitVec.toNat_ofNat]
  omega

/-- The page offset of a translated address is that of the virtual one (20_memory.md R94). -/
theorem entryAddress_mod (e : TlbEntry) (ofs : Word) : (entryAddress e ofs).toNat % 4096 = ofs.toNat % 4096 := by
  have h : (entryAddress e ofs).toNat = e.addr.ppn.toNat * 2 ^ 12 + (ofs.extractLsb' 0 12).toNat :=
    toNat_append_eq e.addr.ppn (ofs.extractLsb' 0 12)
  rw [h, BitVec.extractLsb'_toNat, Nat.shiftRight_zero]
  omega

theorem aligned_entryAddress (w : Width) (e : TlbEntry) (ofs : Word) :
    aligned w (entryAddress e ofs) = aligned w ofs := by
  have h := entryAddress_mod e ofs
  simp only [aligned, decide_eq_decide]
  cases w <;> simp only [widthBytes] <;> omega

/-! ### Physical accesses -/

/-- An aligned access lies in memory or in the I/O range: with the installed size of this model there is no third
place (20_memory.md R76). -/
theorem installed_or_isIo {w : Width} {pa : Word} (h : aligned w pa = true) :
    installed pa w = true ∨ installed pa w = false ∧ isIo pa = true := by
  have hp := pa.isLt
  have hm : Config.physMemSize = 4026531840 := rfl
  have hi : Config.ioBase = 4026531840 := rfl
  have ha : pa.toNat % widthBytes w = 0 := of_decide_eq_true h
  by_cases hc : pa.toNat + widthBytes w ≤ Config.physMemSize
  · exact .inl (decide_eq_true hc)
  · refine .inr ⟨decide_eq_false hc, decide_eq_true ?_⟩
    cases w <;> simp only [widthBytes] at ha hc <;> omega

/-- What `physRead` answers: memory, or the environment's value and its trace. -/
theorem physRead_done {pa : Word} {w : Width} {s t : State} {v : Word} :
    physRead pa w s = .done (v, t) ↔
      (installed pa w = true ∧ v = s.mem.read pa.toNat w ∧ t = s) ∨
      (installed pa w = false ∧ isIo pa = true ∧ v = lowBytes w (Config.ioAnswer s.draws) ∧
        t = { s with draws := s.draws + 1,
                     envTrace := .ioRead pa w (lowBytes w (Config.ioAnswer s.draws)) :: s.envTrace }) := by
  simp only [physRead]
  split_ifs with h1 h2
  · simp [h1, eq_comm (a := v), eq_comm (a := t)]
  · simp [h1, h2, eq_comm (a := v), eq_comm (a := t)]
  · simp [h1, h2]

theorem physRead_no_trap {pa : Word} {w : Width} {s : State} {p : Trap} : physRead pa w s ≠ .trap p := by
  simp only [physRead]
  split_ifs <;> simp

/-- A read is refused iff its address is neither installed memory nor I/O (20_memory.md R78). -/
theorem physRead_refuse {pa : Word} {w : Width} {s : State} {r : Refusal} :
    physRead pa w s = .refuse r ↔ installed pa w = false ∧ isIo pa = false ∧ r = .memoryNotInstalled := by
  simp only [physRead]
  split_ifs with h1 h2
  · simp [h1]
  · simp [h1, h2]
  · simp [h1, h2, eq_comm (a := r)]

/-- An aligned read is always done. -/
theorem physRead_aligned {pa : Word} {w : Width} (s : State) (h : aligned w pa = true) :
    ∃ v t, physRead pa w s = .done (v, t) := by
  simp only [physRead]
  rcases installed_or_isIo h with h | ⟨h1, h2⟩
  · exact ⟨_, _, if_pos h⟩
  · exact ⟨_, _, by rw [if_neg (by simp [h1]), if_pos h2]⟩

/-- What `physWrite` answers: the bytes are stored, or the store is handed to the environment; in both cases the flags
of the word are set and a reservation of the word is lost. -/
theorem physWrite_done {pa : Word} {w : Width} {v : Word} {s t : State} :
    physWrite pa w v s = .done t ↔
      (installed pa w = true ∧
        t = ({ s with mem := s.mem.write pa.toNat w v }.breakReservation pa).markStale pa) ∨
      (installed pa w = false ∧ isIo pa = true ∧
        t = ({ s with envTrace := .ioWrite pa w (lowBytes w v) :: s.envTrace }.breakReservation pa).markStale pa) := by
  simp only [physWrite]
  split_ifs with h1 h2
  · simp [h1, eq_comm (a := t)]
  · simp [h1, h2, eq_comm (a := t)]
  · simp [h1, h2]

theorem physWrite_no_trap {pa : Word} {w : Width} {v : Word} {s : State} {p : Trap} : physWrite pa w v s ≠ .trap p := by
  simp only [physWrite]
  split_ifs <;> simp

/-- A write is refused iff its address is neither installed memory nor I/O (20_memory.md R78). -/
theorem physWrite_refuse {pa : Word} {w : Width} {v : Word} {s : State} {r : Refusal} :
    physWrite pa w v s = .refuse r ↔ installed pa w = false ∧ isIo pa = false ∧ r = .memoryNotInstalled := by
  simp only [physWrite]
  split_ifs with h1 h2
  · simp [h1]
  · simp [h1, h2]
  · simp [h1, h2, eq_comm (a := r)]

/-- An aligned write is always done. -/
theorem physWrite_aligned {pa : Word} {w : Width} (v : Word) (s : State) (h : aligned w pa = true) :
    ∃ t, physWrite pa w v s = .done t := by
  simp only [physWrite]
  rcases installed_or_isIo h with h | ⟨h1, h2⟩
  · exact ⟨_, if_pos h⟩
  · exact ⟨_, by rw [if_neg (by simp [h1]), if_pos h2]⟩

/-! ### Data addresses (20_memory.md R91, R92, R104, R105) -/

/-- `plainAddress` answers the offset itself if it is aligned, else trap 17 with segment 0. -/
theorem plainAddress_done {w : Width} {ofs pa : Word} {s : State} :
    plainAddress w ofs s = .done pa ↔ aligned w ofs = true ∧ pa = ofs := by
  simp only [plainAddress]
  split_ifs with h
  · simp [h, eq_comm (a := pa)]
  · simp [h]

/-- When a translated access is done: an entry that admits it and traps on nothing, an aligned offset, bank 0. -/
theorem translateData_done {write : Bool} {w : Width} {segid ofs pa : Word} {s : State} :
    translateData write w segid ofs s = .done pa ↔
      ∃ e, tlbLookup s.dtlb segid ofs = some e ∧
        (if write then writeAllowed e s.st.x else readAllowed e s.st.x) = true ∧
        (s.st.p && !pidOk e write s) = false ∧ e.prot.t = false ∧ e.prot.b = false ∧ (write && e.prot.d) = false ∧
        aligned w ofs = true ∧ foreign e = false ∧ pa = entryAddress e ofs := by
  simp only [translateData, dataTlb_eq]
  cases h : tlbLookup s.dtlb segid ofs with
  | none => simp
  | some e =>
    simp only [Option.some.injEq, exists_eq_left', eq_comm (a := pa)]
    split_ifs <;> simp_all

/-- A data address that is done is aligned, with translation off, in the bypassed segment, and translated. -/
theorem dataAddress_aligned {write : Bool} {w : Width} {seg : BitVec 2} {x pa : Word} {s : State}
    (h : dataAddress write w seg x s = .done pa) : aligned w pa = true := by
  simp only [dataAddress] at h
  split_ifs at h
  · obtain ⟨ha, rfl⟩ := plainAddress_done.mp h; exact ha
  · obtain ⟨ha, rfl⟩ := plainAddress_done.mp h; exact ha
  · obtain ⟨e, -, -, -, -, -, -, ha, -, rfl⟩ := translateData_done.mp h
    rw [aligned_entryAddress, ha]

/-- With translation off the computed offset is the physical address. -/
theorem dataAddress_untranslated {write : Bool} {w : Width} {seg : BitVec 2} {x : Word} {s : State}
    (hd : s.st.d = false) (ha : aligned w x = true) : dataAddress write w seg x s = .done x := by
  simp [dataAddress, hd, plainAddress, ha]

/-- A data read: an address is found, and the read of it is done. -/
theorem memRead_done {w : Width} {seg : BitVec 2} {x v : Word} {s t : State} :
    memRead w seg x s = .done (v, t) ↔
      ∃ pa, dataAddress false w seg x s = .done pa ∧ physRead pa w s = .done (v, t) := bind_done

/-- A data write: an address is found, and the write to it is done. -/
theorem memWrite_done {w : Width} {seg : BitVec 2} {x v : Word} {s t : State} :
    memWrite w seg x v s = .done t ↔
      ∃ pa, dataAddress true w seg x s = .done pa ∧ physWrite pa w v s = .done t := bind_done

/-! ### What an access leaves unchanged -/

/-- `t` differs from `s` at most in the draws and the trace of the environment. -/
def SameButEnv (s t : State) : Prop := t = { s with draws := t.draws, envTrace := t.envTrace }

theorem SameButEnv.refl (s : State) : SameButEnv s s := rfl

theorem physRead_sameButEnv {pa : Word} {w : Width} {s t : State} {v : Word} (h : physRead pa w s = .done (v, t)) :
    SameButEnv s t := by
  rcases physRead_done.mp h with ⟨-, -, rfl⟩ | ⟨-, -, -, rfl⟩ <;> rfl

theorem memRead_sameButEnv {w : Width} {seg : BitVec 2} {x v : Word} {s t : State}
    (h : memRead w seg x s = .done (v, t)) : SameButEnv s t := by
  obtain ⟨pa, -, h⟩ := memRead_done.mp h
  exact physRead_sameButEnv h

/-- An operand fetch changes nothing but the draws and the trace of the environment. -/
theorem fetchOperand_sameButEnv {r : GReg} {opd : Operand} {x y : Word} {s t : State}
    (h : fetchOperand r opd s = .done (x, y, t)) : SameButEnv s t := by
  cases opd <;> simp only [fetchOperand] at h
  case imm | reg | regs => cases h; rfl
  case mode3 | mode7 => cases h
  all_goals
    obtain ⟨⟨v, u⟩, hm, h⟩ := bind_done.mp h
    cases h
    exact memRead_sameButEnv hm

/-- A read of a control register changes nothing but the draws and the trace of the environment. -/
theorem readCR_sameButEnv (n : CReg) (s : State) : SameButEnv s (readCR n s).2 := by
  simp only [readCR]
  split <;> rfl

/-- A byte of memory after a done write: outside the stored bytes it reads as before. -/
theorem physWrite_byte_outside {pa : Word} {w : Width} {v : Word} {s t : State} (h : physWrite pa w v s = .done t)
    (a : Nat) (ha : a < pa.toNat ∨ pa.toNat + widthBytes w ≤ a) : t.mem.byte a = s.mem.byte a := by
  rcases physWrite_done.mp h with ⟨-, rfl⟩ | ⟨-, -, rfl⟩
  · exact byte_write_outside s.mem pa.toNat a w v ha
  · rfl

/-! ### Before an instruction -/

/-- What a fetch answers: the word at the address found, with no flag set, and `ir` set to it. -/
theorem fetch_done {s u : State} {w : Word} :
    fetch s = .done (w, u) ↔
      ∃ pa t v, fetchAddress s = .done (pa, t) ∧ isStale pa t = false ∧ physRead pa .word t = .done (w, v) ∧
        u = { v with ir := w } := by
  simp only [fetch, bind_done, Prod.exists]
  constructor
  · rintro ⟨pa, t, h1, h2⟩
    split_ifs at h2 with h3
    obtain ⟨x, v, h4, h5⟩ := (bind_done.trans Prod.exists).mp h2
    cases h5
    exact ⟨pa, t, v, h1, by simpa using h3, h4, rfl⟩
  · rintro ⟨pa, t, v, h1, h2, h3, rfl⟩
    exact ⟨pa, t, h1, by rw [h2, if_neg (by simp), h3]; rfl⟩

/-- Where a fetch address comes from (20_memory.md R101, R102). -/
theorem fetchAddress_done {s t : State} {pa : Word} :
    fetchAddress s = .done (pa, t) ↔
      ((s.st.c = false ∨ bypassed s.iaSeg = true) ∧ pa = s.iaOfs ∧ t = s) ∨
      (s.st.c = true ∧ bypassed s.iaSeg = false ∧ ∃ e, tlbLookup s.itlb s.iaSeg s.iaOfs = some e ∧
        executeAllowed e s = true ∧ foreign e = false ∧ pa = entryAddress e s.iaOfs ∧ t = demote e s) := by
  simp only [fetchAddress, instrTlb_eq]
  cases h1 : s.st.c
  · simp [eq_comm (a := pa), eq_comm (a := t)]
  · cases h2 : bypassed s.iaSeg
    · cases h3 : tlbLookup s.itlb s.iaSeg s.iaOfs with
      | none => simp
      | some e =>
        simp only [Bool.not_true, Bool.false_eq_true, if_false, Option.some.injEq, exists_eq_left',
          eq_comm (a := pa), eq_comm (a := t)]
        split_ifs <;> simp_all
    · simp [eq_comm (a := pa), eq_comm (a := t)]

/-- The asynchronous traps, in their order. -/
theorem pendingTrap_some {s u : State} {p : Trap} (h : pendingTrap s = some (p, u)) :
    (s.machineCheck = true ∧ s.st.m = false ∧ p = bareTrap .machineCheck ∧ u = { s with machineCheck := false }) ∨
    (s.powerFailure = true ∧ p = bareTrap .powerFailure ∧ u = { s with powerFailure := false }) ∨
    (s.st.e = true ∧ s.extIrq &&& s.getCR 23#5 ≠ 0#32 ∧ p = bareTrap .externalInterrupt ∧ u = s) := by
  simp only [pendingTrap] at h
  split_ifs at h with h1 h2 h3
  · simp only [Bool.and_eq_true, Bool.not_eq_true'] at h1
    cases h; exact .inl ⟨h1.1, h1.2, rfl, rfl⟩
  · cases h; exact .inr (.inl ⟨h2, rfl, rfl⟩)
  · simp only [Bool.and_eq_true, decide_eq_true_eq] at h3
    cases h; exact .inr (.inr ⟨h3.1, h3.2, rfl, rfl⟩)

/-- Everything a step can do: take an asynchronous trap, take a trap of the fetch, run an instruction, or answer a word
that is no instruction. -/
theorem step_next {s t : State} (h : step s = .next t) :
    (∃ p u, pendingTrap s = some (p, u) ∧ takeTrap p u = .next t) ∨
    (pendingTrap s = none ∧ ∃ p, fetch s = .trap p ∧ takeTrap p s = .next t) ∨
    (pendingTrap s = none ∧ ∃ w u i, fetch s = .done (w, u) ∧ decode w = .ok i ∧ exec i u = .next t) ∨
    (pendingTrap s = none ∧ ∃ w u e, fetch s = .done (w, u) ∧ decode w = .error e ∧
      takeTrap (instrTrap .illegalInstruction u) u = .next t) := by
  simp only [step] at h
  cases hp : pendingTrap s with
  | some v => obtain ⟨p, u⟩ := v; simp only [hp] at h; exact .inl ⟨p, u, rfl, h⟩
  | none =>
    simp only [hp] at h
    refine .inr ?_
    cases hf : fetch s with
    | done wu =>
      obtain ⟨w, u⟩ := wu
      simp only [hf, runWord] at h
      cases hd : decode w with
      | ok i => simp only [hd] at h; exact .inr (.inl ⟨rfl, w, u, i, rfl, hd, h⟩)
      | error e =>
        simp only [hd] at h
        refine .inr (.inr ⟨rfl, w, u, e, rfl, hd, ?_⟩)
        cases e <;> simp only [rejectWord, conclude] at h <;> first | exact h | cases h
    | trap p => simp only [hf] at h; exact .inl ⟨rfl, p, rfl, h⟩
    | refuse r => simp [hf] at h

end Sys2Proof.Laws
end

