-- ==== Sys2Proof/Laws/Flags.lean ====
section
/-! SUPPORT. One lemma for each computation of Machine/Flags.lean and each immediate of Machine/Operands.lean: what it
is on numbers, so that no proof unfolds it. -/

namespace Sys2Proof.Laws

open Sys2Proof Sys2Proof.Machine

/-! ### Sums -/

theorem outsideSigned_iff (x : Int) : outsideSigned x = true ↔ x < -2147483648 ∨ 2147483648 ≤ x := by
  rw [outsideSigned, Bool.or_eq_true, decide_eq_true_iff, decide_eq_true_iff]

theorem outsideUnsigned_iff (x : Int) : outsideUnsigned x = true ↔ x < 0 ∨ 4294967296 ≤ x := by
  rw [outsideUnsigned, Bool.or_eq_true, decide_eq_true_iff, decide_eq_true_iff]

theorem carryIn_le_one (c : Bool) (s : State) : carryIn c s ≤ 1 := by
  rw [carryIn]
  split <;> omega

/-- The carry-out of ADD: the exact sum needs a 33rd bit (43_computational.md R243). -/
theorem addCarry_iff (x y : Word) (cin : Nat) :
    addCarry x y cin = true ↔ 4294967296 ≤ x.toNat + y.toNat + cin := by
  rw [addCarry, decide_eq_true_iff, addUnsigned]
  omega

/-- The borrow of SUB: the exact difference does not fit in 32 bits (43_computational.md R246). -/
theorem subCarry_iff (x y : Word) (cin : Nat) :
    subCarry x y cin = true ↔ x.toNat + cin < y.toNat ∨ y.toNat + 4294967296 ≤ x.toNat + cin := by
  refine (outsideUnsigned_iff _).trans ?_
  rw [subUnsigned]
  omega

theorem addOverflow_signed (x y : Word) (cin : Nat) :
    addOverflow false x y cin = true ↔
      x.toInt + y.toInt + cin < -2147483648 ∨ 2147483648 ≤ x.toInt + y.toInt + cin :=
  outsideSigned_iff _

theorem addOverflow_unsigned (x y : Word) (cin : Nat) :
    addOverflow true x y cin = true ↔ 4294967296 ≤ x.toNat + y.toNat + cin := by
  rw [addOverflow, if_pos rfl, outsideUnsigned_iff, addUnsigned]
  omega

theorem subOverflow_signed (x y : Word) (cin : Nat) :
    subOverflow false x y cin = true ↔
      x.toInt - y.toInt + cin < -2147483648 ∨ 2147483648 ≤ x.toInt - y.toInt + cin :=
  outsideSigned_iff _

theorem subOverflow_unsigned (x y : Word) (cin : Nat) :
    subOverflow true x y cin = true ↔ x.toNat + cin < y.toNat ∨ y.toNat + 4294967296 ≤ x.toNat + cin := by
  rw [subOverflow, if_pos rfl, outsideUnsigned_iff, subUnsigned]
  omega

/-! ### Fields of words -/

/-- Bit `k` of `mask(len)`. -/
theorem lowMask_bit (len k : Nat) (hk : k < 32) : (lowMask len).getLsbD k = decide (k < len) := by
  rw [lowMask, BitVec.getLsbD_ofNat, Nat.testBit_two_pow_sub_one]
  simp [hk]

theorem toNat_doubleShift (n : BitVec 5) (b a : Word) :
    (doubleShift n b a).toNat = (b.toNat * 4294967296 + a.toNat) / 2 ^ n.toNat % 4294967296 := by
  rw [doubleShift, BitVec.toNat_setWidth, BitVec.toNat_ushiftRight, toNat_append_eq, Nat.shiftRight_eq_div_pow]
  rfl

theorem toNat_leftImmediate (val : BitVec 22) : (leftImmediate val).toNat = val.toNat * 1024 := by
  have h := val.isLt
  rw [leftImmediate, BitVec.toNat_shiftLeft, Nat.shiftLeft_eq, BitVec.toNat_setWidth]
  omega

theorem toNat_segSelect (x : Word) : (segSelect x).toNat = 4 + x.toNat / 1073741824 := by
  have h := x.isLt
  rw [segSelect, toNat_append_eq, BitVec.extractLsb'_toNat, Nat.shiftRight_eq_div_pow]
  simp only [BitVec.toNat_ofNat]
  omega

theorem toNat_ofsSelect (x : Word) : (ofsSelect x).toNat = x.toNat % 1073741824 :=
  (BitVec.toNat_and _ _).trans (Nat.and_two_pow_sub_one_eq_mod x.toNat 30)

/-! ### Branch targets -/

/-- A branch offset is a multiple of 4, so a target relative to a word address is one (42_branch.md R211). -/
theorem dropLow2_add_branchOffset {n : Nat} {pc : Word} (x : BitVec n) (h : wordAligned pc = true) :
    dropLow2 (pc + branchOffset x) = pc + branchOffset x := by
  have hp := (wordAligned_iff pc).mp h
  refine of_decide_eq_true (p := dropLow2 _ = _) ((wordAligned_iff _).mpr ?_)
  have hm : (4 * lse x) % 4294967296 = 4 * (lse x % 1073741824) := by omega
  rw [BitVec.toNat_add, branchOffset, BitVec.toNat_ofInt]
  push_cast
  norm_num
  rw [hm]
  omega

end Sys2Proof.Laws
end

