-- ==== Sys2Proof/Laws/Exec.lean ====
section
/-! SUPPORT. What the shared parts of the instructions' meanings can answer, once for each: with `conclude_next` they
are the inversion lemmas of `exec`, which proofs over all instructions cite instead of unfolding the meanings. -/

namespace Sys2Proof.Laws

open Sys2Proof Sys2Proof.Machine

/-- `SameButEnv` with the two fields that may differ named. -/
theorem sameButEnv_iff {s t : State} : SameButEnv s t ↔ ∃ d e, t = { s with draws := d, envTrace := e } := by
  constructor
  · exact fun h => ⟨_, _, h⟩
  · rintro ⟨d, e, rfl⟩
    rfl

/-! ### Memory reference -/

theorem load_done {w : Width} {r : GReg} {seg : BitVec 2} {x : Word} {s t : State} :
    load w r seg x s = .done t ↔
      ∃ pa v u, dataAddress false w seg x s = .done pa ∧ physRead pa w s = .done (v, u) ∧ t = (u.setGR r v).retire := by
  simp only [load, bind_done, Prod.exists, memRead_done, Attempt.done.injEq, eq_comm (a := t)]
  constructor
  · rintro ⟨v, u, ⟨pa, h1, h2⟩, h3⟩
    exact ⟨pa, v, u, h1, h2, h3⟩
  · rintro ⟨pa, v, u, h1, h2, h3⟩
    exact ⟨v, u, ⟨pa, h1, h2⟩, h3⟩

theorem store_done {w : Width} {r : GReg} {seg : BitVec 2} {x : Word} {s t : State} :
    store w r seg x s = .done t ↔
      ∃ pa u, dataAddress true w seg x s = .done pa ∧ physWrite pa w (s.getGR r) s = .done u ∧ t = u.retire := by
  simp only [store, bind_done, memWrite_done, Attempt.done.injEq, eq_comm (a := t)]
  constructor
  · rintro ⟨u, ⟨pa, h1, h2⟩, h3⟩
    exact ⟨pa, u, h1, h2, h3⟩
  · rintro ⟨pa, u, h1, h2, h3⟩
    exact ⟨u, ⟨pa, h1, h2⟩, h3⟩

theorem loadReserved_done {r : GReg} {seg : BitVec 2} {x : Word} {s t : State} :
    loadReserved r seg x s = .done t ↔
      ∃ pa v u, dataAddress false .word seg x s = .done pa ∧ physRead pa .word s = .done (v, u) ∧
        t = { u.setGR r v with resv := some pa }.retire := by
  simp only [loadReserved, bind_done, Prod.exists, Attempt.done.injEq, eq_comm (a := t)]
  constructor
  · rintro ⟨pa, h1, v, u, h2, h3⟩
    exact ⟨pa, v, u, h1, h2, h3⟩
  · rintro ⟨pa, v, u, h1, h2, h3⟩
    exact ⟨pa, h1, v, u, h2, h3⟩

/-- STWC at a checked address: the store happens and GR[r] receives 0, or it does not and GR[r] receives 1. -/
theorem storeConditional_done {r : GReg} {pa : Word} {s t : State} :
    storeConditional r pa s = .done t ↔
      (stwcSucceeds pa s = true ∧ ∃ u, physWrite pa .word (s.getGR r) { s with draws := s.draws + 1 } = .done u ∧
        t = ({ u with resv := none }.setGR r 0#32).retire) ∨
      (stwcSucceeds pa s = false ∧ t = ({ s with draws := s.draws + 1, resv := none }.setGR r 1#32).retire) := by
  simp only [storeConditional, eq_comm (a := t)]
  cases stwcSucceeds pa s <;> simp [bind_done]

theorem loadAbsolute_done {r : GReg} {pa : Word} {s t : State} :
    loadAbsolute r pa s = .done t ↔
      s.st.x = false ∧ aligned .word pa = true ∧
        ∃ v u, physRead pa .word s = .done (v, u) ∧ t = (u.setGR r v).retire := by
  simp only [loadAbsolute, privileged_done, bind_done, Prod.exists, plainAddress_done, Attempt.done.injEq,
    eq_comm (a := t)]
  constructor
  · rintro ⟨h1, a, ⟨h2, rfl⟩, h3⟩
    exact ⟨h1, h2, h3⟩
  · rintro ⟨h1, h2, h3⟩
    exact ⟨h1, pa, ⟨h2, rfl⟩, h3⟩

/-! ### Operands and results -/

/-- LDO is done in the forms it has, and then reads no memory. -/
theorem effectiveOffset_done {opd : Operand} {s : State} {v : Word} :
    effectiveOffset opd s = .done v ↔
      (∃ val, opd = .imm val ∧ v = lseWord val) ∨
      (∃ w base seg ofs, opd = .indexed w base seg ofs ∧ v = indexedOffset base ofs s) := by
  cases opd <;> simp [effectiveOffset, eq_comm (a := v)]

theorem logical_done {op : Word → Word → Word} {r : GReg} {n c : Bool} {opd : Operand} {s t : State} :
    logical op r n c opd s = .done t ↔
      ∃ x y u, fetchOperand r opd s = .done (x, y, u) ∧
        t = (u.setGR r (complementIf n (op x (complementIf c y)))).retire := by
  simp only [logical, bind_done, Prod.exists, Attempt.done.injEq, eq_comm (a := t)]

/-- EXTR and DEP complete iff the field fits, with the value in GR[r]. -/
theorem writeFieldResult_done {fits : Bool} {r : GReg} {v : Word} {s t : State} :
    writeFieldResult fits r v s = .done t ↔ fits = true ∧ t = (s.setGR r v).retire := by
  cases fits <;> simp [writeFieldResult, eq_comm]

/-- EXTR and DEP are refused iff the field does not fit (43_computational.md R256). -/
theorem writeFieldResult_refuse {fits : Bool} {r : GReg} {v : Word} {s : State} {e : Refusal} :
    writeFieldResult fits r v s = .refuse e ↔ fits = false ∧ e = .bitField := by
  cases fits <;> simp [writeFieldResult, eq_comm]

/-- EXTR and DEP raise no trap. -/
theorem writeFieldResult_trap {fits : Bool} {r : GReg} {v : Word} {s : State} {p : Trap} :
    writeFieldResult fits r v s ≠ .trap p := by
  cases fits <;> simp [writeFieldResult]

@[simp] theorem setCarry_true (cb : Bool) (s : State) : setCarry true cb s = s := rfl

@[simp] theorem setCarry_false (cb : Bool) (s : State) :
    setCarry false cb s = { s with st := { s.st with cb := cb } } := rfl

/-! ### System control -/

/-- MR to a special register: in user mode only to one whose write is not privileged. -/
theorem moveToSpecial_done {r : GReg} {z m : Bool} {x : BitVec 6} {s t : State} :
    moveToSpecial r z m x s = .done t ↔
      (s.st.x && privilegedTarget m x) = false ∧
        t = if m then (writeCR (specialCR x) (if z then 0#32 else s.getGR r) s).retire
          else (s.setSR (specialSR x) (if z then 0#32 else s.getGR r)).retire := by
  simp only [moveToSpecial, eq_comm (a := t)]
  cases s.st.x && privilegedTarget m x <;> cases m <;> simp

/-- MR from a special register writes GR[r] and at most draws from the environment. -/
theorem moveFromSpecial_eq (r : GReg) (z m : Bool) (x : BitVec 6) (s : State) :
    ∃ v u, SameButEnv s u ∧ moveFromSpecial r z m x s = (u.setGR r v).retire := by
  cases z <;> cases m
  · exact ⟨_, s, SameButEnv.refl s, rfl⟩
  · exact ⟨_, _, readCR_sameButEnv (specialCR x) s, rfl⟩
  · exact ⟨_, s, SameButEnv.refl s, rfl⟩
  · exact ⟨_, s, SameButEnv.refl s, rfl⟩

/-- PRB goes on with a level exactly when GR[r] holds 0 or 1. -/
theorem probeLevel_done {v : Word} {pl : Bool} : probeLevel v = .done pl ↔ v.toNat ≤ 1 ∧ pl = decide (v = 1#32) := by
  simp only [probeLevel]
  split_ifs with h
  · simp [h, eq_comm (a := pl)]
  · simp [h]

/-- Any other level is refused. -/
theorem probeLevel_refuse {v : Word} (h : 1 < v.toNat) : probeLevel v = .refuse .probeLevel := by
  rw [probeLevel, if_neg (by omega)]

/-- ITLB changes the TLB it names and the counter of draws. -/
theorem insertTranslation_eq (r : GReg) (t m : Bool) (a : BitVec 4) (b : GReg) (s : State) :
    ∃ l d, insertTranslation r t m a b s = { s.withTlb t l with draws := d } := by
  simp only [insertTranslation, allocate]
  cases tlbFind (s.tlbOf t) (tlbKey (s.getSR (segReg a)) (pageOf (s.getGR b))) with
  | some e => exact ⟨tlbPut (s.tlbOf t) (fillEntry m (s.getGR r) e), s.draws, by cases t <;> rfl⟩
  | none =>
    exact ⟨tlbPut (makeRoom t (s.tlbOf t) s) (fillEntry m (s.getGR r) (freshEntry (s.getSR (segReg a))
      (pageOf (s.getGR b)) s)), s.draws + 3, by cases t <;> rfl⟩

/-- The TLB that ITLB leaves is a map within its capacity. -/
theorem insertTranslation_tlbWf (r : GReg) (t m : Bool) (a : BitVec 4) (b : GReg) {s : State}
    (h : tlbWf (s.tlbOf t) (tlbCapacity t) = true) :
    tlbWf ((insertTranslation r t m a b s).tlbOf t) (tlbCapacity t) = true := by
  have tlbOf_withTlb : ∀ (u : State) (l : Tlb), (u.withTlb t l).tlbOf t = l := by intros; cases t <;> rfl
  have hcap : 0 < tlbCapacity t := by cases t <;> exact Nat.succ_pos _
  have hkey : ∀ e w, entryKey (fillEntry m w e) = entryKey e := by intros; cases m <;> rfl
  simp only [insertTranslation, allocate]
  cases hf : tlbFind (s.tlbOf t) (tlbKey (s.getSR (segReg a)) (pageOf (s.getGR b))) with
  | some e =>
    simp only [tlbOf_withTlb]
    refine tlbWf_tlbPut _ h (.inr ?_)
    rw [hkey, tlbFind_key hf, hf]
    rfl
  | none =>
    have hroom : ∀ d, State.tlbOf { s.withTlb t (makeRoom t (s.tlbOf t) s) with draws := d } t =
        makeRoom t (s.tlbOf t) s := by intros; cases t <;> rfl
    have hm : tlbWf (makeRoom t (s.tlbOf t) s) (tlbCapacity t) = true ∧
        (makeRoom t (s.tlbOf t) s).length < tlbCapacity t := by
      have hl : (s.tlbOf t).length ≤ tlbCapacity t := by
        simp only [tlbWf, Bool.and_eq_true, decide_eq_true_eq] at h
        exact h.2
      rw [makeRoom]
      split
      · rename_i hfull
        have hpos : 0 < (s.tlbOf t).length := by omega
        refine ⟨tlbWf_sublist (List.eraseIdx_sublist _ _) h, ?_⟩
        rw [List.length_eraseIdx_of_lt (Nat.mod_lt _ hpos)]
        omega
      · exact ⟨h, by omega⟩
    simp only [tlbOf_withTlb, hroom]
    exact tlbWf_tlbPut _ hm.1 (.inl hm.2)

/-- PCA changes the two flag lists at most, by dropping entries. -/
theorem purgeCache_done {t f : Bool} {pa : Word} {s u : State} (h : purgeCache t f pa s = .done u) :
    ∃ p q, u = { s with needsFlush := s.needsFlush.filter p, needsPurge := s.needsPurge.filter q } := by
  have all : ∀ l : List Nat, l = l.filter fun _ => true := by simp
  simp only [purgeCache] at h
  split_ifs at h <;> cases h
  · exact ⟨fun _ => true, fun _ => true, by rw [← all, ← all]⟩
  · exact ⟨fun a => !inLine pa a, fun _ => true, by rw [← all]; rfl⟩
  · exact ⟨fun _ => true, fun a => !(inLine pa a && !s.needsFlush.contains a), by rw [← all]; rfl⟩

end Sys2Proof.Laws
end

