-- ==== Sys2Proof/Laws/Frame.lean ====
section
/-! SUPPORT. What an instruction can do, said once for all of them: the effect of each constructor up to the values it
computes, and the inversion of `exec`. A proof about every instruction cites `exec_effect` and splits on `Effect`. -/

namespace Sys2Proof.Laws

open Sys2Proof Sys2Proof.Machine

/-! ### Shapes of effects -/

/-- One general register is written; a value may have been drawn from the environment. -/
def RegisterEffect (r : GReg) (s t : State) : Prop :=
  ∃ d e v, t = ({ s with draws := d, envTrace := e }.setGR r v).retire

/-- The effect of ADD and SUB: a general register, and ST.CB unless L is set. -/
def SumEffect (r : GReg) (l : Bool) (s t : State) : Prop :=
  ∃ d e v cb, (l = true → cb = s.st.cb) ∧
    t = ({ s with draws := d, envTrace := e, st := { s.st with cb := cb } }.setGR r v).retire

/-- Every flag of a stored word that is set stays set. -/
def KeepsFlags (s : State) (f g : List Nat) : Prop := (∀ k ∈ s.needsFlush, k ∈ f) ∧ ∀ k ∈ s.needsPurge, k ∈ g

/-- A store of the given width at an address that `admits` holds of: no byte outside is changed, no flag is cleared. -/
def StoreEffect (w : Width) (s : State) (admits : Word → Prop) (t : State) : Prop :=
  ∃ pa m e f g rv, admits pa ∧
    t = { s with mem := m, envTrace := e, needsFlush := f, needsPurge := g, resv := rv }.retire ∧ KeepsFlags s f g ∧
    ∀ a : Nat, a < pa.toNat ∨ pa.toNat + widthBytes w ≤ a → m.byte a = s.mem.byte a

/-- Only the instruction address moves. -/
def JumpEffect (s t : State) : Prop := ∃ a, t = { s with iaOfs := a }

/-- The instruction address moves and a general register is written. -/
def LinkEffect (r : GReg) (s t : State) : Prop := ∃ a v, t = { s.setGR r v with iaOfs := a }

/-- The effect of an instruction that does not trap. -/
def Effect : Instr → State → State → Prop
  | .ldwReg r _ _ _, s, t | .ldhReg r _ _ _, s, t | .ldbReg r _ _ _, s, t | .ldwOfs r _ _ _, s, t
  | .ldhOfs r _ _ _, s, t | .ldbOfs r _ _ _, s, t => RegisterEffect r s t
  | .ldwa r _ _, s, t | .ldwax r _ _, s, t | .ldpa r _ _ _, s, t => s.st.x = false ∧ RegisterEffect r s t
  | .ldil r _, s, t | .addil r _, s, t | .ldo r _, s, t | .and r _ _ _, s, t | .or r _ _ _, s, t
  | .xor r _ _ _, s, t | .cmp r _ _, s, t | .cmr r _ _ _, s, t | .extr r _ _ _ _ _, s, t
  | .dep r _ _ _ _ _ _, s, t | .dsr r _ _ _ _, s, t | .shla r _ _ _ _ _ _, s, t | .lsid r _, s, t
  | .prb r _ _ _ _, s, t | .mr r _ false _ _, s, t => RegisterEffect r s t
  | .mr r z true m x, s, t => (s.st.x && privilegedTarget m x) = false ∧
      t = if m then (writeCR (specialCR x) (if z then 0#32 else s.getGR r) s).retire
        else (s.setSR (specialSR x) (if z then 0#32 else s.getGR r)).retire
  | .stw _ base seg ofs, s, t =>
    StoreEffect .word s (fun pa => dataAddress true .word seg (indexedOffset base ofs s) s = .done pa) t
  | .sth _ base seg ofs, s, t =>
    StoreEffect .half s (fun pa => dataAddress true .half seg (indexedOffset base ofs s) s = .done pa) t
  | .stb _ base seg ofs, s, t =>
    StoreEffect .byte s (fun pa => dataAddress true .byte seg (indexedOffset base ofs s) s = .done pa) t
  | .stwa _ ofs b, s, t => s.st.x = false ∧ StoreEffect .word s (fun pa => pa = absoluteOffset b ofs s) t
  | .ldwr r _ _ _, s, t => ∃ d e v rv, t = ({ s with draws := d, envTrace := e, resv := rv }.setGR r v).retire
  | .stwc r base seg ofs, s, t => ∃ pa m e f g v d,
      dataAddress true .word seg (indexedOffset base ofs s) s = .done pa ∧
      t = ({ s with mem := m, envTrace := e, needsFlush := f, needsPurge := g, resv := none, draws := d }.setGR r v).retire ∧
      KeepsFlags s f g ∧ ∀ a : Nat, a < pa.toNat ∨ pa.toNat + 4 ≤ a → m.byte a = s.mem.byte a
  | .b _, s, t | .br _, s, t | .bv _, s, t | .bvr _ _, s, t | .cbr _ _ _ _, s, t | .tbr _ _ _, s, t => JumpEffect s t
  | .bl r _, s, t | .blr r _, s, t => LinkEffect r s t
  | .gate r _, s, t => ∃ a v, t = { s.setGR r v with iaOfs := a, st := { s.st with x := gateLevel s } }
  | .be _ a _, s, t => ∃ o, t = { s with iaSeg := externalSegment a s, iaOfs := o }
  | .ble _ a _, s, t =>
    ∃ o v, t = { (s.setSR 0#3 s.iaSeg).setGR 0#4 v with iaSeg := externalSegment a s, iaOfs := o }
  | .add r _ l _ _, s, t | .sub r _ l _ _, s, t => SumEffect r l s t
  | .mst r _, s, t => s.st.x = false ∧ ∃ v b, t = { s.setGR r v with st := setStatusMask s.st b }.retire
  | .itlb _ q _ _ _, s, t | .ptlb q _ _, s, t => s.st.x = false ∧ ∃ l d, t = { s.withTlb q l with draws := d }.retire
  | .pca _ _ _ _, s, t => s.st.x = false ∧
      ∃ p q, t = { s with needsFlush := s.needsFlush.filter p, needsPurge := s.needsPurge.filter q }.retire
  | .rfi, s, t => s.st.x = false ∧ t = trapReturn s
  | .diag _ _ _, _, _ => False
  | .brk _ _, _, _ => False

/-! ### The effects of the shared meanings -/

theorem load_effect {w : Width} {r : GReg} {seg : BitVec 2} {x : Word} {s t : State}
    (h : load w r seg x s = .done t) : RegisterEffect r s t := by
  obtain ⟨pa, v, u, -, h2, rfl⟩ := load_done.mp h
  obtain ⟨d, e, rfl⟩ := sameButEnv_iff.mp (physRead_sameButEnv h2)
  exact ⟨d, e, v, rfl⟩

theorem loadAbsolute_effect {r : GReg} {x : Word} {s t : State}
    (h : loadAbsolute r x s = .done t) : RegisterEffect r s t := by
  obtain ⟨-, -, v, u, h2, rfl⟩ := loadAbsolute_done.mp h
  obtain ⟨d, e, rfl⟩ := sameButEnv_iff.mp (physRead_sameButEnv h2)
  exact ⟨d, e, v, rfl⟩

theorem fetchOperand_effect {r : GReg} {opd : Operand} {x y : Word} {s t : State}
    (h : fetchOperand r opd s = .done (x, y, t)) : ∃ d e, t = { s with draws := d, envTrace := e } :=
  sameButEnv_iff.mp (fetchOperand_sameButEnv h)

theorem physWrite_effect {pa : Word} {w : Width} {v : Word} {s t : State} (h : physWrite pa w v s = .done t) :
    ∃ m e f g rv, t = { s with mem := m, envTrace := e, needsFlush := f, needsPurge := g, resv := rv } ∧
      KeepsFlags s f g ∧ ∀ a : Nat, a < pa.toNat ∨ pa.toNat + widthBytes w ≤ a → m.byte a = s.mem.byte a := by
  have ho := physWrite_byte_outside h
  have hk : KeepsFlags s (addAddr s.needsFlush (wordOf pa).toNat) (addAddr s.needsPurge (wordOf pa).toNat) :=
    ⟨fun _ hk => mem_addAddr hk, fun _ hk => mem_addAddr hk⟩
  rcases physWrite_done.mp h with ⟨-, rfl⟩ | ⟨-, -, rfl⟩
  · exact ⟨_, _, _, _, _, rfl, hk, ho⟩
  · exact ⟨_, _, _, _, _, rfl, hk, ho⟩

theorem store_effect {w : Width} {r : GReg} {seg : BitVec 2} {x : Word} {s t : State}
    (h : store w r seg x s = .done t) : StoreEffect w s (fun pa => dataAddress true w seg x s = .done pa) t := by
  obtain ⟨pa, u, h1, h2, rfl⟩ := store_done.mp h
  obtain ⟨m, e, f, g, rv, rfl, h3⟩ := physWrite_effect h2
  exact ⟨pa, m, e, f, g, rv, h1, rfl, h3⟩

theorem logical_effect {op r n c opd s t} (h : logical op r n c opd s = .done t) : RegisterEffect r s t := by
  obtain ⟨x, y, u, h1, rfl⟩ := logical_done.mp h
  obtain ⟨d, e, rfl⟩ := fetchOperand_effect h1
  exact ⟨d, e, _, rfl⟩

theorem writeFieldResult_effect {fits r v s t} (h : writeFieldResult fits r v s = .done t) : RegisterEffect r s t := by
  obtain ⟨-, rfl⟩ := writeFieldResult_done.mp h
  exact ⟨s.draws, s.envTrace, v, rfl⟩

theorem setCarry_effect (r : GReg) (l cb : Bool) (s : State) (d e v) :
    SumEffect r l s (setCarry l cb ({ s with draws := d, envTrace := e }.setGR r v)).retire := by
  cases l
  · exact ⟨d, e, v, cb, (fun h => by cases h), rfl⟩
  · exact ⟨d, e, v, s.st.cb, (fun _ => rfl), rfl⟩

/-! ### The inversion of exec -/

/-- What an instruction can do: it takes a trap, entered from the state before it, or has its effect. -/
theorem exec_effect (i : Instr) (s t : State) (h : exec i s = .next t) : IsTrapEntryFrom s t ∨ Effect i s t := by
  cases i
  case ldwReg | ldhReg | ldbReg | ldwOfs | ldhOfs | ldbOfs =>
    rcases conclude_next.mp h with h | ⟨p, -, h⟩
    · exact .inr (load_effect h)
    · exact .inl ⟨p, h⟩
  case stw | sth | stb =>
    rcases conclude_next.mp h with h | ⟨p, -, h⟩
    · exact .inr (store_effect h)
    · exact .inl ⟨p, h⟩
  case ldwr =>
    rcases conclude_next.mp h with h | ⟨p, -, h⟩
    · obtain ⟨pa, v, u, -, h2, rfl⟩ := loadReserved_done.mp h
      obtain ⟨d, e, rfl⟩ := sameButEnv_iff.mp (physRead_sameButEnv h2)
      exact .inr ⟨d, e, v, some pa, rfl⟩
    · exact .inl ⟨p, h⟩
  case stwc =>
    rcases conclude_next.mp h with h | ⟨p, -, h⟩
    · obtain ⟨pa, h1, h2⟩ := bind_done.mp h
      rcases storeConditional_done.mp h2 with ⟨-, u, h3, rfl⟩ | ⟨-, rfl⟩
      · obtain ⟨m, e, f, g, rv, rfl, h4⟩ := physWrite_effect h3
        exact .inr ⟨pa, m, e, f, g, _, _, h1, rfl, h4⟩
      · exact .inr ⟨pa, s.mem, s.envTrace, s.needsFlush, s.needsPurge, _, _, h1, rfl, ⟨fun _ h => h, fun _ h => h⟩,
          fun _ _ => rfl⟩
    · exact .inl ⟨p, h⟩
  case ldwa | ldwax =>
    rcases conclude_next.mp h with h | ⟨p, -, h⟩
    · exact .inr ⟨(loadAbsolute_done.mp h).1, loadAbsolute_effect h⟩
    · exact .inl ⟨p, h⟩
  case stwa r o b =>
    rcases conclude_next.mp h with h | ⟨p, -, h⟩
    · obtain ⟨h1, h⟩ := privileged_done.mp h
      obtain ⟨pa, h2, h⟩ := bind_done.mp h
      obtain ⟨u, h3, h⟩ := bind_done.mp h
      obtain ⟨m, e, f, g, rv, rfl, h4⟩ := physWrite_effect h3
      cases h
      exact .inr ⟨h1, pa, m, e, f, g, rv, (plainAddress_done.mp h2).2, rfl, h4⟩
    · exact .inl ⟨p, h⟩
  case ldil | addil | dsr | lsid => cases h; exact .inr ⟨s.draws, s.envTrace, _, rfl⟩
  case ldo =>
    rcases conclude_next.mp h with h | ⟨p, -, h⟩
    · obtain ⟨v, -, h⟩ := bind_done.mp h
      cases h; exact .inr ⟨s.draws, s.envTrace, _, rfl⟩
    · exact .inl ⟨p, h⟩
  case b | br | bv | bvr => cases h; exact .inr ⟨_, rfl⟩
  case bl | blr => cases h; exact .inr ⟨_, _, rfl⟩
  case be => cases h; exact .inr ⟨_, rfl⟩
  case ble => cases h; exact .inr ⟨_, _, rfl⟩
  case gate => cases h; exact .inr ⟨_, _, rfl⟩
  case cbr | tbr =>
    cases h
    unfold branchIf
    split
    · exact .inr ⟨_, rfl⟩
    · exact .inr ⟨_, rfl⟩
  case add r c l o opd | sub r c l o opd =>
    rcases conclude_next.mp h with h | ⟨p, -, h⟩
    · obtain ⟨⟨x, y, u⟩, h1, h⟩ := bind_done.mp h
      obtain ⟨d, e, rfl⟩ := fetchOperand_effect h1
      dsimp only at h
      split at h
      · cases h
      · cases h
        exact .inr (setCarry_effect _ _ _ _ _ _ _)
    · exact .inl ⟨p, h⟩
  case and | or | xor =>
    rcases conclude_next.mp h with h | ⟨p, -, h⟩
    · exact .inr (logical_effect h)
    · exact .inl ⟨p, h⟩
  case cmp =>
    rcases conclude_next.mp h with h | ⟨p, -, h⟩
    · obtain ⟨⟨x, y, u⟩, h1, h⟩ := bind_done.mp h
      obtain ⟨d, e, rfl⟩ := fetchOperand_effect h1
      cases h
      exact .inr ⟨d, e, _, rfl⟩
    · exact .inl ⟨p, h⟩
  case cmr r cond a b =>
    cases h
    split
    · exact .inr ⟨s.draws, s.envTrace, _, rfl⟩
    · refine .inr ⟨s.draws, s.envTrace, s.getGR r, ?_⟩
      have : s.setGR r (s.getGR r) = s := by simp [State.setGR, State.getGR]
      exact (congrArg State.retire this).symm
  case extr | dep =>
    rcases conclude_next.mp h with h | ⟨p, -, h⟩
    · exact .inr (writeFieldResult_effect h)
    · exact .inl ⟨p, h⟩
  case shla =>
    rcases conclude_next.mp h with h | ⟨p, -, h⟩
    · split at h <;> cases h
      exact .inr ⟨s.draws, s.envTrace, _, rfl⟩
    · exact .inl ⟨p, h⟩
  case mr r z d m x =>
    cases d
    · cases h
      obtain ⟨v, u, h1, h2⟩ := moveFromSpecial_eq r z m x s
      obtain ⟨d, e, rfl⟩ := sameButEnv_iff.mp h1
      rw [h2]
      exact .inr ⟨d, e, v, rfl⟩
    · rcases conclude_next.mp h with h | ⟨p, -, h⟩
      · exact .inr (moveToSpecial_done.mp h)
      · exact .inl ⟨p, h⟩
  case mst =>
    rcases conclude_next.mp h with h | ⟨p, -, h⟩
    · obtain ⟨h1, h⟩ := privileged_done.mp h
      obtain ⟨v, -, h⟩ := bind_done.mp h
      cases h
      exact .inr ⟨h1, _, v, rfl⟩
    · exact .inl ⟨p, h⟩
  case ldpa =>
    rcases conclude_next.mp h with h | ⟨p, -, h⟩
    · obtain ⟨h1, h⟩ := privileged_done.mp h
      obtain ⟨v, -, h⟩ := bind_done.mp h
      cases h
      exact .inr ⟨h1, s.draws, s.envTrace, _, rfl⟩
    · exact .inl ⟨p, h⟩
  case prb =>
    rcases conclude_next.mp h with h | ⟨p, -, h⟩
    · obtain ⟨pl, -, h⟩ := bind_done.mp h
      obtain ⟨v, -, h⟩ := bind_done.mp h
      cases h
      exact .inr ⟨s.draws, s.envTrace, _, rfl⟩
    · exact .inl ⟨p, h⟩
  case itlb r q m a b =>
    rcases conclude_next.mp h with h | ⟨p, -, h⟩
    · obtain ⟨h1, h⟩ := privileged_done.mp h
      cases h
      obtain ⟨l, d, h⟩ := insertTranslation_eq r q m a b s
      rw [h]
      exact .inr ⟨h1, l, d, rfl⟩
    · exact .inl ⟨p, h⟩
  case ptlb q a b =>
    rcases conclude_next.mp h with h | ⟨p, -, h⟩
    · obtain ⟨h1, h⟩ := privileged_done.mp h
      cases h
      refine .inr ⟨h1, tlbRemove (s.tlbOf q) (tlbKey (s.getSR (segReg a)) (pageOf (s.getGR b))), s.draws, ?_⟩
      cases q <;> rfl
    · exact .inl ⟨p, h⟩
  case pca =>
    rcases conclude_next.mp h with h | ⟨p, -, h⟩
    · obtain ⟨h1, h⟩ := privileged_done.mp h
      obtain ⟨pa, -, h⟩ := bind_done.mp h
      obtain ⟨u, h2, h⟩ := bind_done.mp h
      cases h
      obtain ⟨p, q, rfl⟩ := purgeCache_done h2
      exact .inr ⟨h1, p, q, rfl⟩
    · exact .inl ⟨p, h⟩
  case diag =>
    rcases conclude_next.mp h with h | ⟨p, -, h⟩
    · obtain ⟨h1, h⟩ := privileged_done.mp h
      cases h
    · exact .inl ⟨p, h⟩
  case rfi =>
    rcases conclude_next.mp h with h | ⟨p, -, h⟩
    · obtain ⟨h1, h⟩ := privileged_done.mp h
      cases h; exact .inr ⟨h1, rfl⟩
    · exact .inl ⟨p, h⟩
  case brk => exact .inl ⟨_, h⟩

end Sys2Proof.Laws
end

