-- ==== Sys2Proof/Laws/PerInstr.lean ====
section
/-! SUPPORT. One lemma per instruction: the word the encoder gives a well-formed instruction has every bit clear that
30_encoding.md R149 marks 0. -/

namespace Sys2Proof.Laws

open Sys2Proof

-- sequential elaboration: many proofs unfold the same large definitions at once
set_option Elab.async false

/-- The family: the encoded word of a well-formed instruction has no reserved bit set. -/
def EncodeReserved.Statement (i : Instr) : Prop := i.wf = true → encode i &&& reservedMask (encode i) = 0#32

theorem EncodeReserved.ldwReg (r : GReg) (seg : BitVec 2) (a b : GReg) :
    EncodeReserved.Statement (.ldwReg r seg a b) := by
  intro _
  simp [encode, reservedMask, opcodeOf, opcode, field_place_same, field_place_disjoint, or_and_mask,
    opModeOf_or_encodeOperand, field_encodeOperand_high, and_loadArgMask, encodeOperand_loadArg, and_or_mask]
  simp [place_and_mask]
  simp [field]
  exact encodeOperand_and_high _ _ (by decide)

theorem EncodeReserved.ldwOfs (r : GReg) (base : BitVec 3) (seg : BitVec 2) (ofs : BitVec 12) :
    EncodeReserved.Statement (.ldwOfs r base seg ofs) := by
  intro _
  simp [encode, reservedMask, opcodeOf, opcode, field_place_same, field_place_disjoint, or_and_mask,
    opModeOf_or_encodeOperand, field_encodeOperand_high, and_loadArgMask, encodeOperand_loadArg, and_or_mask]
  simp [place_and_mask]
  simp [field]
  exact encodeOperand_and_high _ _ (by decide)

theorem EncodeReserved.ldhReg (r : GReg) (seg : BitVec 2) (a b : GReg) :
    EncodeReserved.Statement (.ldhReg r seg a b) := by
  intro _
  simp [encode, reservedMask, opcodeOf, opcode, field_place_same, field_place_disjoint, or_and_mask,
    opModeOf_or_encodeOperand, field_encodeOperand_high, and_loadArgMask, encodeOperand_loadArg, and_or_mask]
  simp [place_and_mask]
  simp [field]
  exact encodeOperand_and_high _ _ (by decide)

theorem EncodeReserved.ldhOfs (r : GReg) (base : BitVec 3) (seg : BitVec 2) (ofs : BitVec 12) :
    EncodeReserved.Statement (.ldhOfs r base seg ofs) := by
  intro _
  simp [encode, reservedMask, opcodeOf, opcode, field_place_same, field_place_disjoint, or_and_mask,
    opModeOf_or_encodeOperand, field_encodeOperand_high, and_loadArgMask, encodeOperand_loadArg, and_or_mask]
  simp [place_and_mask]
  simp [field]
  exact encodeOperand_and_high _ _ (by decide)

theorem EncodeReserved.ldbReg (r : GReg) (seg : BitVec 2) (a b : GReg) :
    EncodeReserved.Statement (.ldbReg r seg a b) := by
  intro _
  simp [encode, reservedMask, opcodeOf, opcode, field_place_same, field_place_disjoint, or_and_mask,
    opModeOf_or_encodeOperand, field_encodeOperand_high, and_loadArgMask, encodeOperand_loadArg, and_or_mask]
  simp [place_and_mask]
  simp [field]
  exact encodeOperand_and_high _ _ (by decide)

theorem EncodeReserved.ldbOfs (r : GReg) (base : BitVec 3) (seg : BitVec 2) (ofs : BitVec 12) :
    EncodeReserved.Statement (.ldbOfs r base seg ofs) := by
  intro _
  simp [encode, reservedMask, opcodeOf, opcode, field_place_same, field_place_disjoint, or_and_mask,
    opModeOf_or_encodeOperand, field_encodeOperand_high, and_loadArgMask, encodeOperand_loadArg, and_or_mask]
  simp [place_and_mask]
  simp [field]
  exact encodeOperand_and_high _ _ (by decide)

theorem EncodeReserved.stw (r : GReg) (base : BitVec 3) (seg : BitVec 2) (ofs : BitVec 12) :
    EncodeReserved.Statement (.stw r base seg ofs) := by
  intro _
  simp [encode, reservedMask, opcodeOf, opcode, field_place_same, field_place_disjoint, or_and_mask,
    field_encodeOperand_high]
  simp [place_and_mask]
  simp [field]
  exact encodeOperand_and_high _ _ (by decide)

theorem EncodeReserved.sth (r : GReg) (base : BitVec 3) (seg : BitVec 2) (ofs : BitVec 12) :
    EncodeReserved.Statement (.sth r base seg ofs) := by
  intro _
  simp [encode, reservedMask, opcodeOf, opcode, field_place_same, field_place_disjoint, or_and_mask,
    field_encodeOperand_high]
  simp [place_and_mask]
  simp [field]
  exact encodeOperand_and_high _ _ (by decide)

theorem EncodeReserved.stb (r : GReg) (base : BitVec 3) (seg : BitVec 2) (ofs : BitVec 12) :
    EncodeReserved.Statement (.stb r base seg ofs) := by
  intro _
  simp [encode, reservedMask, opcodeOf, opcode, field_place_same, field_place_disjoint, or_and_mask,
    field_encodeOperand_high]
  simp [place_and_mask]
  simp [field]
  exact encodeOperand_and_high _ _ (by decide)

theorem EncodeReserved.ldwr (r : GReg) (base : BitVec 3) (seg : BitVec 2) (ofs : BitVec 12) :
    EncodeReserved.Statement (.ldwr r base seg ofs) := by
  intro _
  simp [encode, reservedMask, opcodeOf, opcode, field_place_same, field_place_disjoint, or_and_mask,
    field_encodeOperand_high]
  simp [place_and_mask]
  simp [field]
  exact encodeOperand_and_high _ _ (by decide)

theorem EncodeReserved.stwc (r : GReg) (base : BitVec 3) (seg : BitVec 2) (ofs : BitVec 12) :
    EncodeReserved.Statement (.stwc r base seg ofs) := by
  intro _
  simp [encode, reservedMask, opcodeOf, opcode, field_place_same, field_place_disjoint, or_and_mask,
    field_encodeOperand_high]
  simp [place_and_mask]
  simp [field]
  exact encodeOperand_and_high _ _ (by decide)

theorem EncodeReserved.ldwa (r : GReg) (ofs : BitVec 18) (b : GReg) : EncodeReserved.Statement (.ldwa r ofs b) := by
  intro _
  simp [encode, reservedMask, opcodeOf, opcode, field_place_same, field_place_disjoint]

theorem EncodeReserved.ldwax (r a b : GReg) : EncodeReserved.Statement (.ldwax r a b) := by
  intro _
  simp [encode, reservedMask, opcodeOf, opcode, field_place_same, field_place_disjoint, or_and_mask]
  simp [place_and_mask]
  simp [field]

theorem EncodeReserved.stwa (r : GReg) (ofs : BitVec 18) (b : GReg) : EncodeReserved.Statement (.stwa r ofs b) := by
  intro _
  simp [encode, reservedMask, opcodeOf, opcode, field_place_same, field_place_disjoint]

theorem EncodeReserved.ldil (r : GReg) (val : BitVec 22) : EncodeReserved.Statement (.ldil r val) := by
  intro _
  simp [encode, reservedMask, opcodeOf, opcode, field_place_same, field_place_disjoint]

theorem EncodeReserved.addil (r : GReg) (val : BitVec 22) : EncodeReserved.Statement (.addil r val) := by
  intro _
  simp [encode, reservedMask, opcodeOf, opcode, field_place_same, field_place_disjoint]

theorem EncodeReserved.ldo (r : GReg) (opd : Operand) : EncodeReserved.Statement (.ldo r opd) := by
  intro _
  simp [encode, reservedMask, opcodeOf, opcode, field_place_same, field_place_disjoint, or_and_mask,
    field_encodeOperand_high]
  simp [place_and_mask]
  simp [field]
  exact encodeOperand_and_high _ _ (by decide)

theorem EncodeReserved.b (ofs : BitVec 22) : EncodeReserved.Statement (.b ofs) := by
  intro _
  simp [encode, reservedMask, opcodeOf, opcode, field_place_same, field_place_disjoint, or_and_mask]
  simp [place_and_mask]
  simp [field]

theorem EncodeReserved.bl (r : GReg) (ofs : BitVec 22) : EncodeReserved.Statement (.bl r ofs) := by
  intro _
  simp [encode, reservedMask, opcodeOf, opcode, field_place_same, field_place_disjoint]

theorem EncodeReserved.br (b : GReg) : EncodeReserved.Statement (.br b) := by
  intro _
  simp [encode, reservedMask, opcodeOf, opcode, field_place_same, field_place_disjoint, or_and_mask]
  simp [place_and_mask]
  simp [field]

theorem EncodeReserved.blr (r b : GReg) : EncodeReserved.Statement (.blr r b) := by
  intro _
  simp [encode, reservedMask, opcodeOf, opcode, field_place_same, field_place_disjoint, or_and_mask]
  simp [place_and_mask]
  simp [field]

theorem EncodeReserved.bv (b : GReg) : EncodeReserved.Statement (.bv b) := by
  intro _
  simp [encode, reservedMask, opcodeOf, opcode, field_place_same, field_place_disjoint, or_and_mask]
  simp [place_and_mask]
  simp [field]

theorem EncodeReserved.bvr (a b : GReg) : EncodeReserved.Statement (.bvr a b) := by
  intro _
  simp [encode, reservedMask, opcodeOf, opcode, field_place_same, field_place_disjoint, or_and_mask]
  simp [place_and_mask]
  simp [field]

theorem EncodeReserved.be (ofs : BitVec 18) (a : BitVec 4) (b : GReg) : EncodeReserved.Statement (.be ofs a b) := by
  intro h
  simp [encode, reservedMask, opcodeOf, opcode, field_place_same, field_place_disjoint, or_and_mask]
  simp [place_and_mask]
  simp [field, segFieldOk_and a h]

theorem EncodeReserved.ble (ofs : BitVec 18) (a : BitVec 4) (b : GReg) : EncodeReserved.Statement (.ble ofs a b) := by
  intro h
  simp [encode, reservedMask, opcodeOf, opcode, field_place_same, field_place_disjoint, or_and_mask]
  simp [place_and_mask]
  simp [field, segFieldOk_and a h]

theorem EncodeReserved.gate (r : GReg) (ofs : BitVec 22) : EncodeReserved.Statement (.gate r ofs) := by
  intro _
  simp [encode, reservedMask, opcodeOf, opcode, field_place_same, field_place_disjoint]

theorem EncodeReserved.cbr (cond : CmpCond) (ofs : BitVec 15) (a b : GReg) :
    EncodeReserved.Statement (.cbr cond ofs a b) := by
  intro _
  simp [encode, reservedMask, opcodeOf, opcode, field_place_same, field_place_disjoint]

theorem EncodeReserved.tbr (cond : TestCond) (ofs : BitVec 15) (b : GReg) :
    EncodeReserved.Statement (.tbr cond ofs b) := by
  intro _
  simp [encode, reservedMask, opcodeOf, opcode, field_place_same, field_place_disjoint, or_and_mask]
  simp [place_and_mask]
  simp [field]

theorem EncodeReserved.add (r : GReg) (c l o : Bool) (opd : Operand) :
    EncodeReserved.Statement (.add r c l o opd) := by
  intro _
  simp [encode, reservedMask, opcodeOf, opcode, field_place_same, field_place_disjoint, field_placeFlag_disjoint,
    or_and_mask, opModeOf_or_encodeOperand, field_encodeOperand_high, and_opArgMask, encodeOperand_reserved]

theorem EncodeReserved.sub (r : GReg) (c l o : Bool) (opd : Operand) :
    EncodeReserved.Statement (.sub r c l o opd) := by
  intro _
  simp [encode, reservedMask, opcodeOf, opcode, field_place_same, field_place_disjoint, field_placeFlag_disjoint,
    or_and_mask, opModeOf_or_encodeOperand, field_encodeOperand_high, and_opArgMask, encodeOperand_reserved]

theorem EncodeReserved.and (r : GReg) (n c : Bool) (opd : Operand) : EncodeReserved.Statement (.and r n c opd) := by
  intro _
  simp [encode, reservedMask, opcodeOf, opcode, field_place_same, field_place_disjoint, field_placeFlag_disjoint,
    or_and_mask, opModeOf_or_encodeOperand, field_encodeOperand_high, and_opArgMask, encodeOperand_reserved, and_or_mask]
  simp [place_and_mask, placeFlag]
  simp [field]
  exact encodeOperand_and_high _ _ (by decide)

theorem EncodeReserved.or (r : GReg) (n c : Bool) (opd : Operand) : EncodeReserved.Statement (.or r n c opd) := by
  intro _
  simp [encode, reservedMask, opcodeOf, opcode, field_place_same, field_place_disjoint, field_placeFlag_disjoint,
    or_and_mask, opModeOf_or_encodeOperand, field_encodeOperand_high, and_opArgMask, encodeOperand_reserved, and_or_mask]
  simp [place_and_mask, placeFlag]
  simp [field]
  exact encodeOperand_and_high _ _ (by decide)

theorem EncodeReserved.xor (r : GReg) (n c : Bool) (opd : Operand) : EncodeReserved.Statement (.xor r n c opd) := by
  intro _
  simp [encode, reservedMask, opcodeOf, opcode, field_place_same, field_place_disjoint, field_placeFlag_disjoint,
    or_and_mask, opModeOf_or_encodeOperand, field_encodeOperand_high, and_opArgMask, encodeOperand_reserved, and_or_mask]
  simp [place_and_mask, placeFlag]
  simp [field]
  exact encodeOperand_and_high _ _ (by decide)

theorem EncodeReserved.cmp (r : GReg) (cond : CmpCond) (opd : Operand) :
    EncodeReserved.Statement (.cmp r cond opd) := by
  intro _
  simp [encode, reservedMask, opcodeOf, opcode, field_place_same, field_place_disjoint, or_and_mask,
    opModeOf_or_encodeOperand, field_encodeOperand_high, and_opArgMask, encodeOperand_reserved]

theorem EncodeReserved.cmr (r : GReg) (cond : TestCond) (a b : GReg) :
    EncodeReserved.Statement (.cmr r cond a b) := by
  intro _
  simp [encode, reservedMask, opcodeOf, opcode, field_place_same, field_place_disjoint, or_and_mask]
  simp [place_and_mask]
  simp [field]

theorem EncodeReserved.extr (r : GReg) (s a : Bool) (len pos : BitVec 5) (b : GReg) :
    EncodeReserved.Statement (.extr r s a len pos b) := by
  intro _
  simp [encode, reservedMask, opcodeOf, opcode, field_place_same, field_place_disjoint, field_placeFlag_disjoint,
    or_and_mask]
  simp [place_and_mask, placeFlag]
  simp [field]

theorem EncodeReserved.dep (r : GReg) (z a i : Bool) (len pos : BitVec 5) (b : GReg) :
    EncodeReserved.Statement (.dep r z a i len pos b) := by
  intro _
  simp [encode, reservedMask, opcodeOf, opcode, field_place_same, field_place_disjoint, field_placeFlag_disjoint,
    or_and_mask]
  simp [place_and_mask, placeFlag]
  simp [field]

theorem EncodeReserved.dsr (r : GReg) (a : Bool) (shamt : BitVec 5) (ra rb : GReg) :
    EncodeReserved.Statement (.dsr r a shamt ra rb) := by
  intro _
  simp [encode, reservedMask, opcodeOf, opcode, field_place_same, field_place_disjoint, field_placeFlag_disjoint,
    or_and_mask]
  simp [place_and_mask, placeFlag]
  simp [field]

theorem EncodeReserved.shla (r : GReg) (z l o : Bool) (sa : BitVec 2) (a b : GReg) :
    EncodeReserved.Statement (.shla r z l o sa a b) := by
  intro _
  simp [encode, reservedMask, opcodeOf, opcode, field_place_same, field_place_disjoint, field_placeFlag_disjoint,
    or_and_mask]
  simp [place_and_mask, placeFlag]
  simp [field]

theorem EncodeReserved.lsid (r b : GReg) : EncodeReserved.Statement (.lsid r b) := by
  intro _
  simp [encode, reservedMask, opcodeOf, opcode, field_place_same, field_place_disjoint, or_and_mask]
  simp [place_and_mask]
  simp [field]

theorem EncodeReserved.mr (r : GReg) (z d m : Bool) (s : BitVec 6) : EncodeReserved.Statement (.mr r z d m s) := by
  intro h
  cases m
  · have h := specialFieldOk_sr s h
    simp [encode, reservedMask, opcodeOf, opcode, field_place_same, field_place_disjoint, field_placeFlag_disjoint,
      or_and_mask, flag_placeFlag_same, flag_placeFlag_disjoint, flag_place_disjoint]
    simp [place_and_mask, placeFlag]
    simp [field, h]
  · have h := specialFieldOk_cr s h
    simp [encode, reservedMask, opcodeOf, opcode, field_place_same, field_place_disjoint, field_placeFlag_disjoint,
      or_and_mask, flag_placeFlag_same, flag_placeFlag_disjoint, flag_place_disjoint]
    simp [place_and_mask, placeFlag]
    simp [field, h]

theorem EncodeReserved.mst (r : GReg) (mode : MstMode) : EncodeReserved.Statement (.mst r mode) := by
  intro _
  cases mode
  all_goals
    simp [encode, reservedMask, opcodeOf, opcode, field_place_same, field_place_disjoint, or_and_mask, encodeMst]
    simp [place_and_mask]
    simp [field]

theorem EncodeReserved.ldpa (r : GReg) (seg : BitVec 2) (a : BitVec 4) (b : GReg) :
    EncodeReserved.Statement (.ldpa r seg a b) := by
  intro h
  simp [encode, reservedMask, opcodeOf, opcode, field_place_same, field_place_disjoint, or_and_mask]
  simp [place_and_mask]
  simp [field, segFieldOk_and a h]

theorem EncodeReserved.prb (r : GReg) (seg : BitVec 2) (m : Bool) (a : BitVec 4) (b : GReg) :
    EncodeReserved.Statement (.prb r seg m a b) := by
  intro h
  simp [encode, reservedMask, opcodeOf, opcode, field_place_same, field_place_disjoint, field_placeFlag_disjoint,
    or_and_mask]
  simp [place_and_mask, placeFlag]
  simp [field, segFieldOk_and a h]

theorem EncodeReserved.itlb (r : GReg) (t m : Bool) (a : BitVec 4) (b : GReg) :
    EncodeReserved.Statement (.itlb r t m a b) := by
  intro h
  simp [encode, reservedMask, opcodeOf, opcode, field_place_same, field_place_disjoint, field_placeFlag_disjoint,
    or_and_mask]
  simp [place_and_mask, placeFlag]
  simp [field, segFieldOk_and a h]

theorem EncodeReserved.ptlb (t : Bool) (a : BitVec 4) (b : GReg) : EncodeReserved.Statement (.ptlb t a b) := by
  intro h
  simp [encode, reservedMask, opcodeOf, opcode, field_place_same, field_place_disjoint, field_placeFlag_disjoint,
    or_and_mask]
  simp [place_and_mask, placeFlag]
  simp [field, segFieldOk_and a h]

theorem EncodeReserved.pca (t f : Bool) (a : BitVec 4) (b : GReg) : EncodeReserved.Statement (.pca t f a b) := by
  intro h
  simp [encode, reservedMask, opcodeOf, opcode, field_place_same, field_place_disjoint, field_placeFlag_disjoint,
    or_and_mask]
  simp [place_and_mask, placeFlag]
  simp [field, segFieldOk_and a h]

theorem EncodeReserved.diag (r a b : GReg) : EncodeReserved.Statement (.diag r a b) := by
  intro _
  simp [encode, reservedMask, opcodeOf, opcode, field_place_same, field_place_disjoint, or_and_mask]
  simp [place_and_mask]
  simp [field]

theorem EncodeReserved.rfi : EncodeReserved.Statement (.rfi) := by
  intro _
  simp [encode, reservedMask, opcodeOf, opcode, field_place_same]
  simp [place_and_mask]
  simp [field]

theorem EncodeReserved.brk (info1 : BitVec 4) (info2 : BitVec 16) : EncodeReserved.Statement (.brk info1 info2) := by
  intro _
  simp [encode, reservedMask, opcodeOf, opcode, field_place_disjoint, or_and_mask]
  simp [place_and_mask]
  simp [field]

end Sys2Proof.Laws
end

