-- ==== Sys2Proof/Machine/Run.lean ====
section
/-! DEFINITION. When a run ends (00_scope.md R19): the document has no halt, wait or stop instruction and no host
interface, so the model takes the convention of the spec's own programs (spec/92_eei_decisions.md D43,
notes/assumptions/18.md). -/

namespace Sys2Proof.Machine

/-- A run has ended: IA-OFS is the designated address, and the instruction there (a BRK in the spec's programs) has not
executed. DESIGN CHOICE (notes/assumptions/18.md). -/
def runEnded (stop : Word) (s : State) : Bool := decide (s.iaOfs = stop)

/-- A run up to its end: at most `fuel` steps, none from a state in which the run has ended; a fault or a refusal stops
it. -/
def runUntil (stop : Word) (fuel : Nat) (s : State) : Host.Outcome State Fault Refusal :=
  match fuel with
  | 0 => .next s
  | n + 1 =>
    if runEnded stop s then .next s
    else
      match step s with
      | .next t => runUntil stop n t
      | .fault f => .fault f
      | .refused r => .refused r

end Sys2Proof.Machine
end

