-- ==== Sys2Proof/Laws/Run.lean ====
section
/-! SUPPORT. What a run can do: nothing once it has ended, else one step and the rest of the run. -/

namespace Sys2Proof.Laws

open Sys2Proof Sys2Proof.Machine

/-- A run that has ended takes no step, whatever its fuel. -/
theorem runUntil_ended {stop : Word} {s : State} (fuel : Nat) (h : runEnded stop s = true) :
    runUntil stop fuel s = .next s := by
  cases fuel with
  | zero => rfl
  | succ n => simp [runUntil, h]

/-- A run that has not ended goes on from the state after one step. -/
theorem runUntil_next {stop : Word} {s t : State} (fuel : Nat) (h : runEnded stop s = false) (hs : step s = .next t) :
    runUntil stop (fuel + 1) s = runUntil stop fuel t := by
  simp [runUntil, h, hs]

end Sys2Proof.Laws
end

