-- ==== Sys2Proof/Tests/Slice0.lean ====
section
/-! SUPPORT. Tests: ill-formed terms refused, the decoding of a written-out word for every constructor, one step on small
states with the values of spec/95_test_vectors.md, and for each statement with hypotheses a state that meets them. -/

namespace Sys2Proof.Tests

open Sys2Proof Sys2Proof.Machine

set_option Elab.async false

/-! ### WellFormed: a term that no word can hold is refused (30_encoding.md R146, R149) -/

theorem test_wf_segment_field : (segFieldOk 8#4, segFieldOk 7#4) = (false, true) := by decide

theorem test_wf_special_field :
    (specialFieldOk true 32#6, specialFieldOk true 31#6, specialFieldOk false 8#6, specialFieldOk false 7#6) =
      (false, true, false, true) := by decide

theorem test_wf_be : (Instr.be 0#18 8#4 0#4).wf = false := by decide

theorem test_wf_ble : (Instr.ble 0#18 15#4 0#4).wf = false := by decide

theorem test_wf_mr_control : (Instr.mr 0#4 false true true 32#6).wf = false := by decide

theorem test_wf_mr_segment : (Instr.mr 0#4 false false false 8#6).wf = false := by decide

theorem test_wf_ldpa : (Instr.ldpa 1#4 0#2 8#4 2#4).wf = false := by decide

theorem test_wf_prb : (Instr.prb 1#4 0#2 false 8#4 2#4).wf = false := by decide

theorem test_wf_itlb : (Instr.itlb 1#4 true false 8#4 2#4).wf = false := by decide

/-- LDO has mode 0 and modes 8 to 31 only (30_encoding.md R143). -/
theorem test_wf_ldo :
    ((Instr.ldo 1#4 (.reg 2#4)).wf, (Instr.ldo 1#4 (.mode7 0#14)).wf, (Instr.ldo 1#4 (.imm 1#14)).wf) =
      (false, false, true) := by decide

theorem test_wf_ptlb : (Instr.ptlb true 8#4 2#4).wf = false := by decide

theorem test_wf_pca : (Instr.pca true false 8#4 2#4).wf = false := by decide

/-! ### Words from their fields (30_encoding.md R149), a word of every layout -/

/-- LDW R1, 8(R9): opcode, r, zero, base mode 01, base 1, segment 0, offset 8 sign-last. -/
theorem test_bits_ldw : (0x18#6 ++ 1#4 ++ 0#3 ++ 1#2 ++ 1#3 ++ 0#2 ++ (8#11 ++ 0#1) : BitVec 32) = 0x60424010#32 := by
  decide

/-- AND.C R9, 0xFF: opcode, r, N, C, zero, mode 0, the immediate sign-last. -/
theorem test_bits_and : (0x12#6 ++ 9#4 ++ 0#1 ++ 1#1 ++ 0#1 ++ 0#5 ++ (0xFF#13 ++ 0#1) : BitVec 32) = 0x4A5001FE#32 := by
  decide

/-- LDIL R8, 8: opcode, r, the 22 bits. -/
theorem test_bits_ldil : (0x02#6 ++ 8#4 ++ 8#22 : BitVec 32) = 0x0A000008#32 := by decide

/-- CBR.LT R1, R2, +5: opcode, condition, offset sign-last, a, b. -/
theorem test_bits_cbr : (0x29#6 ++ 1#3 ++ (5#14 ++ 0#1) ++ 1#4 ++ 2#4 : BitVec 32) = 0xA4800A12#32 := by decide

/-- BE -1(SR1, R7): opcode, offset -1 sign-last, a, b. -/
theorem test_bits_be : (0x26#6 ++ (0x1FFFF#17 ++ 1#1) ++ 1#4 ++ 7#4 : BitVec 32) = 0x9BFFFF17#32 := by decide

/-- EXTR.S R11, R10 with 8 bits at 8: opcode, r, S, A, zeros, length, position, b. -/
theorem test_bits_extr :
    (0x04#6 ++ 11#4 ++ 1#1 ++ 0#1 ++ 0#6 ++ 8#5 ++ 8#5 ++ 10#4 : BitVec 32) = 0x12E0108A#32 := by decide

/-- MR CR16, R1: opcode, r, Z, D, M, zeros, the register. -/
theorem test_bits_mr : (0x09#6 ++ 1#4 ++ 0#1 ++ 1#1 ++ 1#1 ++ 0#13 ++ 16#6 : BitVec 32) = 0x24580010#32 := by decide

/-- ITLB.A R1, (SR1, R2) on the data TLB: opcode, r, T, M, zeros, a, b. -/
theorem test_bits_itlb : (0x32#6 ++ 1#4 ++ 1#1 ++ 0#1 ++ 0#12 ++ 1#4 ++ 2#4 : BitVec 32) = 0xC8600012#32 := by decide

/-! ### Decoding: one word of the spec's examples for every constructor -/

/-- LDW R2, R3(R4). -/
theorem test_decode_ldw_register : decode 0x60810034#32 = .ok (.ldwReg 2#4 0#2 3#4 4#4) := by decide

/-- LDW R1, -4(SR2, R10). -/
theorem test_decode_ldw : decode 0x6042AFF9#32 = .ok (.ldwOfs 1#4 2#3 2#2 0xFF9#12) := by decide

/-- LDH R3, R4(R5). -/
theorem test_decode_ldh_register : decode 0x60C14045#32 = .ok (.ldhReg 3#4 0#2 4#4 5#4) := by decide

/-- LDH R3, 2(R9). -/
theorem test_decode_ldh : decode 0x60C44004#32 = .ok (.ldhOfs 3#4 1#3 0#2 0x004#12) := by decide

/-- LDB R3, R4(SR1, R5), mode 6. -/
theorem test_decode_ldb_register : decode 0x60C19045#32 = .ok (.ldbReg 3#4 1#2 4#4 5#4) := by decide

/-- LDB R7, 1(R9). -/
theorem test_decode_ldb : decode 0x61C64002#32 = .ok (.ldbOfs 7#4 1#3 0#2 0x002#12) := by decide

/-- STW 8(R9), R7. -/
theorem test_decode_stw : decode 0x65C24010#32 = .ok (.stw 7#4 1#3 0#2 0x010#12) := by decide

/-- STH 2(R8), R1. -/
theorem test_decode_sth : decode 0x64440004#32 = .ok (.sth 1#4 0#3 0#2 0x004#12) := by decide

/-- STB -1(R15), R2. -/
theorem test_decode_stb : decode 0x6487CFFF#32 = .ok (.stb 2#4 7#3 0#2 0xFFF#12) := by decide

/-- LDWR R1, 0(R8). -/
theorem test_decode_ldwr : decode 0x68420000#32 = .ok (.ldwr 1#4 0#3 0#2 0#12) := by decide

/-- STWC 0(R8), R1. -/
theorem test_decode_stwc : decode 0x6C420000#32 = .ok (.stwc 1#4 0#3 0#2 0#12) := by decide

/-- LDWA R1, -4(R2). -/
theorem test_decode_ldwa : decode 0xF07FFF92#32 = .ok (.ldwa 1#4 0x3FFF9#18 2#4) := by decide

/-- LDWAX R1, R3(R2). -/
theorem test_decode_ldwax : decode 0xF4400032#32 = .ok (.ldwax 1#4 3#4 2#4) := by decide

/-- STWA 8(R2), R1. -/
theorem test_decode_stwa : decode 0xF8400102#32 = .ok (.stwa 1#4 0x00010#18 2#4) := by decide

/-- LDIL R1, 0x3FFFFF. -/
theorem test_decode_ldil : decode 0x087FFFFF#32 = .ok (.ldil 1#4 0x3FFFFF#22) := by decide

/-- ADDIL R11, 0x49. -/
theorem test_decode_addil : decode 0x0EC00049#32 = .ok (.addil 11#4 0x49#22) := by decide

/-- LDO R1, 8191. -/
theorem test_decode_ldo_immediate : decode 0x70403FFE#32 = .ok (.ldo 1#4 (.imm 0x3FFE#14)) := by decide

/-- LDO R2, 0x278(R10). -/
theorem test_decode_ldo_indexed : decode 0x708284F0#32 = .ok (.ldo 2#4 (.indexed .word 2#3 0#2 0x4F0#12)) := by decide

/-- B -1. -/
theorem test_decode_b : decode 0x803FFFFF#32 = .ok (.b 0x3FFFFF#22) := by decide

/-- BL R3, +3. -/
theorem test_decode_bl : decode 0x84C00006#32 = .ok (.bl 3#4 6#22) := by decide

/-- BR R4. -/
theorem test_decode_br : decode 0x88000004#32 = .ok (.br 4#4) := by decide

/-- BLR R2, R4. -/
theorem test_decode_blr : decode 0x8C800004#32 = .ok (.blr 2#4 4#4) := by decide

/-- BV R3. -/
theorem test_decode_bv : decode 0x90000003#32 = .ok (.bv 3#4) := by decide

/-- BVR R5, R6. -/
theorem test_decode_bvr : decode 0x94000065#32 = .ok (.bvr 6#4 5#4) := by decide

/-- BE -1(SR1, R7). -/
theorem test_decode_be : decode 0x9BFFFF17#32 = .ok (.be 0x3FFFF#18 1#4 7#4) := by decide

/-- BLE 0(SR6, R9). -/
theorem test_decode_ble : decode 0x9C000069#32 = .ok (.ble 0#18 6#4 9#4) := by decide

/-- GATE R1, +2. -/
theorem test_decode_gate : decode 0xA0400004#32 = .ok (.gate 1#4 4#22) := by decide

/-- CBR.HI R3, R4, -2. -/
theorem test_decode_cbr : decode 0xA7FFFD34#32 = .ok (.cbr .hi 0x7FFD#15 3#4 4#4) := by decide

/-- TBR.NE R2, -3. -/
theorem test_decode_tbr : decode 0xAA7FFB02#32 = .ok (.tbr .ne 0x7FFB#15 2#4) := by decide

/-- ADD.LO R3, R1, R2. -/
theorem test_decode_add : decode 0x40D88012#32 = .ok (.add 3#4 false true true (.regs 1#4 2#4)) := by decide

/-- ADDH R1, 2(R9). -/
theorem test_decode_add_half : decode 0x40444004#32 = .ok (.add 1#4 false false false (.indexed .half 1#3 0#2 0x004#12)) := by decide

/-- SUB R7, R3 in mode 1. -/
theorem test_decode_sub : decode 0x45C04003#32 = .ok (.sub 7#4 false false false (.reg 3#4)) := by decide

/-- AND.N R3, R1, R2. -/
theorem test_decode_and : decode 0x48E08012#32 = .ok (.and 3#4 true false (.regs 1#4 2#4)) := by decide

/-- OR.N R8, R3 in mode 1. -/
theorem test_decode_or : decode 0x4E204003#32 = .ok (.or 8#4 true false (.reg 3#4)) := by decide

/-- XOR.C R1, 0. -/
theorem test_decode_xor : decode 0x50500000#32 = .ok (.xor 1#4 false true (.imm 0#14)) := by decide

/-- CMP.HI R5, R1, R3. -/
theorem test_decode_cmp : decode 0x55788013#32 = .ok (.cmp 5#4 .hi (.regs 1#4 3#4)) := by decide

/-- CMR.EV R6, R1, R5. -/
theorem test_decode_cmr : decode 0x21980015#32 = .ok (.cmr 6#4 .ev 1#4 5#4) := by decide

/-- EXTR R1, R2 with 1 bit at 31. -/
theorem test_decode_extr : decode 0x104003F2#32 = .ok (.extr 1#4 false false 1#5 31#5 2#4) := by decide

/-- DEP.Z.I R1, 15 with 4 bits at 28. -/
theorem test_decode_dep : decode 0x146809CF#32 = .ok (.dep 1#4 true false true 4#5 28#5 15#4) := by decide

/-- DSR with amount 31. -/
theorem test_decode_dsr : decode 0x18403E32#32 = .ok (.dsr 1#4 false 31#5 3#4 2#4) := by decide

/-- SHLA.L.O R5, R4, R6, 2. -/
theorem test_decode_shla : decode 0x1D580446#32 = .ok (.shla 5#4 false true true 2#2 4#4 6#4) := by decide

/-- LSID R1, R2. -/
theorem test_decode_lsid : decode 0x04400002#32 = .ok (.lsid 1#4 2#4) := by decide

/-- MR CR2, R3. -/
theorem test_decode_mr : decode 0x24D80002#32 = .ok (.mr 3#4 false true true 2#6) := by decide

/-- MST R5, R3. -/
theorem test_decode_mst_replace : decode 0x29400003#32 = .ok (.mst 5#4 (.replace 3#4)) := by decide

/-- MST.S R0, 2. -/
theorem test_decode_mst_set : decode 0x28100002#32 = .ok (.mst 0#4 (.set 2#6)) := by decide

/-- LDPA R1, (SR1, R2). -/
theorem test_decode_ldpa : decode 0xC0500002#32 = .ok (.ldpa 1#4 1#2 0#4 2#4) := by decide

/-- PRB R1, (R2), M = 1. -/
theorem test_decode_prb : decode 0xC4480002#32 = .ok (.prb 1#4 0#2 true 0#4 2#4) := by decide

/-- ITLB.P R1, (SR1, R2), T = 1. -/
theorem test_decode_itlb : decode 0xC8700012#32 = .ok (.itlb 1#4 true true 1#4 2#4) := by decide

/-- PTLB (SR1, R2), T = 1. -/
theorem test_decode_ptlb : decode 0xCC200012#32 = .ok (.ptlb true 1#4 2#4) := by decide

/-- PCA (SR1, R2), T = 1, F = 1. -/
theorem test_decode_pca : decode 0xD0300012#32 = .ok (.pca true true 1#4 2#4) := by decide

/-- DIAG R1, R2, R3. -/
theorem test_decode_diag : decode 0xD4400023#32 = .ok (.diag 1#4 2#4 3#4) := by decide

/-- RFI. -/
theorem test_decode_rfi : decode 0xFC000000#32 = .ok (.rfi) := by decide

/-- BRK 1, 0x1234. -/
theorem test_decode_brk : decode 0x00401234#32 = .ok (.brk 1#4 0x1234#16) := by decide

theorem test_decode_reserved_field : decode 0x88400004#32 = .error .reservedField := by decide

theorem test_decode_unassigned : decode 0x2C000000#32 = .error .unassignedOpcode := by decide

theorem test_decode_load_mode : decode 0x60400000#32 = .error .illegalOpMode := by decide

/-- The bytes of a word lie most significant first (20_memory.md R70). -/
theorem test_decode_table_word : decodeTableWord 32 0x8C800004 = some (.blr 2#4 4#4) := by decide

theorem test_decode_table_word_refused : decodeTableWord 32 0x2C000000 = none := by decide

/-! ### One step, with the values of spec/95_test_vectors.md -/

/-- The machine of the vectors: at 0x1000, CR16 = 0x4000, and these general registers. -/
def machine (gr : List (GReg × Word)) : State :=
  gr.foldl (fun s p => s.setGR p.1 p.2) (State.reset.setCR 16#5 0x4000#32)

/-- The state after one step on the instruction word `w`, if there is a next state. -/
def after (w : Word) (s : State) : Option State :=
  match step (s.withFetchWord 32 w.toNat) with
  | .next t => some t
  | _ => none

/-- Why one step on the instruction word `w` is refused, if it is. -/
def refusal (w : Word) (s : State) : Option Refusal :=
  match step (s.withFetchWord 32 w.toNat) with
  | .refused r => some r
  | _ => none

/-- A valid TLB entry with a protection word. -/
def page (seg : Word) (vpn ppn : BitVec 20) (prot : Word) : TlbEntry :=
  { seg := seg, vpn := vpn, v := true, addr := { cpuId := 0#4, bank := 0#4, ppn := ppn }, prot := protOfWord prot }

/-- The data pages of section 4.1 of the vectors. -/
def dataPages : Tlb :=
  [page 7#32 1#20 0x345#20 0x07000000#32, page 7#32 2#20 0x346#20 0x06000000#32, page 7#32 3#20 0x347#20 0x00000000#32,
    page 7#32 4#20 0x348#20 0x47000000#32, page 7#32 5#20 0x349#20 0x07000024#32, page 7#32 6#20 0x34A#20 0x0E000000#32]

/-- The code pages of section 4.6. -/
def codePages : Tlb :=
  [page 5#32 1#20 0x101#20 0x0A000000#32, page 5#32 2#20 0x102#20 0x08000000#32, page 5#32 3#20 0x103#20 0x0B000000#32,
    page 5#32 4#20 0x104#20 0x07000000#32, page 5#32 6#20 0x106#20 0x0E000000#32, page 5#32 7#20 0x107#20 0x0C000000#32]

/-- The segment registers, data TLB and memory of section 4.1. -/
def paged (s : State) : State :=
  { ((s.setSR 4#3 0#32).setSR 5#3 7#32).setSR 1#3 7#32 with
    dtlb := dataPages, mem := Memory.write s.mem 0x345234 .word 0xCAFEBABE#32 }

/-! ### Memory reference (vectors M, D) -/

/-- M1 of spec/95_test_vectors.md. -/
theorem test_ldw : (after 0x60424010#32
    { machine [(9#4, 0x3000#32)] with mem := Memory.write [] 0x3008 .word 0x11a2f3c4#32 }).map
    (fun t => (t.getGR 1#4, t.iaOfs)) = some (0x11a2f3c4#32, 0x1004#32) := by decide

/-- M4 of spec/95_test_vectors.md. -/
theorem test_ldw_register_indexed : (after 0x60810034#32
    { machine [(3#4, 0x1000#32), (4#4, 0x2000#32)] with mem := Memory.write [] 0x3000 .word 0x11a2f3c4#32 }).map
    (fun t => (t.getGR 2#4, t.iaOfs)) = some (0x11a2f3c4#32, 0x1004#32) := by decide

/-- M2 of spec/95_test_vectors.md. -/
theorem test_ldb : (after 0x61C64002#32
    { machine [(9#4, 0x3000#32)] with mem := Memory.write [] 0x3000 .word 0x11a2f3c4#32 }).map
    (fun t => (t.getGR 7#4, t.iaOfs)) = some (0xa2#32, 0x1004#32) := by decide

/-- M3 of spec/95_test_vectors.md. -/
theorem test_ldh_register_indexed : (after 0x60C14045#32
    { machine [(4#4, 0x2#32), (5#4, 0x3000#32)] with mem := Memory.write [] 0x3000 .word 0x11a2f3c4#32 }).map
    (fun t => (t.getGR 3#4, t.iaOfs)) = some (0xf3c4#32, 0x1004#32) := by decide

/-- M10 of spec/95_test_vectors.md. -/
theorem test_stw : (after 0x65C24010#32
    (machine [(9#4, 0x3000#32), (7#4, 0x232#32)])).map
    (fun t => (t.mem.read 0x3008 .word, t.iaOfs)) = some (0x232#32, 0x1004#32) := by decide

/-- M11 of spec/95_test_vectors.md. -/
theorem test_sth_keeps_other_half : (after 0x64440004#32
    { machine [(8#4, 0x2000#32), (1#4, 0xaabbccdd#32)] with mem := Memory.write [] 0x2000 .word 0x11223344#32 }).map
    (fun t => (t.mem.read 0x2000 .word, t.iaOfs)) = some (0x1122ccdd#32, 0x1004#32) := by decide

/-- M12 of spec/95_test_vectors.md. -/
theorem test_stb_low_byte : (after 0x6487CFFF#32
    { machine [(15#4, 0x2001#32), (2#4, 0x1ff#32)] with mem := Memory.write [] 0x2000 .word 0x11223344#32 }).map
    (fun t => (t.mem.read 0x2000 .word, t.iaOfs)) = some (0xff223344#32, 0x1004#32) := by decide

/-- M15 of spec/95_test_vectors.md. -/
theorem test_ldwa_negative_offset : (after 0xF07FFF92#32
    { machine [(2#4, 0x2004#32)] with mem := Memory.write [] 0x2000 .word 0x7#32 }).map
    (fun t => (t.getGR 1#4, t.iaOfs)) = some (0x7#32, 0x1004#32) := by decide

/-- M16 of spec/95_test_vectors.md. -/
theorem test_ldwa_user_traps : (after 0xF07FFF92#32
    { machine [(2#4, 0x2004#32)] with st := { Status.zero with x := true }, mem := Memory.write [] 0x2000 .word 0x7#32 }).map
    (fun t => (t.iaOfs, t.getCR 19#5, t.getCR 20#5)) = some (0x40c0#32, 0x1000#32, 0xF07FFF92#32) := by decide

/-- M17 of spec/95_test_vectors.md. -/
theorem test_ldwax : (after 0xF4400032#32
    { machine [(2#4, 0x2000#32), (3#4, 0x8#32)] with mem := Memory.write [] 0x2008 .word 0x9#32 }).map
    (fun t => (t.getGR 1#4, t.iaOfs)) = some (0x9#32, 0x1004#32) := by decide

/-- M18 of spec/95_test_vectors.md. -/
theorem test_stwa : (after 0xF8400102#32
    (machine [(2#4, 0x2000#32), (1#4, 0xdeadbeef#32)])).map
    (fun t => (t.mem.read 0x2008 .word, t.iaOfs)) = some (0xdeadbeef#32, 0x1004#32) := by decide

/-- M20 of spec/95_test_vectors.md. -/
theorem test_ldwr_reserves : (after 0x68420000#32
    { machine [(8#4, 0x2000#32)] with mem := Memory.write [] 0x2000 .word 0x55#32 }).map
    (fun t => (t.getGR 1#4, t.iaOfs, t.resv)) = some (0x55#32, 0x1004#32, some 0x2000#32) := by decide

/-- M21 of spec/95_test_vectors.md. -/
theorem test_stwc_without_reservation : (after 0x6C420000#32
    { machine [(8#4, 0x2000#32), (1#4, 0x9#32)] with mem := Memory.write [] 0x2000 .word 0x55#32 }).map
    (fun t => (t.getGR 1#4, t.iaOfs)) = some (0x1#32, 0x1004#32) := by decide

/-- D6 of spec/95_test_vectors.md. -/
theorem test_stw_access_rights : (after 0x64824000#32
    { paged (machine [(9#4, 0x40002000#32)]) with st := { Status.zero with d := true, x := true } }).map
    (fun t => (t.iaOfs, t.getCR 19#5, t.getCR 20#5, t.getCR 21#5, t.getCR 22#5)) = some (0x41c0#32, 0x1000#32, 0x64824000#32, 0x7#32, 0x2000#32) := by decide

/-- D12 of spec/95_test_vectors.md. -/
theorem test_ldw_traps_in_order : (after 0x60424004#32
    { paged (machine [(9#4, 0x40004000#32)]) with st := { Status.zero with d := true } }).map
    (fun t => (t.iaOfs, t.getCR 19#5, t.getCR 20#5, t.getCR 21#5, t.getCR 22#5)) = some (0x4200#32, 0x1000#32, 0x60424004#32, 0x7#32, 0x4002#32) := by decide

/-- D17 of spec/95_test_vectors.md. -/
theorem test_ldh_translated : (after 0x6044446C#32
    { paged (machine [(9#4, 0x40001000#32)]) with st := { Status.zero with d := true, x := true } }).map
    (fun t => (t.getGR 1#4, t.iaOfs)) = some (0xbabe#32, 0x1004#32) := by decide

/-! ### Immediate (vectors I) -/

/-- I1 of spec/95_test_vectors.md. -/
theorem test_ldil : (after 0x087FFFFF#32
    (machine [])).map
    (fun t => (t.getGR 1#4, t.iaOfs)) = some (0xfffffc00#32, 0x1004#32) := by decide

/-- I3 of spec/95_test_vectors.md. -/
theorem test_addil_wraps : (after 0x0C7FFFFF#32
    (machine [(1#4, 0x7ff#32)])).map
    (fun t => (t.getGR 1#4, t.st.cb, t.iaOfs)) = some (0x3ff#32, false, 0x1004#32) := by decide

/-- I6 of spec/95_test_vectors.md. -/
theorem test_ldo_low_sign_extends : (after 0x70800001#32
    (machine [])).map
    (fun t => (t.getGR 2#4, t.iaOfs)) = some (0xffffe000#32, 0x1004#32) := by decide

/-- I7 of spec/95_test_vectors.md. -/
theorem test_ldo_adds_the_index : (after 0x72020008#32
    (machine [(8#4, 0x2000#32)])).map
    (fun t => (t.getGR 8#4, t.iaOfs)) = some (0x2004#32, 0x1004#32) := by decide

/-! ### Branch (vectors B, G) -/

/-- B2 of spec/95_test_vectors.md. -/
theorem test_b_backwards : (after 0x803FFFFF#32
    (machine [])).map
    (fun t => t.iaOfs) = some 0xffc#32 := by decide

/-- B4 of spec/95_test_vectors.md. -/
theorem test_bl_links : (after 0x84C00006#32
    { machine [] with iaOfs := 0x1004#32 }).map
    (fun t => (t.getGR 3#4, t.iaOfs)) = some (0x1008#32, 0x1010#32) := by decide

/-- B5 of spec/95_test_vectors.md. -/
theorem test_br_counts_words : (after 0x88000004#32
    (machine [(4#4, 0xfffffffe#32)])).map
    (fun t => t.iaOfs) = some 0xff8#32 := by decide

/-- B7 of spec/95_test_vectors.md. -/
theorem test_blr_reads_before_it_links : (after 0x8D000004#32
    (machine [(4#4, 0x8#32)])).map
    (fun t => (t.getGR 4#4, t.iaOfs)) = some (0x1004#32, 0x1020#32) := by decide

/-- B9 of spec/95_test_vectors.md. -/
theorem test_bv_drops_low_bits : (after 0x90000003#32
    (machine [(3#4, 0x100b#32)])).map
    (fun t => t.iaOfs) = some 0x1008#32 := by decide

/-- B10 of spec/95_test_vectors.md. -/
theorem test_bvr_scales : (after 0x94000065#32
    (machine [(5#4, 0x2000#32), (6#4, 0x3#32)])).map
    (fun t => t.iaOfs) = some 0x200c#32 := by decide

/-- B11 of spec/95_test_vectors.md. -/
theorem test_be_untranslated : (after 0x9BFFFF17#32
    (machine [(7#4, 0x4000#32)])).map
    (fun t => t.iaOfs) = some 0x3ffc#32 := by decide

/-- G6 of spec/95_test_vectors.md. -/
theorem test_be_translated : (after 0x9BFFFF17#32
    { (machine [(7#4, 0x4000#32)]).setSR 1#3 0x20#32 with st := { Status.zero with c := true }, itlb := codePages }).map
    (fun t => (t.iaOfs, t.iaSeg)) = some (0x3ffc#32, 0x20#32) := by decide

/-- B12 of spec/95_test_vectors.md. -/
theorem test_ble_untranslated : (after 0x9C000069#32
    (machine [(9#4, 0x8000#32)])).map
    (fun t => (t.getGR 0#4, t.getSR 0#3, t.iaOfs)) = some (0x1004#32, 0x0#32, 0x8000#32) := by decide

/-- G7 of spec/95_test_vectors.md. -/
theorem test_ble_translated : (after 0x9C000069#32
    { (machine [(9#4, 0x8000#32)]).setSR 6#3 0x9#32 with st := { Status.zero with c := true }, iaSeg := 0x5#32, itlb := codePages }).map
    (fun t => (t.getGR 0#4, t.getSR 0#3, t.iaOfs, t.iaSeg)) = some (0x1004#32, 0x5#32, 0x8000#32, 0x9#32) := by decide

/-- B13 of spec/95_test_vectors.md. -/
theorem test_gate_untranslated : (after 0xA0400004#32
    { machine [] with st := { Status.zero with x := true } }).map
    (fun t => (t.getGR 1#4, t.st.x, t.iaOfs)) = some (0x1#32, false, 0x1008#32) := by decide

/-- G3 of spec/95_test_vectors.md. -/
theorem test_gate_on_an_ordinary_page : (after 0xA0400004#32
    { machine [] with st := { Status.zero with x := true, c := true }, iaOfs := 0x1010#32, iaSeg := 0x5#32, itlb := codePages }).map
    (fun t => (t.getGR 1#4, t.st.x, t.iaOfs)) = some (0x1#32, true, 0x1018#32) := by decide

/-- B14 of spec/95_test_vectors.md. -/
theorem test_cbr_lt_is_signed : (after 0xA4800A12#32
    (machine [(1#4, 0xffffffff#32), (2#4, 0x0#32)])).map
    (fun t => t.iaOfs) = some 0x1014#32 := by decide

/-- B16 of spec/95_test_vectors.md. -/
theorem test_cbr_not_taken : (after 0xA7FFFD34#32
    (machine [(3#4, 0x5#32), (4#4, 0x5#32)])).map
    (fun t => t.iaOfs) = some 0x1004#32 := by decide

/-- B17 of spec/95_test_vectors.md. -/
theorem test_tbr_taken : (after 0xAA7FFB02#32
    { machine [(2#4, 0x3#32)] with iaOfs := 0x1018#32 }).map
    (fun t => t.iaOfs) = some 0x100c#32 := by decide

/-- B20 of spec/95_test_vectors.md. -/
theorem test_tbr_wraps : (after 0xA9800107#32
    (machine [(7#4, 0x2#32)])).map
    (fun t => t.iaOfs) = some 0xffff1000#32 := by decide

/-! ### Computational (vectors A, L, K, X) -/

/-- A2 of spec/95_test_vectors.md. -/
theorem test_add_carries_out : (after 0x40C08012#32
    (machine [(1#4, 0xffffffff#32), (2#4, 0x1#32)])).map
    (fun t => (t.getGR 3#4, t.st.cb, t.iaOfs)) = some (0x0#32, true, 0x1004#32) := by decide

/-- A4 of spec/95_test_vectors.md. -/
theorem test_add_signed_overflow_traps : (after 0x40C88012#32
    (machine [(1#4, 0x7fffffff#32), (2#4, 0x1#32)])).map
    (fun t => (t.iaOfs, t.getCR 19#5, t.getCR 20#5)) = some (0x4100#32, 0x1000#32, 0x40C88012#32) := by decide

/-- A14 of spec/95_test_vectors.md. -/
theorem test_sub_borrows : (after 0x44800002#32
    (machine [(2#4, 0x0#32)])).map
    (fun t => (t.getGR 2#4, t.st.cb, t.iaOfs)) = some (0xffffffff#32, true, 0x1004#32) := by decide

/-- A18 of spec/95_test_vectors.md. -/
theorem test_sub_unsigned_overflow_traps : (after 0x44D88012#32
    (machine [(1#4, 0x0#32), (2#4, 0x1#32)])).map
    (fun t => (t.iaOfs, t.getCR 19#5, t.getCR 20#5)) = some (0x4100#32, 0x1000#32, 0x44D88012#32) := by decide

/-- L2 of spec/95_test_vectors.md. -/
theorem test_and_complements_operand : (after 0x4A5001FE#32
    (machine [(9#4, 0x12345678#32)])).map
    (fun t => (t.getGR 9#4, t.iaOfs)) = some (0x12345600#32, 0x1004#32) := by decide

/-- L3 of spec/95_test_vectors.md. -/
theorem test_and_negates_result : (after 0x48E08012#32
    (machine [(1#4, 0xf0f0f0f0#32), (2#4, 0xff00ff00#32)])).map
    (fun t => (t.getGR 3#4, t.iaOfs)) = some (0xfff0fff#32, 0x1004#32) := by decide

/-- L4 of spec/95_test_vectors.md. -/
theorem test_or_mode_1_copies : (after 0x4D404006#32
    (machine [(6#4, 0x77#32)])).map
    (fun t => (t.getGR 5#4, t.iaOfs)) = some (0x77#32, 0x1004#32) := by decide

/-- L6 of spec/95_test_vectors.md. -/
theorem test_or_reads_a_byte : (after 0x4C464002#32
    { machine [(1#4, 0x100#32), (9#4, 0x3000#32)] with mem := Memory.write [] 0x3000 .word 0x11a2f3c4#32 }).map
    (fun t => (t.getGR 1#4, t.iaOfs)) = some (0x1a2#32, 0x1004#32) := by decide

/-- L8 of spec/95_test_vectors.md. -/
theorem test_xor : (after 0x50C08012#32
    (machine [(1#4, 0xf0f0f0f0#32), (2#4, 0xff00ff00#32)])).map
    (fun t => (t.getGR 3#4, t.iaOfs)) = some (0xff00ff0#32, 0x1004#32) := by decide

/-- L10 of spec/95_test_vectors.md. -/
theorem test_xor_complements_operand : (after 0x50500000#32
    (machine [(1#4, 0xffff#32)])).map
    (fun t => (t.getGR 1#4, t.iaOfs)) = some (0xffff0000#32, 0x1004#32) := by decide

/-- K2 of spec/95_test_vectors.md. -/
theorem test_cmp_lt_is_signed : (after 0x55488013#32
    (machine [(1#4, 0xffffffff#32), (3#4, 0x0#32)])).map
    (fun t => (t.getGR 5#4, t.iaOfs)) = some (0x1#32, 0x1004#32) := by decide

/-- K3 of spec/95_test_vectors.md. -/
theorem test_cmp_hi_is_unsigned : (after 0x55788013#32
    (machine [(1#4, 0xffffffff#32), (3#4, 0x0#32)])).map
    (fun t => (t.getGR 5#4, t.iaOfs)) = some (0x1#32, 0x1004#32) := by decide

/-- K8 of spec/95_test_vectors.md. -/
theorem test_cmr_keeps : (after 0x21A00015#32
    (machine [(6#4, 0x63#32), (1#4, 0x4#32), (5#4, 0x0#32)])).map
    (fun t => (t.getGR 6#4, t.iaOfs)) = some (0x63#32, 0x1004#32) := by decide

/-- K9 of spec/95_test_vectors.md. -/
theorem test_cmr_moves : (after 0x21A00015#32
    (machine [(6#4, 0x63#32), (1#4, 0x4#32), (5#4, 0x1#32)])).map
    (fun t => (t.getGR 6#4, t.iaOfs)) = some (0x4#32, 0x1004#32) := by decide

/-- X2 of spec/95_test_vectors.md. -/
theorem test_extr_sign_extends : (after 0x12E0108A#32
    (machine [(10#4, 0xf3c4#32)])).map
    (fun t => (t.getGR 11#4, t.iaOfs)) = some (0xfffffff3#32, 0x1004#32) := by decide

/-- X7 of spec/95_test_vectors.md. -/
theorem test_extr_position_from_shamt : (after 0x10500802#32
    ((machine [(2#4, 0x12345678#32)]).setCR 2#5 0x4#32)).map
    (fun t => (t.getGR 1#4, t.iaOfs)) = some (0x7#32, 0x1004#32) := by decide

/-- X8 of spec/95_test_vectors.md. -/
theorem test_dep_keeps_other_bits : (after 0x14400842#32
    (machine [(1#4, 0xffffffff#32), (2#4, 0x5#32)])).map
    (fun t => (t.getGR 1#4, t.iaOfs)) = some (0xffffff5f#32, 0x1004#32) := by decide

/-- X13 of spec/95_test_vectors.md. -/
theorem test_dep_reads_before_it_writes : (after 0x14401081#32
    (machine [(1#4, 0xab#32)])).map
    (fun t => (t.getGR 1#4, t.iaOfs)) = some (0xabab#32, 0x1004#32) := by decide

/-- X15 of spec/95_test_vectors.md. -/
theorem test_dsr_left_part_is_b : (after 0x18400832#32
    (machine [(2#4, 0x12345678#32), (3#4, 0x9abcdef0#32)])).map
    (fun t => (t.getGR 1#4, t.iaOfs)) = some (0x89abcdef#32, 0x1004#32) := by decide

/-- X20 of spec/95_test_vectors.md. -/
theorem test_dsr_amount_from_shamt : (after 0x18500032#32
    ((machine [(2#4, 0x12345678#32), (3#4, 0x9abcdef0#32)]).setCR 2#5 0x10#32)).map
    (fun t => (t.getGR 1#4, t.iaOfs)) = some (0x56789abc#32, 0x1004#32) := by decide

/-- X21 of spec/95_test_vectors.md. -/
theorem test_shla_adds : (after 0x1D400444#32
    (machine [(4#4, 0x5#32)])).map
    (fun t => (t.getGR 5#4, t.iaOfs)) = some (0x19#32, 0x1004#32) := by decide

/-- X28 of spec/95_test_vectors.md. -/
theorem test_shla_addition_overflow_traps : (after 0x1D480446#32
    (machine [(4#4, 0x10000000#32), (6#4, 0x40000000#32)])).map
    (fun t => (t.iaOfs, t.getCR 19#5, t.getCR 20#5)) = some (0x4100#32, 0x1000#32, 0x1D480446#32) := by decide

/-- X30 of spec/95_test_vectors.md. -/
theorem test_lsid_sr5 : (after 0x04400002#32
    (((((machine [(2#4, 0x40001000#32)]).setSR 4#3 0x10#32).setSR 5#3 0x11#32).setSR 6#3 0x12#32).setSR 7#3 0x13#32)).map
    (fun t => (t.getGR 1#4, t.iaOfs)) = some (0x11#32, 0x1004#32) := by decide

/-- X31 of spec/95_test_vectors.md. -/
theorem test_lsid_sr7 : (after 0x04400002#32
    (((((machine [(2#4, 0xc0000000#32)]).setSR 4#3 0x10#32).setSR 5#3 0x11#32).setSR 6#3 0x12#32).setSR 7#3 0x13#32)).map
    (fun t => (t.getGR 1#4, t.iaOfs)) = some (0x13#32, 0x1004#32) := by decide

/-! ### System control (vectors S, Q) -/

/-- S7 of spec/95_test_vectors.md. -/
theorem test_mr_shamt_keeps_five_bits : (after 0x24D80002#32
    { machine [(3#4, 0x123#32)] with st := { Status.zero with x := true } }).map
    (fun t => (t.getCR 2#5, t.iaOfs)) = some (0x3#32, 0x1004#32) := by decide

/-- S2 of spec/95_test_vectors.md. -/
theorem test_mr_user_traps : (after 0x24580010#32
    { machine [(1#4, 0x8000#32)] with st := { Status.zero with x := true } }).map
    (fun t => (t.iaOfs, t.getCR 19#5, t.getCR 20#5)) = some (0x40c0#32, 0x1000#32, 0x24580010#32) := by decide

/-- S11 of spec/95_test_vectors.md. -/
theorem test_mst_replaces : (after 0x29400003#32
    { machine [(3#4, 0xffffffc6#32)] with st := { Status.zero with e := true } }).map
    (fun t => (t.getGR 5#4, t.st.p, t.st.d, t.st.e, t.iaOfs)) = some (0x1#32, true, true, false, 0x1004#32) := by decide

/-- S13 of spec/95_test_vectors.md. -/
theorem test_mst_mode_3_traps : (after 0x28300000#32
    (machine [])).map
    (fun t => (t.iaOfs, t.getCR 19#5, t.getCR 20#5)) = some (0x40a0#32, 0x1000#32, 0x28300000#32) := by decide

/-- Q1 of spec/95_test_vectors.md. -/
theorem test_ldpa : (after 0xC0400002#32
    { paged (machine [(2#4, 0x40001234#32)]) with st := { Status.zero with d := true } }).map
    (fun t => (t.getGR 1#4, t.iaOfs)) = some (0x345234#32, 0x1004#32) := by decide

/-- Q3 of spec/95_test_vectors.md. -/
theorem test_ldpa_miss_traps : (after 0xC0400002#32
    { paged (machine [(2#4, 0x40009000#32)]) with st := { Status.zero with d := true } }).map
    (fun t => (t.iaOfs, t.getCR 19#5)) = some (0x41a0#32, 0x1000#32) := by decide

/-- Q7 of spec/95_test_vectors.md. -/
theorem test_prb_user_write : (after 0xC4480002#32
    { paged (machine [(1#4, 0x1#32), (2#4, 0x40002000#32)]) with st := { Status.zero with d := true, x := true } }).map
    (fun t => (t.getGR 1#4, t.iaOfs)) = some (0x0#32, 0x1004#32) := by decide

/-- Q8 of spec/95_test_vectors.md. -/
theorem test_prb_privileged_write : (after 0xC4480002#32
    { paged (machine [(1#4, 0x0#32), (2#4, 0x40002000#32)]) with st := { Status.zero with d := true, x := true } }).map
    (fun t => (t.getGR 1#4, t.iaOfs)) = some (0x1#32, 0x1004#32) := by decide

/-- S15 of spec/95_test_vectors.md. -/
theorem test_rfi : (after 0xFC000000#32
    ((((machine []).setCR 17#5 0x20080001#32).setCR 18#5 0x0#32).setCR 19#5 0x2003#32)).map
    (fun t => (t.st.x, t.st.cb, t.st.e, t.iaOfs)) = some (true, true, true, 0x2000#32) := by decide

/-- S16 of spec/95_test_vectors.md. -/
theorem test_rfi_user_traps : (after 0xFC000000#32
    { machine [] with st := { Status.zero with x := true } }).map
    (fun t => (t.iaOfs, t.getCR 19#5, t.getCR 20#5)) = some (0x40c0#32, 0x1000#32, 0xFC000000#32) := by decide

/-- S17 of spec/95_test_vectors.md. -/
theorem test_brk : (after 0x00400002#32
    (machine [])).map
    (fun t => (t.iaOfs, t.getCR 19#5, t.getCR 20#5)) = some (0x4240#32, 0x1000#32, 0x00400002#32) := by decide

/-- S21 of spec/95_test_vectors.md. -/
theorem test_diag_user_traps : (after 0xD4400023#32
    { machine [] with st := { Status.zero with x := true } }).map
    (fun t => (t.iaOfs, t.getCR 19#5, t.getCR 20#5)) = some (0x40c0#32, 0x1000#32, 0xD4400023#32) := by decide

/-- Mode 6 reads the byte at the sum of two registers. -/
theorem test_ldb_register_indexed : (after 0x60C18045#32
    { machine [(4#4, 0x3#32), (5#4, 0x3000#32)] with mem := Memory.write [] 0x3000 .word 0x11a2f3c4#32 }).map
    (fun t => t.getGR 3#4) = some 0xc4#32 := by decide

/-- T1: the address part alone leaves the entry invalid. -/
theorem test_itlb_address : (after 0xC8600012#32
    ((machine [(2#4, 0x1000#32), (1#4, 0x345#32)]).setSR 1#3 7#32)).map
    (fun t => t.dtlb.map fun e => (e.seg, e.vpn, e.v, e.addr)) =
      some [(7#32, 1#20, false, { cpuId := 0#4, bank := 0#4, ppn := 0x345#20 })] := by decide

/-- T5: a new address part keeps the protection part and clears V. -/
theorem test_itlb_address_again : (after 0xC8600012#32
    { (machine [(2#4, 0x1FFF#32), (1#4, 0x999#32)]).setSR 1#3 7#32 with dtlb := dataPages }).map
    (fun t => t.dtlb.head?) = some (some { page 7#32 1#20 0x999#20 0x07000000#32 with v := false }) := by decide

/-- T6. -/
theorem test_ptlb : (after 0xCC200012#32
    { (machine [(2#4, 0x1000#32)]).setSR 1#3 7#32 with dtlb := dataPages }).map
    (fun t => t.dtlb) = some dataPages.tail := by decide

/-- Program P6: the flush of a data line. -/
theorem test_pca_flush : (after 0xD0200012#32
    { machine [(2#4, 0x1030#32)] with needsFlush := [0x1030], needsPurge := [0x1030] }).map
    (fun t => (t.needsFlush, t.needsPurge)) = some ([], [0x1030]) := by decide

/-- Program P6, the two PCA in the other order: the instruction purge clears nothing. -/
theorem test_pca_purge_first : (after 0xD0000012#32
    { machine [(2#4, 0x1030#32)] with needsFlush := [0x1030], needsPurge := [0x1030] }).map
    (fun t => (t.needsFlush, t.needsPurge)) = some ([0x1030], [0x1030]) := by decide

/-- 41_immediate.md R205: an LDO word of mode 3 is illegal whatever its opArg holds. -/
theorem test_ldo_illegal_mode : (after 0x7040C001#32 (machine [])).map (fun t => (t.iaOfs, t.getCR 20#5)) =
    some (0x40A0#32, 0x7040C001#32) := by decide

/-- 44_system_control.md R288: a level above 1 is refused. -/
theorem test_prb_level_refused : refusal 0xC4480002#32 (machine [(1#4, 2#32)]) = some .probeLevel := by decide

/-- 43_computational.md R256: EXTR with len 0, and DEP with a field that reaches one bit past the register. -/
theorem test_unfit_field_refused :
    (refusal 0x12C0008A#32 (machine []), refusal 0x144005F1#32 (machine []), refusal 0x144003F1#32 (machine [])) =
      (some .bitField, some .bitField, none) := by decide

/-- 60_exceptions.md R341: a trap with a vector table base that is not page aligned is refused. -/
theorem test_unaligned_base_refused :
    (refusal 0x00400002#32 ((machine []).setCR 16#5 0x4004#32),
      refusal 0x00400002#32 ((machine []).setCR 16#5 0x5000#32)) = (some .vectorBase, none) := by decide

/-- 20_memory.md R120: a fetch from a word with a flag set is refused. -/
theorem test_stale_fetch_refused : step { State.reset with needsPurge := [0x1000] } = .refused .staleFetch := rfl

/-- 20_memory.md R78: an access that is neither installed memory nor I/O is refused. -/
theorem test_not_installed_refused : physRead 0xEFFFFFFF#32 .word State.reset = .refuse .memoryNotInstalled := rfl

/-- S22. -/
theorem test_diag_refused : refusal 0xD4400023#32 (machine []) = some .diagCommand := by decide

/-! ### Fetch, asynchronous traps and the interface -/

/-- F3: the fetch from a user page demotes the level. -/
theorem test_fetch_demotes : (after 0x4C000000#32
    { machine [] with iaSeg := 5#32, iaOfs := 0x3010#32, st := { Status.zero with c := true }, itlb := codePages }).map
    (fun t => (t.st.x, t.iaOfs)) = some (true, 0x3014#32) := by decide

/-- F4. -/
theorem test_fetch_page_type : (after 0x4C000000#32
    { machine [] with iaSeg := 5#32, iaOfs := 0x4010#32, st := { Status.zero with c := true }, itlb := codePages }).map
    (fun t => (t.iaOfs, t.getCR 18#5, t.getCR 19#5)) = some (0x4160#32, 5#32, 0x4010#32) := by decide

/-- E1. -/
theorem test_external_interrupt : (after 0x4C000000#32
    { (machine []).setCR 23#5 1#32 with extIrq := 1#32, st := { Status.zero with e := true } }).map
    (fun t => (t.iaOfs, t.getCR 17#5, t.getCR 19#5, t.st.e)) = some (0x4080#32, 1#32, 0x1000#32, false) := by decide

/-- E3. -/
theorem test_external_interrupt_disabled : (after 0x4C000000#32
    { (machine []).setCR 23#5 1#32 with extIrq := 1#32 }).map (fun t => t.iaOfs) = some 0x1004#32 := by decide

/-- 60_exceptions.md R352: at ST.M = 1 a machine check is not taken; notes/assumptions/13.md: it stays pending. -/
theorem test_machine_check_held : (after 0x4C000000#32
    { machine [] with machineCheck := true, st := { Status.zero with m := true } }).map
    (fun t => (t.iaOfs, t.machineCheck)) = some (0x1004#32, true) := by decide

/-- 00_scope.md R19 with D43: a run ends before the instruction at the designated address. -/
theorem test_run_ends_before_stop :
    (match runUntil 0x1004#32 5 (State.reset.withFetchWord 32 0x0A000008) with
      | .next t => some (t.iaOfs, t.getGR 8#4)
      | _ => none) = some (0x1004#32, 0x2000#32) := by decide

/-- The first instruction after reset. -/
theorem test_first_instruction : (after 0x0A000008#32 State.reset).map (fun t => t.getGR 8#4) = some 0x2000#32 := by
  decide

/-! ### For each statement with hypotheses, a state and operands that meet them: every clause, at the ends of its range -/

/-- User mode. -/
def user (s : State) : State := { s with st := { s.st with x := true } }

/-- Data translation on, over the pages of section 4.1. -/
def translated (s : State) : State := { paged s with st := { s.st with d := true } }

/-- Instruction translation on, at an offset of segment 5. -/
def inSegment5 (ofs : Word) : State :=
  { machine [] with iaSeg := 5#32, iaOfs := ofs, st := { Status.zero with c := true }, itlb := codePages }

theorem witness_DecodeEncode : (Instr.be 0x3FFFF#18 7#4 15#4).wf = true := by decide

theorem witness_EncodeDecode : decode 0x9BFFFF17#32 = .ok (.be 0x3FFFF#18 1#4 7#4) := by decide

theorem witness_UnassignedOpcodeTraps :
    { State.reset with ir := 0x2C000000#32 }.ir = 0x2C000000#32 ∧ (opcodeOf 0x2C000000#32).toNat = 0x0B ∧
    { State.reset with ir := 0xEFFFFFFF#32 }.ir = 0xEFFFFFFF#32 ∧ (opcodeOf 0xEFFFFFFF#32).toNat = 0x3B := by
  decide

/-- Words with opArg bits set among them: of LDO modes 1, 3 and 7, and of the load mode 7. -/
theorem witness_IllegalModesTrap :
    (Operand.mode3 0#14 = .mode3 0#14 ∧ Operand.mode7 0x3FFF#14 = .mode7 0x3FFF#14) ∧
    ((∀ v, Operand.mode3 1#14 ≠ .imm v) ∧ ∀ w base seg ofs, Operand.mode7 1#14 ≠ .indexed w base seg ofs) ∧
    State.reset.st.x = false ∧
    (opcodeOf 0x4040C000#32 = 0x10#6 ∧ opModeOf 0x4040C000#32 = 3#5) ∧
    (opcodeOf 0x5441C001#32 = 0x15#6 ∧ opModeOf 0x5441C001#32 = 7#5) ∧
    (opcodeOf 0x4840C001#32 = 0x12#6 ∧ 0x4840C001#32 &&& 0x00080000#32 = 0#32 ∧ opModeOf 0x4840C001#32 = 3#5) ∧
    ([0x60400000#32, 0x6040FFFF#32, 0x6041FFFF#32, 0x64400000#32, 0x6441C001#32, 0x68400000#32, 0x6841C001#32,
        0x68440000#32, 0x6C47C001#32, 0x70404001#32, 0x7040C001#32, 0x7041C001#32].all
      fun w => decide (w &&& 0x00380000#32 = 0#32)) = true ∧
    (opcodeOf 0x60400000#32 = 0x18#6 ∧ opModeOf 0x60400000#32 = 0#5 ∧ opModeOf 0x6040FFFF#32 = 3#5 ∧
      opModeOf 0x6041FFFF#32 = 7#5) ∧
    (opcodeOf 0x64400000#32 = 0x19#6 ∧ opModeOf 0x64400000#32 = 0#5 ∧ opModeOf 0x6441C001#32 = 7#5) ∧
    (opcodeOf 0x68440000#32 = 0x1A#6 ∧ opModeOf 0x68440000#32 = 16#5 ∧ opModeOf 0x6841C001#32 = 7#5) ∧
    (opcodeOf 0x6C47C001#32 = 0x1B#6 ∧ opModeOf 0x6C47C001#32 = 31#5) ∧
    (opcodeOf 0x70404001#32 = 0x1C#6 ∧ opModeOf 0x70404001#32 = 1#5 ∧ opModeOf 0x7041C001#32 = 7#5) := by
  refine ⟨⟨rfl, rfl⟩, ⟨?_, ?_⟩, by decide⟩
  · intro v h
    cases h
  · intro w base seg ofs h
    cases h

theorem witness_LowSignExtension :
    (-(2 ^ 13 : Int) ≤ -8192 ∧ (-8192 : Int) < 2 ^ 13) ∧ (-(2 ^ 13 : Int) ≤ 8191 ∧ (8191 : Int) < 2 ^ 13) := by decide

theorem witness_SegmentSelection : (0#2 : BitVec 2) = 0#2 ∧ (1#2 : BitVec 2) ≠ 0#2 ∧ (3#2 : BitVec 2) ≠ 0#2 := by decide

theorem witness_BigEndianMemory :
    (0x2FFF < 0x3000 ∨ 0x3000 + widthBytes .word ≤ 0x2FFF) ∧ (0x3004 < 0x3000 ∨ 0x3000 + widthBytes .word ≤ 0x3004) := by
  decide

theorem witness_DataAddressFound_untranslated :
    State.reset.st.d = false ∧ (0xFFFFFFFC#32).toNat % widthBytes .word = 0 ∧ (0#32).toNat % widthBytes .word = 0 := by
  decide

theorem witness_DataAddressFound_bypass :
    (translated (machine [])).st.d = true ∧
    virtualAddress 0#2 0x3FFFFFFC#32 (translated (machine [])) = (0#32, 0x3FFFFFFC#32) ∧
    (0x3FFFFFFC#32).toNat % widthBytes .word = 0 := by decide

theorem witness_DataAddressFound_page :
    ∃ e, (translated (machine [])).st.d = true ∧
      virtualAddress 0#2 0x40001FFC#32 (translated (machine [])) = (7#32, 0x1FFC#32) ∧
      (0x1FFC#32).toNat % widthBytes .word = 0 ∧ 7#32 ≠ 0#32 ∧
      tlbLookup (translated (machine [])).dtlb 7#32 0x1FFC#32 = some e ∧
      writeAllowed e (translated (machine [])).st.x = true ∧ pidOk e true (translated (machine [])) = true ∧
      e.prot.t = false ∧ e.prot.b = false ∧ e.prot.d = false ∧ e.addr.bank = 0#4 ∧ e.addr.cpuId = 0#4 :=
  ⟨page 7#32 1#20 0x345#20 0x07000000#32, by decide⟩

theorem witness_DataAddressTraps_alignment :
    (virtualAddress 0#2 0x40001002#32 State.reset = (0#32, 0x1002#32) ∧ State.reset.st.d = false ∧
      (0x40001002#32).toNat % widthBytes .word ≠ 0) ∧
    (virtualAddress 0#2 0x2002#32 (translated (machine [])) = (0#32, 0x2002#32) ∧
      (translated (machine [])).st.d = true ∧ (0x2002#32).toNat % widthBytes .word ≠ 0) := by decide

theorem witness_DataAddressTraps_miss :
    virtualAddress 0#2 0x40009000#32 (translated (machine [])) = (7#32, 0x9000#32) ∧
    (translated (machine [])).st.d = true ∧ 7#32 ≠ 0#32 ∧
    tlbLookup (translated (machine [])).dtlb 7#32 0x9000#32 = none := by decide

/-- A user-mode write to a page that only privileged code may write, and a read of a gateway page. -/
theorem witness_DataAddressTraps_rights :
    (∃ e, virtualAddress 0#2 0x40002000#32 (user (translated (machine []))) = (7#32, 0x2000#32) ∧
      (user (translated (machine []))).st.d = true ∧
      tlbLookup (user (translated (machine []))).dtlb 7#32 0x2000#32 = some e ∧
      writeAllowed e (user (translated (machine []))).st.x = false) ∧
    (∃ e, virtualAddress 0#2 0x40006000#32 (translated (machine [])) = (7#32, 0x6000#32) ∧
      tlbLookup (translated (machine [])).dtlb 7#32 0x6000#32 = some e ∧
      readAllowed e (translated (machine [])).st.x = false) :=
  ⟨⟨page 7#32 2#20 0x346#20 0x06000000#32, by decide⟩, ⟨page 7#32 6#20 0x34A#20 0x0E000000#32, by decide⟩⟩

/-- The same machine with the protection check on. -/
def checked (s : State) : State := { s with st := { s.st with p := true } }

theorem witness_DataAddressTraps_protection :
    ∃ e, virtualAddress 0#2 0x40005000#32 (checked (translated (machine []))) = (7#32, 0x5000#32) ∧
      (checked (translated (machine []))).st.d = true ∧
      tlbLookup (checked (translated (machine []))).dtlb 7#32 0x5000#32 = some e ∧
      readAllowed e (checked (translated (machine []))).st.x = true ∧
      (checked (translated (machine []))).st.p = true ∧ pidOk e false (checked (translated (machine []))) = false :=
  ⟨page 7#32 5#20 0x349#20 0x07000024#32, by decide⟩

/-- The same machine with a page of each of the bits T, B and D, and one without them. -/
def trapping : State :=
  { translated (machine []) with
    dtlb := [page 7#32 1#20 1#20 0x47000000#32, page 7#32 2#20 2#20 0x17000000#32, page 7#32 3#20 3#20 0x27000000#32,
      page 7#32 4#20 4#20 0x07000000#32] }

theorem witness_DataAddressTraps_page_reference :
    ∃ e, virtualAddress 0#2 0x40001002#32 trapping = (7#32, 0x1002#32) ∧ trapping.st.d = true ∧
      tlbLookup trapping.dtlb 7#32 0x1002#32 = some e ∧ readAllowed e trapping.st.x = true ∧ trapping.st.p = false ∧
      e.prot.t = true := ⟨page 7#32 1#20 1#20 0x47000000#32, by decide⟩

theorem witness_DataAddressTraps_data_reference :
    ∃ e, virtualAddress 0#2 0x40002000#32 trapping = (7#32, 0x2000#32) ∧ trapping.st.d = true ∧
      tlbLookup trapping.dtlb 7#32 0x2000#32 = some e ∧ readAllowed e trapping.st.x = true ∧ trapping.st.p = false ∧
      e.prot.t = false ∧ e.prot.b = true := ⟨page 7#32 2#20 2#20 0x17000000#32, by decide⟩

theorem witness_DataAddressTraps_dirty :
    ∃ e, virtualAddress 0#2 0x40003000#32 trapping = (7#32, 0x3000#32) ∧ trapping.st.d = true ∧
      tlbLookup trapping.dtlb 7#32 0x3000#32 = some e ∧ writeAllowed e trapping.st.x = true ∧ trapping.st.p = false ∧
      e.prot.t = false ∧ e.prot.b = false ∧ e.prot.d = true := ⟨page 7#32 3#20 3#20 0x27000000#32, by decide⟩

theorem witness_DataAddressTraps_translated_alignment :
    ∃ e, virtualAddress 0#2 0x40004FFF#32 trapping = (7#32, 0x4FFF#32) ∧ trapping.st.d = true ∧
      tlbLookup trapping.dtlb 7#32 0x4FFF#32 = some e ∧ writeAllowed e trapping.st.x = true ∧ trapping.st.p = false ∧
      e.prot.t = false ∧ e.prot.b = false ∧ e.prot.d = false ∧ (0x4FFF#32).toNat % widthBytes .half ≠ 0 :=
  ⟨page 7#32 4#20 4#20 0x07000000#32, by decide⟩

/-- A data and a code page of another memory bank, and one of another CPU. -/
def foreignPages : Tlb :=
  [{ page 7#32 1#20 0x345#20 0x0B000000#32 with addr := { cpuId := 0#4, bank := 1#4, ppn := 0x345#20 } },
    { page 7#32 2#20 0x346#20 0x07000000#32 with addr := { cpuId := 15#4, bank := 0#4, ppn := 0x346#20 } }]

/-- Both translations on over these pages, at an offset of segment 7. -/
def foreign (s : State) : State :=
  { s.setSR 5#3 7#32 |>.setSR 1#3 7#32 with
    st := { Status.zero with c := true, d := true }, iaSeg := 7#32, iaOfs := 0x1010#32,
    itlb := foreignPages, dtlb := foreignPages }

theorem witness_DataAddressTraps_foreign :
    (∃ e, virtualAddress 0#2 0x40001FFC#32 (foreign (machine [])) = (7#32, 0x1FFC#32) ∧
      (foreign (machine [])).st.d = true ∧ tlbLookup (foreign (machine [])).dtlb 7#32 0x1FFC#32 = some e ∧
      readAllowed e (foreign (machine [])).st.x = true ∧ (foreign (machine [])).st.p = false ∧ e.prot.t = false ∧
      e.prot.b = false ∧ (0x1FFC#32).toNat % widthBytes .word = 0 ∧ (e.addr.bank ≠ 0#4 ∨ e.addr.cpuId ≠ 0#4)) ∧
    (∃ e, virtualAddress 0#2 0x40002000#32 (foreign (machine [])) = (7#32, 0x2000#32) ∧
      tlbLookup (foreign (machine [])).dtlb 7#32 0x2000#32 = some e ∧
      writeAllowed e (foreign (machine [])).st.x = true ∧ e.prot.d = false ∧
      (e.addr.bank ≠ 0#4 ∨ e.addr.cpuId ≠ 0#4)) :=
  ⟨⟨_, by decide, by decide, rfl, by decide, by decide, by decide, by decide, by decide, by decide⟩,
    ⟨_, by decide, rfl, by decide, by decide, by decide⟩⟩

theorem witness_ProtectionChecks :
    8 ≤ (8#5 : CReg).toNat ∧ (11#5 : CReg).toNat ≤ 11 ∧
    (((machine []).setCR 8#5 0x24#32).getCR 8#5).toNat / 2 % 2 ^ 15 =
      (page 7#32 5#20 0x349#20 0x07000024#32).prot.pid16.toNat / 2 ∧
    (((machine []).setCR 8#5 0x24#32).getCR 8#5).toNat % 2 = 0 := by decide

theorem witness_TlbLookup : risingKeys 0 dataPages = true := by decide

theorem witness_LoadResult :
    dataAddress false .word 0#2 0#32 State.reset = .done 0#32 ∧ (0#32).toNat + widthBytes .word ≤ 0xF0000000 ∧
    dataAddress false .byte 0#2 0xEFFFFFFF#32 State.reset = .done 0xEFFFFFFF#32 ∧
    (0xEFFFFFFF#32).toNat + widthBytes .byte ≤ 0xF0000000 := ⟨rfl, by decide, rfl, by decide⟩

theorem witness_IoAccessResult :
    dataAddress false .word 0#2 0xF0000000#32 State.reset = .done 0xF0000000#32 ∧ 0xF0000000 ≤ (0xF0000000#32).toNat ∧
    dataAddress true .byte 0#2 (indexedOffset 0#3 0x001#12 (machine [(8#4, 0x7FF#32)])) (machine [(8#4, 0x7FF#32)]) =
      .done 0xFFFFFFFF#32 ∧ 0xF0000000 ≤ (0xFFFFFFFF#32).toNat := ⟨rfl, by decide, rfl, by decide⟩

theorem witness_StoreResult :
    dataAddress true .word 0#2 ((machine []).getGR (1#1 ++ 0#3) + BitVec.ofInt 32 (lse 0#12)) (machine []) = .done 0#32 ∧
    (0#32).toNat + widthBytes .word ≤ 0xF0000000 ∧
    dataAddress true .word 0#2 ((machine [(8#4, 0xEFFFFFFC#32)]).getGR (1#1 ++ 0#3) + BitVec.ofInt 32 (lse 0#12))
      (machine [(8#4, 0xEFFFFFFC#32)]) = .done 0xEFFFFFFC#32 ∧
    (0xEFFFFFFC#32).toNat + widthBytes .word ≤ 0xF0000000 := ⟨rfl, by decide, rfl, by decide⟩

theorem witness_AccessTrapAbandons :
    dataAddress false .word 0#2 (indexedOffset 0#3 0x004#12 State.reset) State.reset =
      .trap (dataTrap .alignment 0#32 2#32 State.reset) ∧
    dataAddress true .half 0#2 (indexedOffset 0#3 0x002#12 State.reset) State.reset =
      .trap (dataTrap .alignment 0#32 1#32 State.reset) ∧ wordAligned State.reset.iaOfs = true := ⟨rfl, rfl, by decide⟩

/-- Whether a failure is drawn is free, so one of the two clauses holds at this draw. In the I/O range its first and
its last word. -/
theorem witness_ReservationResult :
    0x2000#32 = (machine [(8#4, 0x2000#32)]).getGR (1#1 ++ 0#3) + BitVec.ofInt 32 (lse 0#12) ∧
    dataAddress false .word 0#2 0x2000#32 (machine [(8#4, 0x2000#32)]) = .done 0x2000#32 ∧
    dataAddress true .word 0#2 0x2000#32 (machine [(8#4, 0x2000#32)]) = .done 0x2000#32 ∧
    (0x2000#32).toNat + 4 ≤ 0xF0000000 ∧ (0xEFFFFFFC#32).toNat + 4 ≤ 0xF0000000 ∧
    0xFFFFFFFC#32 = State.reset.getGR (1#1 ++ 0#3) + BitVec.ofInt 32 (lse 0xFF9#12) ∧
    dataAddress true .word 0#2 0xFFFFFFFC#32 State.reset = .done 0xFFFFFFFC#32 ∧
    0xF0000000#32 = (machine [(8#4, 0xF0000000#32)]).getGR (1#1 ++ 0#3) + BitVec.ofInt 32 (lse 0#12) ∧
    dataAddress false .word 0#2 0xF0000000#32 (machine [(8#4, 0xF0000000#32)]) = .done 0xF0000000#32 ∧
    0xF0000000 ≤ (0xF0000000#32).toNat ∧
    State.reset.resv ≠ some 0x2000#32 ∧
    { machine [(8#4, 0x2000#32)] with resv := some 0x2000#32 }.resv = some 0x2000#32 ∧
    (Config.stwcFails 0 = false ∨ Config.stwcFails 0 = true) :=
  ⟨by decide, rfl, rfl, by decide, by decide, by decide, rfl, by decide, rfl, by decide, by decide, rfl,
    by cases Config.stwcFails 0 <;> simp⟩

theorem witness_AbsoluteAccessResult :
    State.reset.st.x = false ∧ ((0#32).toNat % 4 = 0 ∧ (0#32).toNat < 0xF0000000) ∧
    ((0xEFFFFFFC#32).toNat % 4 = 0 ∧ (0xEFFFFFFC#32).toNat < 0xF0000000) ∧
    ((0xF0000000#32).toNat % 4 = 0 ∧ 0xF0000000 ≤ (0xF0000000#32).toNat) ∧ (0xFFFFFFFF#32).toNat % 4 ≠ 0 := by decide

/-- For LocalBranchResult, CbrResult, TbrCmrResult and GateResult: a word address. -/
theorem witness_LocalBranchResult : wordAligned 0#32 = true ∧ wordAligned 0xFFFFFFFC#32 = true := by decide

theorem witness_CbrResult : wordAligned State.reset.iaOfs = true := by decide

theorem witness_TbrCmrResult :
    wordAligned State.reset.iaOfs = true ∧ false = (State.reset.getGR 2#4).msb ∧
    true = ((machine [(2#4, 0x80000000#32)]).getGR 2#4).msb := by decide

theorem witness_ExternalBranchResult : (0#4).toNat < 8 ∧ (7#4).toNat < 8 := by decide

theorem witness_GateResult :
    wordAligned (inSegment5 0x6010#32).iaOfs = true ∧ State.reset.st.c = false ∧
    ({ inSegment5 0x6010#32 with iaSeg := 0#32 }.st.c = true) ∧
    (inSegment5 0x6010#32).st.c = true ∧ (inSegment5 0x6010#32).iaSeg ≠ 0#32 ∧
    tlbLookup (inSegment5 0x6010#32).itlb 5#32 0x6010#32 = some (page 5#32 6#20 0x106#20 0x0E000000#32) ∧
    (page 5#32 6#20 0x106#20 0x0E000000#32).prot.type = 3#2 ∧
    tlbLookup (inSegment5 0x1010#32).itlb 5#32 0x1010#32 = some (page 5#32 1#20 0x101#20 0x0A000000#32) ∧
    (page 5#32 1#20 0x101#20 0x0A000000#32).prot.type ≠ 3#2 := by decide

theorem witness_OperandFetch :
    dataAddress false .half 0#2 0xEFFFFFFE#32 State.reset = .done 0xEFFFFFFE#32 ∧
    (0xEFFFFFFE#32).toNat + widthBytes .half ≤ 0xF0000000 ∧
    dataAddress false .half 0#2 0xF0000000#32 State.reset = .done 0xF0000000#32 ∧ 0xF0000000 ≤ (0xF0000000#32).toNat :=
  ⟨rfl, by decide, rfl, by decide⟩

/-- For AddResult, SubResult, LogicalResult and CmpResult: an operand fetch that is done. -/
theorem witness_AddResult :
    fetchOperand 1#4 (.regs 1#4 2#4) (machine [(1#4, 0x7FFFFFFF#32), (2#4, 1#32)]) =
      .done (0x7FFFFFFF#32, 1#32, machine [(1#4, 0x7FFFFFFF#32), (2#4, 1#32)]) ∧
    decide ((0x7FFFFFFF#32).toInt + (1#32).toInt + (0 : Nat) < -2 ^ 31 ∨
      2 ^ 31 ≤ (0x7FFFFFFF#32).toInt + (1#32).toInt + (0 : Nat)) = true := ⟨rfl, by decide⟩

theorem witness_SubResult :
    fetchOperand 1#4 (.regs 1#4 2#4) (machine [(2#4, 1#32)]) = .done (0#32, 1#32, machine [(2#4, 1#32)]) ∧
    (0#32).toNat + 0 < (1#32).toNat ∧ (0#32).toNat + 2 ^ 32 ≤ (0xFFFFFFFF#32).toNat + 1 ∧
    ¬(0xFFFFFFFF#32).toNat + 0 < (0#32).toNat ∧ ¬(0#32).toNat + 2 ^ 32 ≤ (0xFFFFFFFF#32).toNat + 0 := by
  refine ⟨rfl, ?_, ?_, ?_, ?_⟩ <;> simp

theorem witness_LogicalResult :
    fetchOperand 3#4 (.regs 1#4 2#4) (machine [(1#4, 0xF0F0F0F0#32), (2#4, 0xFF00FF00#32)]) =
      .done (0xF0F0F0F0#32, 0xFF00FF00#32, machine [(1#4, 0xF0F0F0F0#32), (2#4, 0xFF00FF00#32)]) := rfl

theorem witness_CmpResult :
    fetchOperand 2#4 (.reg 3#4) (machine [(3#4, 5#32)]) = .done (0#32, 5#32, machine [(3#4, 5#32)]) := rfl

theorem witness_BitFieldResult :
    (0 = (0#5).toNat ∧ (31#5) ≠ 0#5 ∧ 0 + (31#5).toNat ≤ 32) ∧ (31 = (31#5).toNat ∧ 1#5 ≠ 0#5 ∧ 31 + (1#5).toNat ≤ 32) ∧
    (4 = (((machine []).setCR 2#5 4#32).getCR 2#5).toNat % 32 ∧ 4 + (28#5).toNat ≤ 32) := by decide

theorem witness_UnfitFieldRefused :
    (31 = (31#5).toNat ∧ 32 < 31 + (2#5).toNat) ∧ (0 = (0#5).toNat ∧ 0#5 = (0#5)) := by decide

theorem witness_DsrLsidResult :
    (31#5).toNat = 31 ∧ (((machine []).setCR 2#5 31#32).getCR 2#5).toNat % 32 = 31 := by decide

theorem witness_ShlaResult :
    decide (¬(-2 ^ 31 ≤ (0x40000000#32).toInt * 2 ^ (1#2).toNat ∧ (0x40000000#32).toInt * 2 ^ (1#2).toNat < 2 ^ 31) ∨
      ¬(-2 ^ 31 ≤ (0x80000000#32).toInt + (0#32).toInt ∧ (0x80000000#32).toInt + (0#32).toInt < 2 ^ 31)) = true ∧
    decide (2 ^ 32 ≤ (0xFFFFFFFF#32).toNat * 2 ^ (0#2).toNat ∨ 2 ^ 32 ≤ (0xFFFFFFFF#32).toNat + (0#32).toNat) = false := by
  decide

theorem witness_MrResult :
    (State.reset.st.x = false ∧ (user State.reset).st.x = true) ∧ ((7#6).toNat < 8 ∧ (0#6).toNat < 4 ∧ (3#6).toNat < 4) ∧
    ((4#6).toNat < 8 ∧ 4 ≤ (4#6).toNat) ∧ ((31#6).toNat < 32 ∧ (31#6).toNat ≠ 0 ∧ (31#6).toNat ≠ 2) ∧
    (1#6).toNat ≠ 0 ∧ (2#6).toNat = 2 ∧ (0#6).toNat = 0 := by decide

theorem witness_MstResult :
    State.reset.st.x = false ∧
    (1#6 : BitVec 6) = BitVec.ofBool false ++ BitVec.ofBool false ++ BitVec.ofBool false ++ BitVec.ofBool false ++
      BitVec.ofBool false ++ BitVec.ofBool { Status.zero with e := true }.e := by decide

theorem witness_LdpaResult_untranslated :
    State.reset.st.x = false ∧ virtualAddress 0#2 (State.reset.getGR 2#4) State.reset = (0#32, 0#32) ∧
    State.reset.st.d = false := by decide

/-- For LdpaResult, translation on, and for PrbResult: the segment 0, a page and a page that is not there. -/
theorem witness_LdpaResult :
    ((translated (machine [(2#4, 0x1234#32)])).st.x = false ∧ (translated (machine [(2#4, 0x1234#32)])).st.d = true ∧
      virtualAddress 0#2 ((translated (machine [(2#4, 0x1234#32)])).getGR 2#4) (translated (machine [(2#4, 0x1234#32)])) =
        (0#32, 0x1234#32)) ∧
    (∃ e, virtualAddress 0#2 ((translated (machine [(2#4, 0x40001FFF#32)])).getGR 2#4)
        (translated (machine [(2#4, 0x40001FFF#32)])) = (7#32, 0x1FFF#32) ∧
      tlbLookup (translated (machine [(2#4, 0x40001FFF#32)])).dtlb 7#32 0x1FFF#32 = some e ∧
      e.addr.bank = 0#4 ∧ e.addr.cpuId = 0#4) ∧
    (virtualAddress 0#2 ((translated (machine [(2#4, 0x40009000#32)])).getGR 2#4)
        (translated (machine [(2#4, 0x40009000#32)])) = (7#32, 0x9000#32) ∧
      tlbLookup (translated (machine [(2#4, 0x40009000#32)])).dtlb 7#32 0x9000#32 = none) :=
  ⟨by decide, ⟨page 7#32 1#20 0x345#20 0x07000000#32, by decide⟩, by decide⟩

/-- For LdpaResult, PcaResult and DataAddressTraps: the page of an entry of another bank. -/
theorem witness_LdpaResult_foreign :
    (foreign (machine [(2#4, 0x40001FFC#32)])).st.x = false ∧
    ∃ e, virtualAddress 0#2 ((foreign (machine [(2#4, 0x40001FFC#32)])).getGR 2#4)
        (foreign (machine [(2#4, 0x40001FFC#32)])) = (7#32, 0x1FFC#32) ∧
      (foreign (machine [(2#4, 0x40001FFC#32)])).st.d = true ∧
      tlbLookup (foreign (machine [(2#4, 0x40001FFC#32)])).dtlb 7#32 0x1FFC#32 = some e ∧
      (e.addr.bank ≠ 0#4 ∨ e.addr.cpuId ≠ 0#4) := ⟨rfl, _, by decide, rfl, rfl, by decide⟩

theorem witness_PrbResult_level :
    1 < ((machine [(1#4, 2#32)]).getGR 1#4).toNat ∧ 1 < ((machine [(1#4, 0xFFFFFFFF#32)]).getGR 1#4).toNat := by decide

theorem witness_PrbResult :
    ((machine [(1#4, 1#32), (2#4, 0x2000#32)]).getGR 1#4 = 1#32 ∧
      virtualAddress 0#2 ((translated (machine [(1#4, 1#32), (2#4, 0x2000#32)])).getGR 2#4)
        (translated (machine [(1#4, 1#32), (2#4, 0x2000#32)])) = (0#32, 0x2000#32)) ∧
    (∃ e, (translated (machine [(2#4, 0x40002000#32)])).getGR 1#4 = 0#32 ∧
      virtualAddress 0#2 ((translated (machine [(2#4, 0x40002000#32)])).getGR 2#4)
        (translated (machine [(2#4, 0x40002000#32)])) = (7#32, 0x2000#32) ∧
      tlbLookup (translated (machine [(2#4, 0x40002000#32)])).dtlb 7#32 0x2000#32 = some e) ∧
    ((translated (machine [(2#4, 0x40009000#32)])).getGR 1#4 = 0#32 ∧
      virtualAddress 0#2 ((translated (machine [(2#4, 0x40009000#32)])).getGR 2#4)
        (translated (machine [(2#4, 0x40009000#32)])) = (7#32, 0x9000#32) ∧
      tlbLookup (translated (machine [(2#4, 0x40009000#32)])).dtlb 7#32 0x9000#32 = none) :=
  ⟨by decide, ⟨page 7#32 2#20 0x346#20 0x06000000#32, by decide⟩, by decide⟩

/-- With a key that is there, and with one that is not in an empty TLB, which has room. -/
theorem witness_TlbInstructionResult :
    (paged State.reset).st.x = false ∧ risingKeys 0 ((paged State.reset).tlbOf true) = true ∧
    tlbKey 7#32 1#20 = tlbKey ((paged State.reset).getSR (segReg 1#4)) ((0x1FFF#32 : Word).extractLsb' 12 20) ∧
    (tlbFind ((paged State.reset).tlbOf true) (tlbKey 7#32 1#20)).isSome = true ∧
    risingKeys 0 (State.reset.tlbOf false) = true ∧ (State.reset.tlbOf false).length < tlbCapacity false :=
  ⟨by decide, by decide, by decide, by decide, by decide, Nat.succ_pos _⟩

theorem witness_PcaResult :
    (State.reset.st.x = false ∧ State.reset.getSR (segReg 1#4) = 0#32 ∧
      (∀ k ∈ State.reset.needsFlush, k / 4 ≠ (State.reset.getGR 2#4).toNat / 4)) ∧
    (∃ e, (paged (machine [(2#4, 0x1FFC#32)])).getSR (segReg 1#4) = 7#32 ∧
      tlbLookup ((paged (machine [(2#4, 0x1FFC#32)])).tlbOf true) 7#32 0x1FFC#32 = some e ∧
      e.addr.bank = 0#4 ∧ e.addr.cpuId = 0#4 ∧ e.addr.ppn ++ (0x1FFC#32 : Word).extractLsb' 0 12 = 0x345FFC#32) ∧
    (∃ k ∈ { machine [(2#4, 0x1033#32)] with needsFlush := [0x1030] }.needsFlush,
      k / 4 = ({ machine [(2#4, 0x1033#32)] with needsFlush := [0x1030] }.getGR 2#4).toNat / 4) ∧
    tlbLookup ((paged (machine [(2#4, 0x1FFC#32)])).tlbOf false) 7#32 0x1FFC#32 = none :=
  ⟨by decide, ⟨page 7#32 1#20 0x345#20 0x07000000#32, by decide⟩, by decide, by decide⟩

theorem witness_PcaResult_foreign :
    (foreign (machine [(2#4, 0x2000#32)])).st.x = false ∧
    (foreign (machine [(2#4, 0x2000#32)])).getSR (segReg 1#4) = 7#32 ∧
    ∀ t : Bool, ∃ e, tlbLookup ((foreign (machine [(2#4, 0x2000#32)])).tlbOf t) 7#32 0x2000#32 = some e ∧
      (e.addr.bank ≠ 0#4 ∨ e.addr.cpuId ≠ 0#4) :=
  ⟨rfl, by decide, fun t => by cases t <;> exact ⟨_, rfl, by decide⟩⟩

theorem witness_RfiResult :
    State.reset.st.x = false ∧ wordAligned State.reset.iaOfs = true ∧
    takeTrap (bareTrap .overflow) State.reset = .next (trapEntry (bareTrap .overflow) State.reset) :=
  ⟨rfl, by decide, rfl⟩

theorem witness_BrkAndDiag :
    State.reset.st.x = false ∧ (State.reset.getCR 16#5).toNat % 4096 = 0 ∧
    ((State.reset.setCR 16#5 1#32).getCR 16#5).toNat % 4096 ≠ 0 := by decide

theorem witness_TrapEntryEffect :
    ((machine []).getCR 16#5).toNat % 4096 = 0 ∧ (((machine []).setCR 16#5 0x4FFF#32).getCR 16#5).toNat % 4096 ≠ 0 ∧
    (((machine []).setCR 16#5 0xFFFFF000#32).getCR 16#5).toNat % 4096 = 0 ∧ (dataTrap .alignment 0#32 2#32 State.reset).p2 = some 2#32 ∧
    ((0#5).toNat < 17 ∧ (16#5).toNat < 17 ∧ 22 < (23#5).toNat ∧ 22 < (31#5).toNat) := by decide

theorem witness_StatusWordLayout : 0x1FF7FFC0#32 &&& 0xE008003F#32 = 0#32 &&& 0xE008003F#32 := by decide

theorem witness_ReservationCleared_trap : ∃ t, takeTrap (bareTrap .overflow) State.reset = .next t := ⟨_, rfl⟩

theorem witness_ReservationCleared : ∃ t, exec .rfi State.reset = .next t ∧ State.reset.st.x = false := ⟨_, rfl, rfl⟩

theorem witness_PrivilegeTestFirst :
    (user State.reset).st.x = true ∧ 0xFC000001#32 &&& reservedMask 0xFC000001#32 ≠ 0#32 := by decide

/-- A user-mode instruction that does not trap, and one that gains privilege. -/
theorem witness_UserModeContained :
    (user State.reset).st.x = true ∧ (∃ t, exec (.ldil 8#4 8#22) (user State.reset) = .next t) ∧
    ∃ t, exec (.gate 1#4 4#22) (user State.reset) = .next t ∧ t.st.x = false :=
  ⟨rfl, ⟨_, rfl⟩, ⟨_, rfl, rfl⟩⟩

/-- A store in user mode with flags of other words set. -/
theorem witness_UserModeContained_flags :
    ∃ t, exec (.stw 1#4 0#3 0#2 0#12) { user (machine [(8#4, 0x2000#32)]) with needsFlush := [0x3000], needsPurge := [0x3000] } =
        .next t ∧ 0x3000 ∈ t.needsFlush ∧ 0x3000 ∈ t.needsPurge ∧ 0x2000 ∈ t.needsFlush :=
  ⟨_, rfl, by decide, by decide, by decide⟩

/-- GATE at 0x1000 in user mode, translation off. -/
theorem witness_PrivilegeGain :
    ∃ t, (user (State.reset.withFetchWord 32 0xA0400004)).st.x = true ∧
      step (user (State.reset.withFetchWord 32 0xA0400004)) = .next t ∧ t.st.x = false := ⟨_, rfl, rfl, rfl⟩

/-- Every statement about `exec i s = .next t` for every instruction: BE changes IA-SEG, SUB changes ST.CB, PTLB a TLB. -/
theorem witness_IaSegWriters :
    State.reset.st.c = false ∧ ∃ t, exec (.be 0#18 1#4 9#4) { (machine []).setSR 1#3 7#32 with st := { Status.zero with c := true } } = .next t ∧
      t.iaSeg = 7#32 := ⟨rfl, _, rfl, by decide⟩

theorem witness_CarryAndTlbWriters :
    (∃ t, exec (.sub 2#4 false false false (.imm 2#14)) State.reset = .next t ∧ t.st.cb ≠ State.reset.st.cb) ∧
    ∃ t, exec (.ptlb true 1#4 2#4) (paged (machine [(2#4, 0x1000#32)])) = .next t ∧
      t.dtlb ≠ (paged (machine [(2#4, 0x1000#32)])).dtlb :=
  ⟨⟨_, rfl, by decide⟩, ⟨_, rfl, by decide⟩⟩

theorem witness_MemoryFrame :
    ∃ t, exec (.stw 1#4 0#3 0#2 0#12) (machine [(8#4, 0x2000#32), (1#4, 5#32)]) = .next t ∧
      dataAddress true .word 0#2 (indexedOffset 0#3 0#12 (machine [(8#4, 0x2000#32), (1#4, 5#32)]))
        (machine [(8#4, 0x2000#32), (1#4, 5#32)]) = .done 0x2000#32 ∧ t.mem.byte 0x2003 = 5#8 :=
  ⟨_, rfl, rfl, by decide⟩

theorem witness_RegisterFrame : ∃ t, exec (.ldil 8#4 8#22) State.reset = .next t ∧ t.getGR 8#4 = 0x2000#32 :=
  ⟨_, rfl, by decide⟩

theorem witness_StepRunsInstruction :
    pendingTrap (State.reset.withFetchWord 32 0x0A000008) = none ∧
    fetchAddress (State.reset.withFetchWord 32 0x0A000008) =
      .done (0x1000#32, State.reset.withFetchWord 32 0x0A000008) ∧ (0x1000#32).toNat + 4 ≤ 0xF0000000 ∧
    (State.reset.withFetchWord 32 0x0A000008).needsFlush.contains 0x1000 = false ∧
    (State.reset.withFetchWord 32 0x0A000008).needsPurge.contains 0x1000 = false ∧
    bytesWord ((State.reset.withFetchWord 32 0x0A000008).mem.byte 0x1000)
      ((State.reset.withFetchWord 32 0x0A000008).mem.byte 0x1001)
      ((State.reset.withFetchWord 32 0x0A000008).mem.byte 0x1002)
      ((State.reset.withFetchWord 32 0x0A000008).mem.byte 0x1003) = 0x0A000008#32 ∧
    decode 0x0A000008#32 = .ok (.ldil 8#4 8#22) := ⟨rfl, rfl, by decide, rfl, rfl, by decide, by decide⟩

/-- A fetch from the first word of the I/O range. -/
theorem witness_StepRunsInstruction_io :
    pendingTrap { State.reset with iaOfs := 0xF0000000#32 } = none ∧
    fetchAddress { State.reset with iaOfs := 0xF0000000#32 } =
      .done (0xF0000000#32, { State.reset with iaOfs := 0xF0000000#32 }) ∧ 0xF0000000 ≤ (0xF0000000#32).toNat ∧
    State.reset.needsFlush.contains 0xF0000000 = false ∧ State.reset.needsPurge.contains 0xF0000000 = false ∧
    State.reset.st.c = false := ⟨rfl, rfl, by decide, rfl, rfl, rfl⟩

/-- A word of each kind that is no instruction: an unassigned opcode, an illegal mode, a reserved field. -/
theorem witness_StepRunsInstruction_words :
    decode 0x2C000000#32 = .error .unassignedOpcode ∧ decode 0x7040C001#32 = .error .illegalOpMode ∧
    decode 0xFC000001#32 = .error .reservedField := ⟨rfl, rfl, rfl⟩

theorem witness_UntranslatedFetch : State.reset.st.c = false := rfl

theorem witness_TranslatedFetch :
    (inSegment5 0x6010#32).st.c = true ∧ (inSegment5 0x6010#32).iaSeg ≠ 0#32 ∧
    { inSegment5 0x6010#32 with iaSeg := 0#32 }.iaSeg = 0#32 ∧ tlbLookup codePages 5#32 0x8010#32 = none ∧
    tlbLookup codePages 5#32 0x4010#32 = some (page 5#32 4#20 0x104#20 0x07000000#32) ∧
    (page 5#32 4#20 0x104#20 0x07000000#32).prot.type.toNat < 2 ∧
    tlbLookup codePages 5#32 0x7010#32 = some (page 5#32 7#20 0x107#20 0x0C000000#32) ∧
    ((user (inSegment5 0x7010#32)).st.x = true ∧ (page 5#32 7#20 0x107#20 0x0C000000#32).prot.pl1 = false) ∧
    pidOk (page 5#32 1#20 1#20 0x0A000024#32) false (inSegment5 0x1010#32) = false ∧
    tlbLookup codePages 5#32 0x1FFC#32 = some (page 5#32 1#20 0x101#20 0x0A000000#32) ∧
    2 ≤ (page 5#32 1#20 0x101#20 0x0A000000#32).prot.type.toNat ∧
    (page 5#32 1#20 0x101#20 0x0A000000#32).prot.pl1 = true ∧
    pidOk (page 5#32 1#20 0x101#20 0x0A000000#32) false (inSegment5 0x1FFC#32) = true ∧
    (page 5#32 1#20 0x101#20 0x0A000000#32).addr.bank = 0#4 ∧ (page 5#32 1#20 0x101#20 0x0A000000#32).addr.cpuId = 0#4 := by
  decide

theorem witness_TranslatedFetch_foreign :
    (foreign (machine [])).st.c = true ∧ (foreign (machine [])).iaSeg ≠ 0#32 ∧ pendingTrap (foreign (machine [])) = none ∧
    ∃ e, tlbLookup (foreign (machine [])).itlb (foreign (machine [])).iaSeg (foreign (machine [])).iaOfs = some e ∧
      2 ≤ e.prot.type.toNat ∧ (foreign (machine [])).st.x = false ∧ (foreign (machine [])).st.p = false ∧
      (e.addr.bank ≠ 0#4 ∨ e.addr.cpuId ≠ 0#4) := ⟨rfl, by decide, rfl, _, rfl, by decide, rfl, rfl, by decide⟩

theorem witness_FetchTrapsAndStops :
    (pendingTrap (inSegment5 0x8010#32) = none ∧ fetchAddress (inSegment5 0x8010#32) = .trap (bareTrap .instrTlbMiss)) ∧
    fetchAddress (inSegment5 0x4010#32) = .trap (bareTrap .instrProtection) ∧
    (pendingTrap { State.reset with needsPurge := [0x1000] } = none ∧
      fetchAddress { State.reset with needsPurge := [0x1000] } =
        .done (0x1000#32, { State.reset with needsPurge := [0x1000] }) ∧
      { State.reset with needsPurge := [0x1000] }.needsPurge.contains ((0x1000#32).toNat / 4 * 4) = true) :=
  ⟨⟨rfl, rfl⟩, rfl, rfl, rfl, rfl⟩

theorem witness_AsynchronousTraps :
    ({ State.reset with machineCheck := true }.machineCheck = true ∧ State.reset.st.m = false) ∧
    (State.reset.machineCheck = false ∧ { State.reset with powerFailure := true }.powerFailure = true) ∧
    (State.reset.powerFailure = false ∧ { Status.zero with e := true }.e = true ∧
      { (machine []).setCR 23#5 1#32 with extIrq := 1#32 }.extIrq &&&
        { (machine []).setCR 23#5 1#32 with extIrq := 1#32 }.getCR 23#5 ≠ 0#32) ∧
    (State.reset.st.e = false ∧ State.reset.extIrq &&& State.reset.getCR 23#5 = 0#32) := by decide

/-- A state with an instruction to run meets the invariant, and its step has a next state. -/
theorem witness_StepKeepsInv :
    (State.reset.withFetchWord 32 0x0A000008).Inv ∧ ∃ t, step (State.reset.withFetchWord 32 0x0A000008) = .next t := by
  refine ⟨⟨by decide, ?_, ?_, by decide, by decide, by decide, by decide, by decide, by decide⟩, ⟨_, rfl⟩⟩ <;>
    simp [tlbWf, risingKeys, State.withFetchWord, placeWord, State.reset]

end Sys2Proof.Tests
end

section
/-! SUPPORT. Low sign extension (00_scope.md R14): the value of a field through its sign bit `s` and its left bits `m`,
the value of a field given as the number `2 * m + s`, and obligation O6. -/

namespace Sys2Proof.Proofs

open Sys2Proof Sys2Proof.Machine

/-! ### The two parts of a field -/

/-- The left bits of a field are its number without the rightmost bit. -/
theorem toNat_leftBits {n : Nat} (x : BitVec (n + 1)) : (x.extractLsb' 1 n).toNat = x.toNat / 2 := by
  have hx : x.toNat / 2 < 2 ^ n := Nat.div_lt_of_lt_mul (by rw [← Nat.pow_succ']; exact x.isLt)
  rw [BitVec.extractLsb'_toNat, Nat.shiftRight_eq_div_pow, Nat.pow_one, Nat.mod_eq_of_lt hx]

/-- The rightmost bit of a field is the parity of its number. -/
theorem toNat_signBit {n : Nat} (x : BitVec n) : (x.extractLsb' 0 1).toNat = x.toNat % 2 := by
  rw [BitVec.extractLsb'_toNat, Nat.shiftRight_zero, Nat.pow_one]

/-- One bit in two's complement has the weight -1. -/
theorem toInt_bit (s : BitVec 1) : s.toInt = -(s.toNat : Int) := by
  obtain rfl | rfl := s.eq_zero_or_eq_one <;> rfl

/-! ### The value of a field -/

/-- `lse_N(x) = m - s * 2^(N-1)`. -/
theorem lse_eq_leftBits_sub_signBit {n : Nat} (x : BitVec (n + 1)) :
    lse x = ((x.extractLsb' 1 n).toNat : Int) - ((x.extractLsb' 0 1).toNat : Int) * 2 ^ n := by
  rw [toNat_leftBits, toNat_signBit, lse, Nat.add_sub_cancel]
  push_cast
  rfl

/-- The sign bit moved to the left end makes the field a two's-complement number. -/
theorem lse_eq_toInt {n : Nat} (x : BitVec (n + 1)) :
    lse x = (x.extractLsb' 0 1 ++ x.extractLsb' 1 n).toInt := by
  have happ : (x.extractLsb' 0 1 ++ x.extractLsb' 1 n).toInt =
      2 ^ n * (x.extractLsb' 0 1).toInt + ((x.extractLsb' 1 n).toNat : Int) := BitVec.toInt_append
  rw [lse_eq_leftBits_sub_signBit, happ, toInt_bit]
  ring

/-- The range of an N-bit field is that of an N-bit two's-complement number. -/
theorem lse_range {n : Nat} (x : BitVec (n + 1)) : -(2 ^ n : Int) ≤ lse x ∧ lse x < 2 ^ n := by
  have hlo := BitVec.le_toInt (x.extractLsb' 0 1 ++ x.extractLsb' 1 n)
  have hhi := BitVec.toInt_lt (x := x.extractLsb' 0 1 ++ x.extractLsb' 1 n)
  rw [← lse_eq_toInt, Nat.add_sub_cancel_left] at hlo hhi
  exact ⟨hlo, hhi⟩

/-! ### The encoding of an integer -/

/-- The field with the left bits `m` and the sign bit `s`, written as a number, has the value `m - s * 2^(N-1)`. -/
theorem lse_ofInt_two_mul_add {n : Nat} {m s : Int} (hm : 0 ≤ m) (hlt : m < 2 ^ n) (hs : 0 ≤ s) (hs' : s < 2) :
    lse (BitVec.ofInt (n + 1) (2 * m + s)) = m - s * 2 ^ n := by
  lift m to Nat using hm
  lift s to Nat using hs
  have hlt : m < 2 ^ n := by exact_mod_cast hlt
  have hx : (BitVec.ofInt (n + 1) (2 * (m : Int) + (s : Int))).toNat = 2 * m + s := by
    have : 2 * m + s < 2 ^ (n + 1) := by rw [Nat.pow_succ']; omega
    rw [BitVec.toNat_ofInt]
    exact_mod_cast Nat.mod_eq_of_lt this
  have hdiv : (2 * m + s) / 2 = m := by omega
  have hmod : (2 * m + s) % 2 = s := by omega
  rw [lse_eq_leftBits_sub_signBit, toNat_leftBits, toNat_signBit, hx, hdiv, hmod]

/-- Encoding an integer of the range and extending the field gives it back. The left bits are `v` modulo `2^(N-1)`: `v`
itself when it is not negative, else `v + 2^(N-1)`. -/
theorem lse_encoded {n : Nat} {v : Int} (hlo : -(2 ^ n : Int) ≤ v) (hhi : v < 2 ^ n) :
    lse (BitVec.ofInt (n + 1) (2 * (v % 2 ^ n) + if v < 0 then 1 else 0)) = v := by
  by_cases hneg : v < 0
  · have hmod : v % 2 ^ n = v + 2 ^ n := by
      rw [← Int.add_emod_right, Int.emod_eq_of_lt (by omega) (by omega)]
    rw [if_pos hneg, hmod, lse_ofInt_two_mul_add (by omega) (by omega) (by decide) (by decide)]
    ring
  · rw [if_neg hneg, Int.emod_eq_of_lt (by omega) hhi, lse_ofInt_two_mul_add (by omega) hhi (by decide) (by decide)]
    ring

/-- Settles O6: value, range and two's-complement reading of every field, the encoding of every integer of the range, and
the four examples by evaluation. -/
theorem lowSignExtension : Obligations.LowSignExtension := by
  refine ⟨fun n x => ?_, fun n v hlo hhi => lse_encoded hlo hhi, by decide⟩
  obtain ⟨hlo, hhi⟩ := lse_range x
  exact ⟨lse_eq_leftBits_sub_signBit x, hlo, hhi, lse_eq_toInt x, rfl⟩

end Sys2Proof.Proofs
end

section
/-! SUPPORT. The invariant of the machine (10_state.md R29, R41, R55, R60, R61): every operation on the state keeps it,
then every shared meaning, every instruction and every step, and obligation O60. -/

namespace Sys2Proof.Proofs

open Sys2Proof Sys2Proof.Machine Sys2Proof.Laws

/-! ### Updates of the state -/

theorem inv_env {s : State} (d : Nat) (e : List EnvEvent) (hs : s.Inv) :
    State.Inv { s with draws := d, envTrace := e } :=
  { hs with }

theorem inv_setGR {s : State} (r : GReg) (v : Word) (hs : s.Inv) : (s.setGR r v).Inv :=
  { hs with }

theorem inv_setSR {s : State} (n : SReg) (v : Word) (hs : s.Inv) : (s.setSR n v).Inv :=
  { hs with }

theorem inv_st {s : State} (st : Status) (hs : s.Inv) : State.Inv { s with st := st } :=
  { hs with }

theorem inv_iaSeg {s : State} (seg : Word) (hs : s.Inv) : State.Inv { s with iaSeg := seg } :=
  { hs with }

theorem inv_setPc {s : State} (a : Word) (hs : s.Inv) : (s.setPc a).Inv :=
  { hs with iaOfs := wordAligned_dropLow2 a }

theorem inv_retire {s : State} (hs : s.Inv) : s.retire.Inv :=
  { hs with iaOfs := wordAligned_add_four hs.iaOfs }

theorem inv_resv {s : State} {rv : Option Word} (hrv : rv.all wordAligned = true) (hs : s.Inv) :
    State.Inv { s with resv := rv } :=
  { hs with resv := hrv }

/-- A control register but that of CR0 may be written, CR2 with five bits (R39, R41). -/
theorem inv_setCR {s : State} {n : CReg} {v : Word} (hswr : n ≠ 0#5) (hshamt : n = 2#5 → v.toNat < 32) (hs : s.Inv) :
    (s.setCR n v).Inv where
  __ := hs
  shamt := by
    rw [getCR_setCR]
    split
    · next h => exact hshamt h.symm
    · exact hs.shamt
  swr := by rw [getCR_setCR, if_neg hswr.symm, hs.swr]

/-- What MR writes to a control register: CR0 goes to the environment, CR2 is cut to its five bits. -/
theorem inv_writeCR {s : State} (n : CReg) (v : Word) (hs : s.Inv) : (writeCR n v s).Inv := by
  have hfive : (v &&& 0x1F#32).toNat < 32 := by
    rw [BitVec.toNat_and]
    exact lt_of_le_of_lt Nat.and_le_right (by decide)
  rw [writeCR]
  split_ifs with hswr hshamt
  · exact inv_env s.draws _ hs
  · exact inv_setCR hswr (fun _ => hfive) hs
  · exact inv_setCR hswr (fun h => absurd h hshamt) hs

theorem inv_tlbOf {s : State} (t : Bool) (hs : s.Inv) : tlbWf (s.tlbOf t) (tlbCapacity t) = true := by
  cases t
  · exact hs.itlb
  · exact hs.dtlb

theorem inv_withTlb {s : State} {t : Bool} {m : Tlb} (hm : tlbWf m (tlbCapacity t) = true) (hs : s.Inv) :
    (s.withTlb t m).Inv := by
  cases t
  · exact { hs with itlb := hm }
  · exact { hs with dtlb := hm }

theorem inv_filterFlags {s : State} (p q : Nat → Bool) (hs : s.Inv) :
    State.Inv { s with needsFlush := s.needsFlush.filter p, needsPurge := s.needsPurge.filter q } :=
  { hs with needsFlush := flagsWf_filter p hs.needsFlush, needsPurge := flagsWf_filter q hs.needsPurge }

theorem inv_markStale {s : State} (pa : Word) (hs : s.Inv) : (s.markStale pa).Inv :=
  { hs with needsFlush := flagsWf_addAddr pa hs.needsFlush, needsPurge := flagsWf_addAddr pa hs.needsPurge }

theorem inv_breakReservation {s : State} (pa : Word) (hs : s.Inv) : (s.breakReservation pa).Inv := by
  refine inv_resv ?_ hs
  split
  · rfl
  · exact hs.resv

/-! ### Traps -/

/-- CR0 and CR2 are not among the registers that a trap entry writes, and the handler's address is aligned because the
vector table base is. -/
theorem inv_takeTrap {p : Trap} {s t : State} (hs : s.Inv) (h : takeTrap p s = .next t) : t.Inv := by
  obtain ⟨halign, rfl⟩ := takeTrap_next.mp h
  exact { hs with
    iaOfs := wordAligned_handlerAddress _ halign
    resv := rfl
    shamt := by rw [getCR_trapEntry_other p s 2#5 (by decide)]; exact hs.shamt
    swr := by rw [getCR_trapEntry_other p s 0#5 (by decide)]; exact hs.swr }

theorem inv_trapReturn {s : State} (hs : s.Inv) : (trapReturn s).Inv :=
  { hs with iaOfs := wordAligned_dropLow2 _, resv := rfl }

/-- An instruction keeps the invariant if its own effect does: a trap is taken from the state before it. -/
theorem inv_conclude {s t : State} {x : Attempt State} (hs : s.Inv) (hx : ∀ u, x = .done u → u.Inv)
    (h : conclude s x = .next t) : t.Inv := by
  rcases conclude_next.mp h with hdone | ⟨p, -, htrap⟩
  · exact hx t hdone
  · exact inv_takeTrap hs htrap

/-! ### Accesses to memory -/

theorem inv_physRead {pa : Word} {w : Width} {v : Word} {s t : State} (hs : s.Inv)
    (h : physRead pa w s = .done (v, t)) : t.Inv := by
  obtain ⟨d, e, rfl⟩ := sameButEnv_iff.mp (physRead_sameButEnv h)
  exact inv_env d e hs

theorem inv_physWrite {pa : Word} {w : Width} {v : Word} {s t : State} (hs : s.Inv)
    (h : physWrite pa w v s = .done t) : t.Inv := by
  rcases physWrite_done.mp h with ⟨hinst, rfl⟩ | ⟨-, -, rfl⟩
  · have hmem : Memory.wf (s.mem.write pa.toNat w v) = true := wf_write _ _ _ (of_decide_eq_true hinst) hs.mem
    exact inv_markStale pa (inv_breakReservation pa { hs with mem := hmem })
  · exact inv_markStale pa (inv_breakReservation pa (inv_env s.draws _ hs))

theorem inv_store {w : Width} {r : GReg} {seg : BitVec 2} {x : Word} {s t : State} (hs : s.Inv)
    (h : store w r seg x s = .done t) : t.Inv := by
  obtain ⟨pa, u, -, hwrite, rfl⟩ := store_done.mp h
  exact inv_retire (inv_physWrite hs hwrite)

/-- The reserved address is that of an aligned access (R60). -/
theorem inv_loadReserved {r : GReg} {seg : BitVec 2} {x : Word} {s t : State} (hs : s.Inv)
    (h : loadReserved r seg x s = .done t) : t.Inv := by
  obtain ⟨pa, v, u, haddr, hread, rfl⟩ := loadReserved_done.mp h
  have hword : wordAligned pa = true := (wordAligned_iff pa).mpr (of_decide_eq_true (dataAddress_aligned haddr))
  exact inv_retire (inv_resv hword (inv_setGR r v (inv_physRead hs hread)))

theorem inv_storeConditional {r : GReg} {pa : Word} {s t : State} (hs : s.Inv)
    (h : storeConditional r pa s = .done t) : t.Inv := by
  have hdraw : State.Inv { s with draws := s.draws + 1 } := inv_env _ s.envTrace hs
  rcases storeConditional_done.mp h with ⟨-, u, hwrite, rfl⟩ | ⟨-, rfl⟩
  · exact inv_retire (inv_setGR r _ (inv_resv rfl (inv_physWrite hdraw hwrite)))
  · exact inv_retire (inv_setGR r _ (inv_resv rfl hdraw))

/-! ### Instructions -/

theorem inv_registerEffect {r : GReg} {s t : State} (hs : s.Inv) (h : RegisterEffect r s t) : t.Inv := by
  obtain ⟨d, e, v, rfl⟩ := h
  exact inv_retire (inv_setGR r v (inv_env d e hs))

theorem inv_sumEffect {r : GReg} {l : Bool} {s t : State} (hs : s.Inv) (h : SumEffect r l s t) : t.Inv := by
  obtain ⟨d, e, v, cb, -, rfl⟩ := h
  exact inv_retire (inv_setGR r v (inv_st _ (inv_env d e hs)))

theorem inv_branchIf {s : State} (taken : Bool) (ofs : BitVec 15) (hs : s.Inv) : (branchIf taken ofs s).Inv := by
  cases taken
  · exact inv_retire hs
  · exact inv_setPc _ hs

theorem inv_insertTranslation {s : State} (r : GReg) (t m : Bool) (a : BitVec 4) (b : GReg) (hs : s.Inv) :
    (insertTranslation r t m a b s).Inv := by
  have hwf := insertTranslation_tlbWf r t m a b (inv_tlbOf t hs)
  obtain ⟨l, d, heq⟩ := insertTranslation_eq r t m a b s
  rw [heq] at hwf ⊢
  have hl : tlbWf l (tlbCapacity t) = true := by cases t <;> exact hwf
  exact inv_env d _ (inv_withTlb hl hs)

/-- Every instruction keeps the invariant. What `Effect` says is enough for the instructions that write registers, the
status or the flags; for those that write IA-OFS, memory, the reservation or a TLB the values are needed. -/
theorem inv_exec {i : Instr} {s t : State} (hs : s.Inv) (h : exec i s = .next t) : t.Inv := by
  rcases exec_effect i s t h with ⟨p, htrap⟩ | heff
  · exact inv_takeTrap hs htrap
  cases i
  case ldwReg | ldhReg | ldbReg | ldwOfs | ldhOfs | ldbOfs | ldil | addil | ldo | and | or | xor | cmp | cmr | extr
      | dep | dsr | shla | lsid | prb => exact inv_registerEffect hs heff
  case ldwa | ldwax | ldpa => exact inv_registerEffect hs heff.2
  case add | sub => exact inv_sumEffect hs heff
  case mr r z d m x =>
    cases d
    case false => exact inv_registerEffect hs heff
    case true =>
      obtain ⟨-, rfl⟩ := heff
      split
      · exact inv_retire (inv_writeCR _ _ hs)
      · exact inv_retire (inv_setSR _ _ hs)
  case mst r mode =>
    obtain ⟨-, v, b, rfl⟩ := heff
    exact inv_retire (inv_st _ (inv_setGR r v hs))
  case pca =>
    obtain ⟨-, p, q, rfl⟩ := heff
    exact inv_retire (inv_filterFlags p q hs)
  case rfi =>
    obtain ⟨-, rfl⟩ := heff
    exact inv_trapReturn hs
  case diag | brk => exact heff.elim
  case b | br | bv | bvr => cases h; exact inv_setPc _ hs
  case bl | blr => cases h; exact inv_setPc _ (inv_setGR _ _ hs)
  case be => cases h; exact inv_setPc _ (inv_iaSeg _ hs)
  case ble => cases h; exact inv_setPc _ (inv_iaSeg _ (inv_setGR _ _ (inv_setSR _ _ hs)))
  case gate => cases h; exact inv_setPc _ (inv_st _ (inv_setGR _ _ hs))
  case cbr | tbr => cases h; exact inv_branchIf _ _ hs
  case stw | sth | stb => exact inv_conclude hs (fun _ hu => inv_store hs hu) h
  case ldwr => exact inv_conclude hs (fun _ hu => inv_loadReserved hs hu) h
  case stwc =>
    refine inv_conclude hs (fun u hu => ?_) h
    obtain ⟨pa, -, hcond⟩ := bind_done.mp hu
    exact inv_storeConditional hs hcond
  case stwa =>
    refine inv_conclude hs (fun u hu => ?_) h
    obtain ⟨-, hu⟩ := privileged_done.mp hu
    obtain ⟨pa, -, hu⟩ := bind_done.mp hu
    obtain ⟨v, hwrite, hu⟩ := bind_done.mp hu
    cases hu
    exact inv_retire (inv_physWrite hs hwrite)
  case itlb r q m a b =>
    refine inv_conclude hs (fun u hu => ?_) h
    obtain ⟨-, hu⟩ := privileged_done.mp hu
    cases hu
    exact inv_retire (inv_insertTranslation r q m a b hs)
  case ptlb q a b =>
    refine inv_conclude hs (fun u hu => ?_) h
    obtain ⟨-, hu⟩ := privileged_done.mp hu
    cases hu
    exact inv_retire (inv_withTlb (tlbWf_sublist List.filter_sublist (inv_tlbOf q hs)) hs)

/-! ### Steps -/

/-- A fetch changes the level, the recorded word, and what it draws from the environment. -/
theorem inv_fetch {s u : State} {w : Word} (hs : s.Inv) (h : fetch s = .done (w, u)) : u.Inv := by
  obtain ⟨pa, t, v, haddr, -, hread, rfl⟩ := fetch_done.mp h
  have ht : t.Inv := by
    rcases fetchAddress_done.mp haddr with ⟨-, -, rfl⟩ | ⟨-, -, e, -, -, -, -, rfl⟩
    · exact hs
    · exact inv_st _ hs
  exact { inv_physRead ht hread with }

theorem inv_pendingTrap {s u : State} {p : Trap} (hs : s.Inv) (h : pendingTrap s = some (p, u)) : u.Inv := by
  rcases pendingTrap_some h with ⟨-, -, -, rfl⟩ | ⟨-, -, rfl⟩ | ⟨-, -, -, rfl⟩
  · exact { hs with }
  · exact { hs with }
  · exact hs

/-- Settles O60: whatever a step does, a trap or an instruction, it does from a state that has the invariant, and each
of them keeps it. -/
theorem stepKeepsInv : Obligations.StepKeepsInv := by
  intro s t hs h
  rcases step_next h with ⟨p, u, hpend, htrap⟩ | ⟨-, p, -, htrap⟩ | ⟨-, w, u, i, hfetch, -, hexec⟩ |
      ⟨-, w, u, e, hfetch, -, htrap⟩
  · exact inv_takeTrap (inv_pendingTrap hs hpend) htrap
  · exact inv_takeTrap hs htrap
  · exact inv_exec (inv_fetch hs hfetch) hexec
  · exact inv_takeTrap (inv_fetch hs hfetch) htrap

end Sys2Proof.Proofs
end

section
/-! SUPPORT. TLB lookup (10_state.md R55, R56), and obligation O12. -/

namespace Sys2Proof.Proofs

open Sys2Proof Sys2Proof.Machine Sys2Proof.Laws

/-- A key is its segment and its page number. -/
theorem tlbKey_inj {seg seg' : Word} {vpn vpn' : BitVec 20} :
    tlbKey seg vpn = tlbKey seg' vpn' ↔ seg = seg' ∧ vpn = vpn' := by
  rw [tlbKey, tlbKey, ← BitVec.toNat_inj, ← BitVec.toNat_inj]
  omega

/-- In a map the search by key finds exactly the entry of the key: the keys rise, so no
later entry has the key of an earlier one. -/
theorem tlbFind_eq_some_iff {lo k : Nat} {t : Tlb} {e : TlbEntry} (ht : risingKeys lo t = true) :
    tlbFind t k = some e ↔ e ∈ t ∧ entryKey e = k := by
  induction t generalizing lo with
  | nil => simp [tlbFind]
  | cons a r ih =>
    simp only [risingKeys, Bool.and_eq_true, decide_eq_true_eq] at ht
    have hrest := ih ht.2
    rw [tlbFind, List.mem_cons]
    split
    · next hkey =>
      have hbelow : tlbFind r k = none := tlbFind_below r (by omega) ht.2
      constructor
      · rintro ⟨⟩
        exact ⟨.inl rfl, hkey⟩
      · rintro ⟨rfl | hlater, hkey'⟩
        · rfl
        · cases hbelow.symm.trans (hrest.mpr ⟨hlater, hkey'⟩)
    · next hkey =>
      rw [hrest]
      exact and_congr_left fun hkey' => (or_iff_right (by rintro rfl; exact hkey hkey')).symm

/-- In a map the search by segment and page finds exactly the entry of the page, valid or not. -/
theorem tlbFind_page {t : Tlb} {seg : Word} {vpn : BitVec 20} {e : TlbEntry} (ht : risingKeys 0 t = true) :
    tlbFind t (tlbKey seg vpn) = some e ↔ e ∈ t ∧ e.seg = seg ∧ e.vpn = vpn := by
  rw [tlbFind_eq_some_iff ht, entryKey, tlbKey_inj]

/-- A lookup answers what the search finds, if that is valid. -/
theorem tlbLookup_some_iff {t : Tlb} {seg ofs : Word} {e : TlbEntry} :
    tlbLookup t seg ofs = some e ↔ tlbFind t (tlbKey seg (pageOf ofs)) = some e ∧ e.v = true := by
  rw [tlbLookup]
  cases tlbFind t (tlbKey seg (pageOf ofs)) with
  | none => simp
  | some f =>
    cases hv : f.v
    · simp only [hv, Bool.false_eq_true, if_false, Option.some.injEq, reduceCtorEq, false_iff, not_and]
      rintro rfl
      simp [hv]
    · simp only [hv, if_true, Option.some.injEq, iff_self_and]
      rintro rfl
      exact hv

/-- A lookup misses when the search finds nothing, or an entry that is not valid. -/
theorem tlbLookup_none_iff {t : Tlb} {seg ofs : Word} :
    tlbLookup t seg ofs = none ↔ ∀ e, tlbFind t (tlbKey seg (pageOf ofs)) = some e → e.v = false := by
  rw [Option.eq_none_iff_forall_ne_some]
  exact forall_congr' fun e => by rw [Ne, tlbLookup_some_iff, not_and, Bool.not_eq_true]

/-- Settles O12, through the search by key: in a map it finds exactly the entry of the page. -/
theorem tlbLookup_finds : Obligations.TlbLookup := by
  intro t seg ofs ht
  refine ⟨fun e => ?_, ?_, fun e => tlbFind_page ht⟩
  · rw [tlbLookup_some_iff, tlbFind_page ht, pageOf, and_assoc, and_assoc]
  · rw [tlbLookup_none_iff]
    simp only [tlbFind_page ht, pageOf, and_imp]

end Sys2Proof.Proofs
end

section
/-! SUPPORT. Trap entry (60_exceptions.md R341) and the status word (10_state.md R35), with obligations O43 and O44. -/

namespace Sys2Proof.Proofs

open Sys2Proof Sys2Proof.Machine Sys2Proof.Laws

/-! ### Taking a trap -/

/-- The parameters that a trap has are saved in CR20, CR21 and CR22 (R344). -/
theorem getCR_trapEntry_params (p : Trap) (s : State) :
    (∀ v, p.p0 = some v → (trapEntry p s).getCR 20#5 = v) ∧ (∀ v, p.p1 = some v → (trapEntry p s).getCR 21#5 = v) ∧
      (∀ v, p.p2 = some v → (trapEntry p s).getCR 22#5 = v) := by
  refine ⟨fun v h => ?_, fun v h => ?_, fun v h => ?_⟩
  · rw [getCR_trapEntry_20, h, Option.getD_some]
  · rw [getCR_trapEntry_21, h, Option.getD_some]
  · rw [getCR_trapEntry_22, h, Option.getD_some]

/-- Settles O43: the base decides between entry and refusal; the registers that the entry writes are read back, and every
other field of it is as `trapEntry` gives it. -/
theorem trapEntryEffect : Obligations.TrapEntryEffect := by
  refine ⟨rfl, ?_⟩
  rintro p s t rfl
  have hentry : (s.getCR 16#5).toNat % 4096 = 0 → takeTrap p s = .next (trapEntry p s) := fun h =>
    takeTrap_aligned (vectorAligned_iff.mpr h)
  have hrefused : (s.getCR 16#5).toNat % 4096 ≠ 0 → takeTrap p s = .refused .vectorBase := fun h =>
    takeTrap_refused (Bool.eq_false_iff.mpr (mt vectorAligned_iff.mp h))
  exact ⟨hentry, hrefused, ⟨getCR_trapEntry_17 p s, getCR_trapEntry_18 p s, getCR_trapEntry_19 p s⟩,
    getCR_trapEntry_params p s, ⟨rfl, rfl, rfl, rfl, rfl, rfl, rfl, rfl, rfl, rfl⟩, rfl, rfl, rfl, rfl, rfl,
    fun _ => rfl, rfl, rfl, rfl, rfl, ⟨rfl, rfl, rfl⟩, fun n hn => getCR_trapEntry_other p s n (by omega)⟩

/-! ### The status word -/

/-- A status word is read at its implemented bits only. -/
theorem statusOfWord_and_mask (w : Word) : statusOfWord (w &&& 0xE008003F#32) = statusOfWord w := by
  simp [statusOfWord, Config.stCbBit]

/-- Each implemented bit is placed outside the reserved ones. -/
theorem statusBit_and_reserved :
    ∀ b, ∀ k ∈ [31, 30, 29, Config.stCbBit, 5, 4, 3, 2, 1, 0], statusBit b k &&& ~~~0xE008003F#32 = 0#32 := by
  decide

theorem statusWord_and_reserved (st : Status) : statusWord st &&& ~~~0xE008003F#32 = 0#32 := by
  simp (disch := decide) only [statusWord, or_and_mask, statusBit_and_reserved, BitVec.or_self]

/-- Settles O44. Each bit's place follows from the round trip: `ST <- ST_word` reads it there. -/
theorem statusWordLayout : Obligations.StatusWordLayout := by
  intro st
  have hback := statusOfWord_statusWord st
  refine ⟨hback, fun w w' h => ?_, statusWord_and_reserved st, congrArg Status.m hback, congrArg Status.c hback,
    congrArg Status.x hback, congrArg Status.cb hback, congrArg Status.u26 hback, congrArg Status.u27 hback,
    congrArg Status.u28 hback, congrArg Status.p hback, congrArg Status.d hback, congrArg Status.e hback⟩
  rw [← statusOfWord_and_mask w, h, statusOfWord_and_mask]

end Sys2Proof.Proofs
end

section
/-! SUPPORT. Which instructions write which part of the state: from the effect of each instruction, the general
registers it can write (10_state.md R25), and the few that write a segment or control register, IA-SEG, ST or a TLB; with
obligations O49, O50 and O52. -/

namespace Sys2Proof.Proofs

open Sys2Proof Sys2Proof.Machine Sys2Proof.Laws

/-! ### General registers -/

theorem sameGRBut_of_gr {s t : State} (r : GReg) (h : t.gr = s.gr) : SameGRBut r s t :=
  fun q _ => getGR_congr h q

theorem sameGRBut_of_gr_set {r : GReg} {v : Word} {s t : State} (h : t.gr = (s.setGR r v).gr) : SameGRBut r s t :=
  fun q hq => by rw [getGR_congr h q, getGR_setGR, if_neg hq]

theorem isTrapEntryFrom_gr {s t : State} (h : IsTrapEntryFrom s t) : t.gr = s.gr := by
  obtain ⟨p, hp⟩ := h
  obtain ⟨-, rfl⟩ := takeTrap_next.mp hp
  rfl

/-- A trap writes no general register, so the effect alone says which one an instruction can write. -/
theorem sameGRBut_of_exec {i : Instr} {r : GReg} {s t : State} (h : exec i s = .next t)
    (heff : Effect i s t → SameGRBut r s t) : SameGRBut r s t :=
  (exec_effect i s t h).elim (fun htrap => sameGRBut_of_gr r (isTrapEntryFrom_gr htrap)) heff

theorem gr_of_exec {i : Instr} {s t : State} (h : exec i s = .next t) (heff : Effect i s t → t.gr = s.gr) :
    t.gr = s.gr :=
  (exec_effect i s t h).elim isTrapEntryFrom_gr heff

theorem registerEffect_sameGRBut {r : GReg} {s t : State} (h : RegisterEffect r s t) : SameGRBut r s t := by
  obtain ⟨d, e, v, rfl⟩ := h
  exact sameGRBut_of_gr_set (v := v) rfl

theorem sumEffect_sameGRBut {r : GReg} {l : Bool} {s t : State} (h : SumEffect r l s t) : SameGRBut r s t := by
  obtain ⟨d, e, v, cb, -, rfl⟩ := h
  exact sameGRBut_of_gr_set (v := v) rfl

theorem linkEffect_sameGRBut {r : GReg} {s t : State} (h : LinkEffect r s t) : SameGRBut r s t := by
  obtain ⟨a, v, rfl⟩ := h
  exact sameGRBut_of_gr_set (v := v) rfl

theorem storeEffect_gr {w : Width} {s t : State} {admits : Word → Prop} (h : StoreEffect w s admits t) :
    t.gr = s.gr := by
  obtain ⟨pa, m, e, f, g, rv, -, rfl, -⟩ := h
  rfl

theorem jumpEffect_gr {s t : State} (h : JumpEffect s t) : t.gr = s.gr := by
  obtain ⟨a, rfl⟩ := h
  rfl

theorem writeCR_eq (n : CReg) (v : Word) (s : State) : ∃ c e, writeCR n v s = { s with cr := c, envTrace := e } := by
  rw [writeCR]
  split_ifs
  · exact ⟨s.cr, _, rfl⟩
  · exact ⟨_, s.envTrace, rfl⟩
  · exact ⟨_, s.envTrace, rfl⟩

/-- MR to a special register writes a segment or a control register, or hands CR0's value to the environment. -/
theorem moveToSpecial_effect {r : GReg} {z m : Bool} {x : BitVec 6} {s t : State}
    (h : Effect (.mr r z true m x) s t) : ∃ c n e, t = { s with cr := c, sr := n, envTrace := e }.retire := by
  obtain ⟨-, rfl⟩ := h
  cases m
  · exact ⟨s.cr, _, s.envTrace, rfl⟩
  · obtain ⟨c, e, h⟩ := writeCR_eq (specialCR x) (if z then 0#32 else s.getGR r) s
    exact ⟨c, s.sr, e, congrArg State.retire h⟩

/-- Settles O52, by the effect of each instruction. -/
theorem registerFrame : Obligations.RegisterFrame := by
  intro i s t h
  cases i
  case ldwReg | ldhReg | ldbReg | ldwOfs | ldhOfs | ldbOfs | ldil | addil | ldo | and | or | xor | cmp | cmr | extr
      | dep | dsr | shla | lsid | prb => exact sameGRBut_of_exec h fun he => registerEffect_sameGRBut he
  case ldwa | ldwax | ldpa => exact sameGRBut_of_exec h fun he => registerEffect_sameGRBut he.2
  case add | sub => exact sameGRBut_of_exec h fun he => sumEffect_sameGRBut he
  case bl | blr => exact sameGRBut_of_exec h fun he => linkEffect_sameGRBut he
  case mr r z d m x =>
    cases d
    case false => exact sameGRBut_of_exec h fun he => registerEffect_sameGRBut he
    case true =>
      refine gr_of_exec h fun he => ?_
      obtain ⟨c, n, e, rfl⟩ := moveToSpecial_effect he
      rfl
  case ldwr =>
    refine sameGRBut_of_exec h ?_
    rintro ⟨d, e, v, rv, rfl⟩
    exact sameGRBut_of_gr_set (v := v) rfl
  case stwc =>
    refine sameGRBut_of_exec h ?_
    rintro ⟨pa, m, e, f, g, v, d, -, rfl, -⟩
    exact sameGRBut_of_gr_set (v := v) rfl
  case gate | ble =>
    refine sameGRBut_of_exec h ?_
    rintro ⟨o, v, rfl⟩
    exact sameGRBut_of_gr_set (v := v) rfl
  case mst =>
    refine sameGRBut_of_exec h ?_
    rintro ⟨-, v, b, rfl⟩
    exact sameGRBut_of_gr_set (v := v) rfl
  case stw | sth | stb => exact gr_of_exec h fun he => storeEffect_gr he
  case stwa => exact gr_of_exec h fun he => storeEffect_gr he.2
  case b | br | bv | bvr | cbr | tbr => exact gr_of_exec h fun he => jumpEffect_gr he
  case be =>
    refine gr_of_exec h ?_
    rintro ⟨o, rfl⟩
    rfl
  case itlb | ptlb =>
    refine gr_of_exec h ?_
    rintro ⟨-, l, d, rfl⟩
    exact withTlb_gr s _ l
  case pca =>
    refine gr_of_exec h ?_
    rintro ⟨-, p, q, rfl⟩
    rfl
  case rfi =>
    refine gr_of_exec h ?_
    rintro ⟨-, rfl⟩
    rfl
  case diag | brk => exact gr_of_exec h False.elim

/-! ### Segment and control registers, IA-SEG, ST and the TLBs -/

/-- The instructions that, when they do not trap, write a segment or control register, IA-SEG, ST or a TLB. -/
inductive WritesControl : Instr → Prop
  | mr (r z m x) : WritesControl (.mr r z true m x)
  | mst (r mode) : WritesControl (.mst r mode)
  | gate (r ofs) : WritesControl (.gate r ofs)
  | be (ofs a b) : WritesControl (.be ofs a b)
  | ble (ofs a b) : WritesControl (.ble ofs a b)
  | add (r c o opd) : WritesControl (.add r c false o opd)
  | sub (r c o opd) : WritesControl (.sub r c false o opd)
  | itlb (r q m a b) : WritesControl (.itlb r q m a b)
  | ptlb (q a b) : WritesControl (.ptlb q a b)
  | rfi : WritesControl .rfi

theorem registerEffect_sameControl {r : GReg} {s t : State} (h : RegisterEffect r s t) : SameControl s t := by
  obtain ⟨d, e, v, rfl⟩ := h
  exact ⟨rfl, rfl, rfl, rfl, rfl, rfl⟩

theorem storeEffect_sameControl {w : Width} {s t : State} {admits : Word → Prop} (h : StoreEffect w s admits t) :
    SameControl s t := by
  obtain ⟨pa, m, e, f, g, rv, -, rfl, -⟩ := h
  exact ⟨rfl, rfl, rfl, rfl, rfl, rfl⟩

theorem jumpEffect_sameControl {s t : State} (h : JumpEffect s t) : SameControl s t := by
  obtain ⟨a, rfl⟩ := h
  exact ⟨rfl, rfl, rfl, rfl, rfl, rfl⟩

theorem linkEffect_sameControl {r : GReg} {s t : State} (h : LinkEffect r s t) : SameControl s t := by
  obtain ⟨a, v, rfl⟩ := h
  exact ⟨rfl, rfl, rfl, rfl, rfl, rfl⟩

/-- With L = 1 ADD and SUB do not write ST.CB. -/
theorem sumEffect_sameControl {r : GReg} {s t : State} (h : SumEffect r true s t) : SameControl s t := by
  obtain ⟨d, e, v, cb, hcb, rfl⟩ := h
  obtain rfl := hcb rfl
  exact ⟨rfl, rfl, rfl, rfl, rfl, rfl⟩

/-- Every other instruction leaves all of them unchanged. -/
theorem effect_sameControl {i : Instr} {s t : State} (h : Effect i s t) : SameControl s t ∨ WritesControl i := by
  cases i
  case ldwReg | ldhReg | ldbReg | ldwOfs | ldhOfs | ldbOfs | ldil | addil | ldo | and | or | xor | cmp | cmr | extr
      | dep | dsr | shla | lsid | prb => exact .inl (registerEffect_sameControl h)
  case ldwa | ldwax | ldpa => exact .inl (registerEffect_sameControl h.2)
  case stw | sth | stb => exact .inl (storeEffect_sameControl h)
  case stwa => exact .inl (storeEffect_sameControl h.2)
  case ldwr =>
    obtain ⟨d, e, v, rv, rfl⟩ := h
    exact .inl ⟨rfl, rfl, rfl, rfl, rfl, rfl⟩
  case stwc =>
    obtain ⟨pa, m, e, f, g, v, d, -, rfl, -⟩ := h
    exact .inl ⟨rfl, rfl, rfl, rfl, rfl, rfl⟩
  case pca =>
    obtain ⟨-, p, q, rfl⟩ := h
    exact .inl ⟨rfl, rfl, rfl, rfl, rfl, rfl⟩
  case b | br | bv | bvr | cbr | tbr => exact .inl (jumpEffect_sameControl h)
  case bl | blr => exact .inl (linkEffect_sameControl h)
  case diag | brk => exact h.elim
  case mr r z d m x =>
    cases d
    case false => exact .inl (registerEffect_sameControl h)
    case true => exact .inr (.mr r z m x)
  case add r c l o opd =>
    cases l
    case false => exact .inr (.add r c o opd)
    case true => exact .inl (sumEffect_sameControl h)
  case sub r c l o opd =>
    cases l
    case false => exact .inr (.sub r c o opd)
    case true => exact .inl (sumEffect_sameControl h)
  case mst => exact .inr (.mst ..)
  case gate => exact .inr (.gate ..)
  case be => exact .inr (.be ..)
  case ble => exact .inr (.ble ..)
  case itlb => exact .inr (.itlb ..)
  case ptlb => exact .inr (.ptlb ..)
  case rfi => exact .inr .rfi

/-! ### External branches -/

theorem externalSegment_untranslated {s : State} (a : BitVec 4) (h : s.st.c = false) :
    externalSegment a s = s.iaSeg := by
  rw [externalSegment, h]
  rfl

theorem externalSegment_translated {s : State} (a : BitVec 4) (h : s.st.c = true) :
    externalSegment a s = s.getSR (segReg a) :=
  if_pos h

/-- The link of BLE: SR0 receives IA-SEG. -/
theorem ble_next (ofs : BitVec 18) (a : BitVec 4) (b : GReg) (s : State) :
    ∃ t, exec (.ble ofs a b) s = .next t ∧ t.getSR 0#3 = s.iaSeg ∧ t.iaSeg = externalSegment a s :=
  ⟨_, rfl, getSR_setSR s 0#3 0#3 s.iaSeg, rfl⟩

/-! ### The writers of IA-SEG, ST.CB and the TLBs (10_state.md R31, R37, R51) -/

/-- IA-SEG is kept, or it is RFI that takes it from CR18, or BE or BLE that takes it from the segment it branches to. -/
def IaSegEffect (i : Instr) (s t : State) : Prop :=
  t.iaSeg = s.iaSeg ∨ (i = .rfi ∧ t.iaSeg = s.getCR 18#5) ∨
    ∃ ofs a b, (i = .be ofs a b ∨ i = .ble ofs a b ∧ t.getSR 0#3 = s.iaSeg) ∧ t.iaSeg = externalSegment a s

/-- ST.CB is kept, or the instruction is RFI, or ADD or SUB with L = 0. -/
def CarryEffect (i : Instr) (s t : State) : Prop :=
  t.st.cb = s.st.cb ∨ i = .rfi ∨ ∃ r c o opd, i = .add r c false o opd ∨ i = .sub r c false o opd

/-- Both TLBs are kept, or the instruction is ITLB or PTLB in privileged mode. -/
def TlbEffect (i : Instr) (s t : State) : Prop :=
  (t.itlb = s.itlb ∧ t.dtlb = s.dtlb) ∨
    s.st.x = false ∧ ((∃ r q m a b, i = .itlb r q m a b) ∨ ∃ q a b, i = .ptlb q a b)

/-- What an instruction that does not trap does to the three: those that write a segment or control register, IA-SEG, ST
or a TLB are gone through one by one. -/
theorem effect_writers {i : Instr} {s t : State} (h : Effect i s t) :
    IaSegEffect i s t ∧ CarryEffect i s t ∧ TlbEffect i s t := by
  rcases effect_sameControl h with hsame | hw
  · exact ⟨.inl hsame.iaSeg, .inl (congrArg Status.cb hsame.st), .inl ⟨hsame.itlb, hsame.dtlb⟩⟩
  cases hw
  case mr =>
    obtain ⟨c, n, e, rfl⟩ := moveToSpecial_effect h
    exact ⟨.inl rfl, .inl rfl, .inl ⟨rfl, rfl⟩⟩
  case mst =>
    obtain ⟨-, v, b, rfl⟩ := h
    exact ⟨.inl rfl, .inl rfl, .inl ⟨rfl, rfl⟩⟩
  case gate =>
    obtain ⟨o, v, rfl⟩ := h
    exact ⟨.inl rfl, .inl rfl, .inl ⟨rfl, rfl⟩⟩
  case be ofs a b =>
    obtain ⟨o, rfl⟩ := h
    exact ⟨.inr (.inr ⟨ofs, a, b, .inl rfl, rfl⟩), .inl rfl, .inl ⟨rfl, rfl⟩⟩
  case ble ofs a b =>
    obtain ⟨o, v, rfl⟩ := h
    have hlink : (s.setSR 0#3 s.iaSeg).getSR 0#3 = s.iaSeg := getSR_setSR s 0#3 0#3 s.iaSeg
    exact ⟨.inr (.inr ⟨ofs, a, b, .inr ⟨rfl, hlink⟩, rfl⟩), .inl rfl, .inl ⟨rfl, rfl⟩⟩
  case add r c o opd =>
    obtain ⟨d, e, v, cb, -, rfl⟩ := h
    exact ⟨.inl rfl, .inr (.inr ⟨r, c, o, opd, .inl rfl⟩), .inl ⟨rfl, rfl⟩⟩
  case sub r c o opd =>
    obtain ⟨d, e, v, cb, -, rfl⟩ := h
    exact ⟨.inl rfl, .inr (.inr ⟨r, c, o, opd, .inr rfl⟩), .inl ⟨rfl, rfl⟩⟩
  case itlb r q m a b =>
    obtain ⟨hkernel, l, d, rfl⟩ := h
    exact ⟨.inl (withTlb_iaSeg s q l), .inl (congrArg Status.cb (withTlb_st s q l)),
      .inr ⟨hkernel, .inl ⟨r, q, m, a, b, rfl⟩⟩⟩
  case ptlb q a b =>
    obtain ⟨hkernel, l, d, rfl⟩ := h
    exact ⟨.inl (withTlb_iaSeg s q l), .inl (congrArg Status.cb (withTlb_st s q l)),
      .inr ⟨hkernel, .inr ⟨q, a, b, rfl⟩⟩⟩
  case rfi =>
    obtain ⟨-, rfl⟩ := h
    exact ⟨.inr (.inl ⟨rfl, rfl⟩), .inr (.inl rfl), .inl ⟨rfl, rfl⟩⟩

/-- Settles O49: with translation off BE and BLE continue in the segment they are in, so of the writers only RFI and
traps are left. -/
theorem iaSegWriters : Obligations.IaSegWriters := by
  have htrap : ∀ (p : Trap) (s t : State), takeTrap p s = .next t → t.iaSeg = 0#32 ∧ t.getCR 18#5 = s.iaSeg := by
    intro p s t h
    obtain ⟨-, rfl⟩ := takeTrap_next.mp h
    exact ⟨rfl, getCR_trapEntry_18 p s⟩
  refine ⟨fun i s t h => ?_, fun s hc => ⟨fun seg => ?_, fun p t h => (htrap p s t h).2, fun ofs a b => ?_⟩⟩
  · rcases exec_effect i s t h with ⟨p, hp⟩ | heff
    · exact .inr (.inl ⟨⟨p, hp⟩, htrap p s t hp⟩)
    rcases (effect_writers heff).1 with hsame | hrfi | ⟨ofs, a, b, hi, hseg⟩
    · exact .inl hsame
    · exact .inr (.inr (.inl hrfi))
    cases hc : s.st.c
    · exact .inl (hseg.trans (externalSegment_untranslated a hc))
    · exact .inr (.inr (.inr ⟨rfl, ofs, a, b, hi, hseg.trans (externalSegment_translated a hc)⟩))
  · exact fetchAddress_done.mpr (.inl ⟨.inl hc, rfl, rfl⟩)
  · obtain ⟨t, hnext, hlink, hseg⟩ := ble_next ofs a b s
    exact ⟨t, hnext, hlink, hseg.trans (externalSegment_untranslated a hc)⟩

/-- Settles O50: a trap changes ST.CB but no TLB. -/
theorem carryAndTlbWriters : Obligations.CarryAndTlbWriters := by
  intro i s t h
  rcases exec_effect i s t h with ⟨p, hp⟩ | heff
  · obtain ⟨-, rfl⟩ := takeTrap_next.mp hp
    exact ⟨fun _ => .inl ⟨p, hp⟩, fun htlb => absurd htlb (by simp)⟩
  · obtain ⟨-, hcarry, htlbs⟩ := effect_writers heff
    exact ⟨fun hcb => .inr (hcarry.resolve_left hcb),
      fun htlb => htlbs.resolve_left fun ⟨hi, hd⟩ => htlb.elim (· hi) (· hd)⟩

end Sys2Proof.Proofs
end

section
/-! SUPPORT. Segment selection (20_memory.md R86 to R89) and the bytes of memory (R70, R72), with obligations O7
and O8. -/

namespace Sys2Proof.Proofs

open Sys2Proof Sys2Proof.Machine Sys2Proof.Laws

/-! ### Segment selection -/

/-- A logical address names SR4 to SR7 by its two leftmost bits (R88). -/
theorem segSelect_eq_ofNat (x : Word) : segSelect x = BitVec.ofNat 3 (4 + x.toNat / 2 ^ 30) := by
  have hx := x.isLt
  apply BitVec.eq_of_toNat_eq
  rw [toNat_segSelect, BitVec.toNat_ofNat]
  omega

/-- The offset of a logical address is its low 30 bits (R89). -/
theorem ofsSelect_eq_ofNat (x : Word) : ofsSelect x = BitVec.ofNat 32 (x.toNat % 2 ^ 30) := by
  apply BitVec.eq_of_toNat_eq
  rw [toNat_ofsSelect, BitVec.toNat_ofNat]
  omega

theorem selectSegment_logical (x : Word) : selectSegment 0#2 x = (segSelect x, ofsSelect x) := rfl

theorem selectSegment_named {seg : BitVec 2} (x : Word) (h : seg ≠ 0#2) :
    selectSegment seg x = (BitVec.ofNat 3 seg.toNat, x) := by
  rw [selectSegment, if_neg h, BitVec.ofNat_toNat]

/-- SR0 is not among the registers that an operand can name: a logical address names one from SR4 on, another field
the register of its own number. -/
theorem selectSegment_ne_zero (seg : BitVec 2) (x : Word) : (selectSegment seg x).1 ≠ 0#3 := by
  intro hzero
  have hnum : (selectSegment seg x).1.toNat = 0 := congrArg BitVec.toNat hzero
  by_cases h : seg = 0#2
  · subst h
    rw [selectSegment_logical, toNat_segSelect] at hnum
    omega
  · have hseg := seg.isLt
    rw [selectSegment_named x h, BitVec.toNat_ofNat, Nat.mod_eq_of_lt (by omega)] at hnum
    exact h (BitVec.eq_of_toNat_eq hnum)

/-- Settles O7: the two cases of the seg field, each with the register and the offset it selects. -/
theorem segmentSelection : Obligations.SegmentSelection := by
  refine fun seg x s => ⟨?_, fun h => ?_, selectSegment_ne_zero seg x, ofsSelect_eq_ofNat x⟩
  · rintro rfl
    rw [virtualAddress, selectSegment_logical, segSelect_eq_ofNat, ofsSelect_eq_ofNat]
  · rw [virtualAddress, selectSegment_named x h]

/-! ### Big-endian memory -/

theorem byte_write_word (m : Memory) (a : Nat) (v : Word) :
    (m.write a .word v).byte a = v.extractLsb' 24 8 ∧ (m.write a .word v).byte (a + 1) = v.extractLsb' 16 8 ∧
      (m.write a .word v).byte (a + 2) = v.extractLsb' 8 8 ∧ (m.write a .word v).byte (a + 3) = v.extractLsb' 0 8 := by
  simp [Memory.write]

theorem byte_write_half (m : Memory) (a : Nat) (v : Word) :
    (m.write a .half v).byte a = v.extractLsb' 8 8 ∧ (m.write a .half v).byte (a + 1) = v.extractLsb' 0 8 := by
  simp [Memory.write]

theorem byte_write_byte (m : Memory) (a : Nat) (v : Word) :
    (m.write a .byte v).byte a = v.extractLsb' 0 8 := by
  simp [Memory.write]

theorem toNat_read_word (m : Memory) (a : Nat) :
    (m.read a .word).toNat = (m.byte a).toNat * 2 ^ 24 + (m.byte (a + 1)).toNat * 2 ^ 16 +
      (m.byte (a + 2)).toNat * 2 ^ 8 + (m.byte (a + 3)).toNat := by
  rw [Memory.read, toNat_append_eq, toNat_append_eq, toNat_append_eq]
  ring

/-- Two bytes make a number below 2^16, so zero extension keeps it. -/
theorem toNat_read_half (m : Memory) (a : Nat) :
    (m.read a .half).toNat = (m.byte a).toNat * 2 ^ 8 + (m.byte (a + 1)).toNat := by
  have hhi := (m.byte a).isLt
  have hlo := (m.byte (a + 1)).isLt
  rw [Memory.read, BitVec.toNat_setWidth, toNat_append_eq]
  exact Nat.mod_eq_of_lt (by omega)

theorem toNat_read_byte (m : Memory) (a : Nat) : (m.read a .byte).toNat = (m.byte a).toNat :=
  BitVec.toNat_setWidth_of_le (by decide)

/-- The low bytes of a value as arithmetic. -/
theorem toNat_lowBytes (w : Width) (v : Word) : (lowBytes w v).toNat = v.toNat % 2 ^ (8 * widthBytes w) := by
  cases w
  case word => exact (Nat.mod_eq_of_lt v.isLt).symm
  case half => exact lowBytes_half v
  case byte => exact lowBytes_byte v

/-- Settles O8: the place of each byte, the frame, the value of each width, and the value read back. -/
theorem bigEndianMemory : Obligations.BigEndianMemory := by
  intro m a v
  refine ⟨byte_write_word m a v, byte_write_half m a v, byte_write_byte m a v,
    fun w b hb => byte_write_outside m a b w v hb, toNat_read_word m a, toNat_read_half m a, toNat_read_byte m a,
    read_write_same m a .word v, ?_, ?_⟩
  · rw [read_write_same]
    exact toNat_lowBytes .half v
  · rw [read_write_same]
    exact toNat_lowBytes .byte v

end Sys2Proof.Proofs
end

section
/-! SUPPORT. Data access (20_memory.md R91 to R113): which of the three ways an access takes, when each of them finds a
physical address and which trap it raises otherwise; access rights and protection ids; accesses in the I/O range; with
obligations O9, O10 and O11. -/

namespace Sys2Proof.Proofs

open Sys2Proof Sys2Proof.Machine Sys2Proof.Laws

/-! ### The tests on an offset and on an entry -/

theorem aligned_iff {w : Width} {ofs : Word} : aligned w ofs = true ↔ ofs.toNat % widthBytes w = 0 :=
  decide_eq_true_iff

theorem aligned_eq_false {w : Width} {ofs : Word} (h : ofs.toNat % widthBytes w ≠ 0) : aligned w ofs = false :=
  decide_eq_false h

/-- The bypass is for segment 0 alone (R92). -/
theorem bypassed_zero : bypassed 0#32 = true := rfl

theorem bypassed_eq_false {seg : Word} (h : seg ≠ 0#32) : bypassed seg = false :=
  decide_eq_false h

theorem foreign_iff {e : TlbEntry} : foreign e = true ↔ e.addr.bank ≠ 0#4 ∨ e.addr.cpuId ≠ 0#4 := by
  rw [foreign, Bool.or_eq_true, decide_eq_true_iff, decide_eq_true_iff]

theorem foreign_eq_false {e : TlbEntry} (hbank : e.addr.bank = 0#4) (hcpu : e.addr.cpuId = 0#4) :
    foreign e = false := by
  rw [← Bool.not_eq_true, foreign_iff]
  simp [hbank, hcpu]

/-! ### The three ways of an access -/

theorem plainAddress_misaligned {w : Width} {ofs : Word} (s : State) (h : ofs.toNat % widthBytes w ≠ 0) :
    plainAddress w ofs s = .trap (dataTrap .alignment 0#32 ofs s) := by
  rw [plainAddress, aligned_eq_false h]
  rfl

theorem dataAddress_off {write : Bool} {w : Width} {seg : BitVec 2} {x : Word} {s : State} (hd : s.st.d = false) :
    dataAddress write w seg x s = plainAddress w x s := by
  rw [dataAddress, hd]
  rfl

theorem dataAddress_bypassed {write : Bool} {w : Width} {seg : BitVec 2} {x vofs : Word} {s : State}
    (hd : s.st.d = true) (hva : virtualAddress seg x s = (0#32, vofs)) :
    dataAddress write w seg x s = plainAddress w vofs s := by
  rw [dataAddress, hd, hva, bypassed_zero]
  rfl

theorem dataAddress_translated {write : Bool} {w : Width} {seg : BitVec 2} {x segid vofs : Word} {s : State}
    (hd : s.st.d = true) (hva : virtualAddress seg x s = (segid, vofs)) (hseg : segid ≠ 0#32) :
    dataAddress write w seg x s = translateData write w segid vofs s := by
  rw [dataAddress, hd, hva, bypassed_eq_false hseg]
  rfl

/-! ### The traps of a translated access, in their order (60_exceptions.md R348) -/

section
variable {write : Bool} {w : Width} {segid ofs : Word} {s : State} {e : TlbEntry}

theorem translateData_miss (h : tlbLookup s.dtlb segid ofs = none) :
    translateData write w segid ofs s = .trap (dataTrap .dataTlbMiss segid ofs s) := by
  simp [translateData, h]

theorem translateData_rights (h : tlbLookup s.dtlb segid ofs = some e)
    (hrights : (if write then writeAllowed e s.st.x else readAllowed e s.st.x) = false) :
    translateData write w segid ofs s = .trap (dataTrap .dataAccessRights segid ofs s) := by
  simp [translateData, h, hrights]

theorem translateData_protection (h : tlbLookup s.dtlb segid ofs = some e)
    (hrights : (if write then writeAllowed e s.st.x else readAllowed e s.st.x) = true)
    (hp : s.st.p = true) (hpid : pidOk e write s = false) :
    translateData write w segid ofs s = .trap (dataTrap .dataProtection segid ofs s) := by
  simp [translateData, h, hrights, hp, hpid]

/-- What is left to test when the entry admits the access: its bits T, B and D, the alignment, its bank and CPU. -/
theorem translateData_admitted (h : tlbLookup s.dtlb segid ofs = some e)
    (hrights : (if write then writeAllowed e s.st.x else readAllowed e s.st.x) = true)
    (hpid : s.st.p = false ∨ pidOk e write s = true) :
    translateData write w segid ofs s =
      if e.prot.t then .trap (dataTrap .pageReference segid ofs s)
      else if e.prot.b then .trap (dataTrap .dataReference segid ofs s)
      else if write && e.prot.d then .trap (dataTrap .dirty segid ofs s)
      else if !aligned w ofs then .trap (dataTrap .alignment segid ofs s)
      else if foreign e then .refuse .foreignBank
      else .done (entryAddress e ofs) := by
  rcases hpid with hp | hp <;> simp [translateData, h, hrights, hp]

theorem translateData_untrapped (h : tlbLookup s.dtlb segid ofs = some e)
    (hrights : (if write then writeAllowed e s.st.x else readAllowed e s.st.x) = true)
    (hpid : s.st.p = false ∨ pidOk e write s = true) (ht : e.prot.t = false) (hb : e.prot.b = false)
    (hdirty : write = true → e.prot.d = false) :
    translateData write w segid ofs s =
      if !aligned w ofs then .trap (dataTrap .alignment segid ofs s)
      else if foreign e then .refuse .foreignBank
      else .done (entryAddress e ofs) := by
  have hdirty : (write && e.prot.d) = false := by simpa using hdirty
  rw [translateData_admitted h hrights hpid, ht, hb, hdirty]
  rfl

end

/-- Settles O9: each of the three ways, with the tests it makes passed. -/
theorem dataAddressFound : Obligations.DataAddressFound := by
  intro write w seg x s
  refine ⟨fun hd ha => dataAddress_untranslated hd (aligned_iff.mpr ha), ?_⟩
  intro segid vofs hd hva ha
  have ha : aligned w vofs = true := aligned_iff.mpr ha
  refine ⟨?_, ?_⟩
  · rintro rfl
    rw [dataAddress_bypassed hd hva]
    exact plainAddress_done.mpr ⟨ha, rfl⟩
  · intro e hseg hlookup hrights hpid ht hb hdirty hbank hcpu
    have hpid : s.st.p = false ∨ pidOk e write s = true := by
      cases hp : s.st.p
      · exact .inl rfl
      · exact .inr (hpid hp)
    rw [dataAddress_translated hd hva hseg, translateData_untrapped hlookup hrights hpid ht hb hdirty, ha,
      foreign_eq_false hbank hcpu]
    rfl

/-- Settles O10: each trap under the tests before it passed, and the refusal under all of them passed. -/
theorem dataAddressTraps : Obligations.DataAddressTraps := by
  intro write w seg x segid vofs s hva
  refine ⟨fun hd ha => ?_, ?_, fun hd hseg => ?_⟩
  · rw [dataAddress_off hd, plainAddress_misaligned s ha]
  · rintro hd rfl ha
    rw [dataAddress_bypassed hd hva, plainAddress_misaligned s ha]
  rw [dataAddress_translated hd hva hseg]
  refine ⟨translateData_miss, fun e hlookup => ⟨translateData_rights hlookup, fun hrights =>
    ⟨fun ⟨hp, hpid⟩ => translateData_protection hlookup hrights hp hpid, fun hpid => ⟨?_, ?_, ?_, ?_, ?_⟩⟩⟩⟩
  · intro ht
    rw [translateData_admitted hlookup hrights hpid, if_pos ht]
  · intro ht hb
    rw [translateData_admitted hlookup hrights hpid, ht, if_neg Bool.false_ne_true, if_pos hb]
  · rintro ht hb rfl hdirty
    rw [translateData_admitted hlookup hrights hpid, ht, hb, hdirty]
    rfl
  · intro ht hb hdirty ha
    rw [translateData_untrapped hlookup hrights hpid ht hb hdirty, aligned_eq_false ha]
    rfl
  · intro ht hb hdirty ha hforeign
    rw [translateData_untrapped hlookup hrights hpid ht hb hdirty, aligned_iff.mpr ha, foreign_iff.mpr hforeign]
    rfl

/-! ### The I/O range (20_memory.md R76, R78) -/

theorem installed_eq_false_of_io {pa : Word} (w : Width) (h : 0xF0000000 ≤ pa.toNat) : installed pa w = false := by
  have hmem : Config.physMemSize = 0xF0000000 := rfl
  have hw : 0 < widthBytes w := by cases w <;> decide
  exact decide_eq_false (by omega)

/-- A read in the I/O range is answered by the environment and recorded. -/
theorem physRead_io {pa : Word} {w : Width} (s : State) (h : 0xF0000000 ≤ pa.toNat) :
    physRead pa w s = .done (lowBytes w (Config.ioAnswer s.draws),
      { s with draws := s.draws + 1,
               envTrace := .ioRead pa w (lowBytes w (Config.ioAnswer s.draws)) :: s.envTrace }) :=
  physRead_done.mpr (.inr ⟨installed_eq_false_of_io w h, decide_eq_true h, rfl, rfl⟩)

/-- A write in the I/O range is handed to the environment, with the effects of any store. -/
theorem physWrite_io {pa : Word} {w : Width} (v : Word) (s : State) (h : 0xF0000000 ≤ pa.toNat) :
    physWrite pa w v s = .done
      (({ s with envTrace := .ioWrite pa w (lowBytes w v) :: s.envTrace }.breakReservation pa).markStale pa) :=
  physWrite_done.mpr (.inr ⟨installed_eq_false_of_io w h, decide_eq_true h, rfl⟩)

/-! ### Access rights and protection ids -/

theorem levelAtMost_iff {pl pln : Bool} : levelAtMost pl pln = true ↔ (pl = true → pln = true) := by
  cases pl <;> simp [levelAtMost]

/-- Of the four page types only the gateway page, type 3, is not readable. -/
theorem pageType_le_two_iff (t : BitVec 2) : t.toNat ≤ 2 ↔ t ≠ 3#2 := by
  revert t
  decide

theorem readAllowed_iff {e : TlbEntry} {pl : Bool} :
    readAllowed e pl = true ↔ e.prot.type ≠ 3#2 ∧ (pl = true → e.prot.pl1 = true) := by
  rw [readAllowed, Bool.and_eq_true, decide_eq_true_iff, levelAtMost_iff, pageType_le_two_iff]

theorem writeAllowed_iff {e : TlbEntry} {pl : Bool} :
    writeAllowed e pl = true ↔ e.prot.type = 1#2 ∧ (pl = true → e.prot.pl2 = true) := by
  rw [writeAllowed, Bool.and_eq_true, decide_eq_true_iff, levelAtMost_iff]

theorem toNat_entryPid (e : TlbEntry) : (entryPid e).toNat = e.prot.pid16.toNat / 2 := by
  have h := e.prot.pid16.isLt
  rw [entryPid, BitVec.extractLsb'_toNat, Nat.shiftRight_eq_div_pow]
  omega

theorem toNat_registerPid (v : Word) : (registerPid v).toNat = v.toNat / 2 % 2 ^ 15 := by
  rw [registerPid, BitVec.extractLsb'_toNat, Nat.shiftRight_eq_div_pow, Nat.pow_one]

/-- The write disable bit of a PID register is 0 iff its number is even. -/
theorem getLsbD_zero_eq_false_iff (v : Word) : v.getLsbD 0 = false ↔ v.toNat % 2 = 0 := by
  rw [BitVec.getLsbD, Nat.testBit_zero, decide_eq_false_iff_not]
  omega

/-- The PID registers are CR8 to CR11. -/
theorem mem_pidRegisters {s : State} {v : Word} :
    v ∈ pidRegisters s ↔ ∃ n : CReg, (8 ≤ n.toNat ∧ n.toNat ≤ 11) ∧ v = s.getCR n := by
  constructor
  · intro h
    simp only [pidRegisters, List.mem_cons, List.not_mem_nil, or_false] at h
    rcases h with h | h | h | h
    · exact ⟨8#5, by decide, h⟩
    · exact ⟨9#5, by decide, h⟩
    · exact ⟨10#5, by decide, h⟩
    · exact ⟨11#5, by decide, h⟩
  · rintro ⟨n, hn, rfl⟩
    have hcases : ∀ n : CReg, 8 ≤ n.toNat ∧ n.toNat ≤ 11 → n = 8#5 ∨ n = 9#5 ∨ n = 10#5 ∨ n = 11#5 := by decide
    rcases hcases n hn with rfl | rfl | rfl | rfl <;> simp [pidRegisters]

/-- The protection id check in numbers (R113). -/
theorem pidOk_iff {e : TlbEntry} {write : Bool} {s : State} :
    pidOk e write s = true ↔
      e.prot.pid16.toNat / 2 = 0 ∨
      ∃ n : CReg, 8 ≤ n.toNat ∧ n.toNat ≤ 11 ∧ (s.getCR n).toNat / 2 % 2 ^ 15 = e.prot.pid16.toNat / 2 ∧
        (write = true → (s.getCR n).toNat % 2 = 0) := by
  have hzero : entryPid e = 0#15 ↔ e.prot.pid16.toNat / 2 = 0 := by
    rw [← BitVec.toNat_inj, toNat_entryPid]
    rfl
  have hmatch (v : Word) : (decide (registerPid v = entryPid e) && (!write || !v.getLsbD 0)) = true ↔
      v.toNat / 2 % 2 ^ 15 = e.prot.pid16.toNat / 2 ∧ (write = true → v.toNat % 2 = 0) := by
    rw [Bool.and_eq_true, decide_eq_true_iff, ← BitVec.toNat_inj, toNat_registerPid, toNat_entryPid,
      ← getLsbD_zero_eq_false_iff]
    cases write <;> simp
  rw [pidOk, Bool.or_eq_true, decide_eq_true_iff, hzero, List.any_eq_true]
  refine or_congr_right ⟨?_, ?_⟩
  · rintro ⟨v, hv, hok⟩
    obtain ⟨n, ⟨hlo, hhi⟩, rfl⟩ := mem_pidRegisters.mp hv
    exact ⟨n, hlo, hhi, (hmatch _).mp hok⟩
  · rintro ⟨n, hlo, hhi, hok⟩
    exact ⟨s.getCR n, mem_pidRegisters.mpr ⟨n, ⟨hlo, hhi⟩, rfl⟩, (hmatch _).mpr hok⟩

/-- Settles O11: the rights by page type and level, and the id check by the numbers of the registers. -/
theorem protectionChecks : Obligations.ProtectionChecks :=
  ⟨fun _ _ => ⟨readAllowed_iff, writeAllowed_iff⟩, fun _ _ _ => pidOk_iff⟩

end Sys2Proof.Proofs
end

section
/-! SUPPORT. Fetch and step (20_memory.md R100 to R103, R120, 30_encoding.md R151 to R154), with obligations O53 to
O56, and the invariant at reset, O59. -/

namespace Sys2Proof.Proofs

open Sys2Proof Sys2Proof.Machine Sys2Proof.Laws

/-! ### The fetch address -/

theorem fetchAddress_untranslated {s : State} (hc : s.st.c = false) : fetchAddress s = .done (s.iaOfs, s) :=
  fetchAddress_done.mpr (.inl ⟨.inl hc, rfl, rfl⟩)

/-- Settles O54: the address found does not depend on IA-SEG, and no check can fail. -/
theorem untranslatedFetch : Obligations.UntranslatedFetch :=
  fun _ hc => ⟨fetchAddress_untranslated hc, fun _ => fetchAddress_untranslated hc⟩

theorem fetchAddress_bypassed {s : State} (hseg : s.iaSeg = 0#32) : fetchAddress s = .done (s.iaOfs, s) :=
  fetchAddress_done.mpr (.inl ⟨.inr (by rw [hseg, bypassed_zero]), rfl, rfl⟩)

theorem fetchAddress_miss {s : State} (hc : s.st.c = true) (hseg : s.iaSeg ≠ 0#32)
    (h : tlbLookup s.itlb s.iaSeg s.iaOfs = none) : fetchAddress s = .trap (bareTrap .instrTlbMiss) := by
  simp [fetchAddress, hc, bypassed_eq_false hseg, h]

/-- With an entry for the page: trap 11, then the refusal, then the address in the demoted state. -/
theorem fetchAddress_hit {s : State} {e : TlbEntry} (hc : s.st.c = true) (hseg : s.iaSeg ≠ 0#32)
    (h : tlbLookup s.itlb s.iaSeg s.iaOfs = some e) :
    fetchAddress s =
      if !executeAllowed e s then .trap (bareTrap .instrProtection)
      else if foreign e then .refuse .foreignBank
      else .done (entryAddress e s.iaOfs, demote e s) := by
  simp [fetchAddress, hc, bypassed_eq_false hseg, h]

theorem executeAllowed_iff {e : TlbEntry} {s : State} :
    executeAllowed e s = true ↔
      2 ≤ e.prot.type.toNat ∧ (s.st.x = true → e.prot.pl1 = true) ∧ (s.st.p = true → pidOk e false s = true) := by
  rw [executeAllowed, Bool.and_eq_true, Bool.and_eq_true, decide_eq_true_iff, levelAtMost_iff, and_assoc]
  cases s.st.p <;> simp

theorem executeAllowed_eq_false {e : TlbEntry} {s : State}
    (h : e.prot.type.toNat < 2 ∨ (s.st.x = true ∧ e.prot.pl1 = false) ∨ (s.st.p = true ∧ pidOk e false s = false)) :
    executeAllowed e s = false := by
  rw [← Bool.not_eq_true, executeAllowed_iff]
  rintro ⟨htype, hlevel, hpid⟩
  rcases h with h | ⟨hx, h⟩ | ⟨hp, h⟩
  · omega
  · simp [hlevel hx] at h
  · simp [hpid hp] at h

/-- The traps of the address are 9 and 11, without parameters. -/
theorem fetchAddress_trap {s : State} {p : Trap} (h : fetchAddress s = .trap p) :
    p = bareTrap .instrTlbMiss ∨ p = bareTrap .instrProtection := by
  cases hc : s.st.c
  · cases (fetchAddress_untranslated hc).symm.trans h
  by_cases hseg : s.iaSeg = 0#32
  · cases (fetchAddress_bypassed hseg).symm.trans h
  cases hlookup : tlbLookup s.itlb s.iaSeg s.iaOfs with
  | none =>
    cases (fetchAddress_miss hc hseg hlookup).symm.trans h
    exact .inl rfl
  | some e =>
    rw [fetchAddress_hit hc hseg hlookup] at h
    split_ifs at h
    cases h
    exact .inr rfl

/-- The state that the address leaves differs in the level only, and with translation off not at all. -/
theorem fetchAddress_state {s t : State} {pa : Word} (h : fetchAddress s = .done (pa, t)) :
    (∃ x, t = { s with st := { s.st with x := x } }) ∧ (s.st.c = false → t = s ∧ pa = s.iaOfs) := by
  rcases fetchAddress_done.mp h with ⟨-, rfl, rfl⟩ | ⟨hc, -, e, -, -, -, -, rfl⟩
  · exact ⟨⟨t.st.x, rfl⟩, fun _ => ⟨rfl, rfl⟩⟩
  · exact ⟨⟨s.st.x || e.prot.pl2, rfl⟩, fun hoff => by simp [hc] at hoff⟩

/-! ### A step that no event comes before -/

section
variable {s t : State} {pa : Word}

theorem step_fetch_done {w : Word} (hp : pendingTrap s = none) (h : fetch s = .done (w, t)) :
    step s = runWord w t := by
  simp only [step, hp, h]

theorem step_fetchAddress_trap {p : Trap} (hp : pendingTrap s = none) (h : fetchAddress s = .trap p) :
    step s = takeTrap p s := by
  simp only [step, hp, fetch, h, bind_trap_left]

theorem step_fetchAddress_refuse {r : Refusal} (hp : pendingTrap s = none) (h : fetchAddress s = .refuse r) :
    step s = .refused r := by
  simp only [step, hp, fetch, h, bind_refuse_left]

theorem step_stale (hp : pendingTrap s = none) (h : fetchAddress s = .done (pa, t)) (hstale : isStale pa t = true) :
    step s = .refused .staleFetch := by
  simp only [step, hp, fetch, h, bind_done_left, hstale, if_true]

end

/-- The flags of a word are kept at its own address (R120). -/
theorem isStale_iff {pa : Word} {s : State} :
    isStale pa s = true ↔
      s.needsFlush.contains (pa.toNat / 4 * 4) = true ∨ s.needsPurge.contains (pa.toNat / 4 * 4) = true := by
  rw [isStale, wordOf_eq, toNat_dropLow2, Bool.or_eq_true]

/-- Settles O55: the bypass, the miss, and the three answers of an entry. -/
theorem translatedFetch : Obligations.TranslatedFetch := by
  intro s hc
  refine ⟨fetchAddress_bypassed, fetchAddress_miss hc, fun e hseg hlookup => ⟨fun hdenied => ?_, ?_, ?_⟩⟩
  · rw [fetchAddress_hit hc hseg hlookup, executeAllowed_eq_false hdenied]
    rfl
  · intro htype hlevel hpid hbank hcpu
    rw [fetchAddress_hit hc hseg hlookup, executeAllowed_iff.mpr ⟨htype, hlevel, hpid⟩, foreign_eq_false hbank hcpu]
    rfl
  · intro htype hlevel hpid hforeign
    have haddr : fetchAddress s = .refuse .foreignBank := by
      rw [fetchAddress_hit hc hseg hlookup, executeAllowed_iff.mpr ⟨htype, hlevel, hpid⟩, foreign_iff.mpr hforeign]
      rfl
    exact ⟨haddr, fun hp => step_fetchAddress_refuse hp haddr⟩

/-- Settles O56. The flags are those of `s`: the fetch address changes the level only. -/
theorem fetchTrapsAndStops : Obligations.FetchTrapsAndStops := by
  refine ⟨fun s p hp h => ⟨step_fetchAddress_trap hp h, fetchAddress_trap h, rfl, rfl⟩, fun s t pa hp h hflag => ?_⟩
  obtain ⟨x, ht⟩ := (fetchAddress_state h).1
  exact step_stale hp h (isStale_iff.mpr (by rw [ht]; exact hflag))

/-! ### The word that a step runs -/

/-- A word in memory is the big-endian word of its four bytes (R70). -/
theorem read_word_eq_bytesWord (m : Memory) (a : Nat) :
    m.read a .word = bytesWord (m.byte a) (m.byte (a + 1)) (m.byte (a + 2)) (m.byte (a + 3)) := rfl

/-- Settles O53: the fetch is the address, the test of the flags and the read, in memory or in the I/O range. -/
theorem stepRunsInstruction : Obligations.StepRunsInstruction := by
  refine ⟨fun s t pa w hp haddr hflags => ?_, fun w u => ⟨fun i hi => ?_, ?_, fun he => ?_⟩⟩
  · obtain ⟨hlevel, hoff⟩ := fetchAddress_state haddr
    have ⟨x, ht⟩ := hlevel
    have hfresh : isStale pa t = false := by
      obtain ⟨hflush, hpurge⟩ := hflags _ rfl
      rw [← Bool.not_eq_true, isStale_iff, ht]
      simp only [hflush, hpurge, Bool.false_eq_true, or_self, not_false_eq_true]
    have hrun {v : State} (hread : physRead pa .word t = .done (w, v)) : step s = runWord w { v with ir := w } :=
      step_fetch_done hp (fetch_done.mpr ⟨pa, t, v, haddr, hfresh, hread, rfl⟩)
    refine ⟨hlevel, hoff, fun hmem hw => hrun (physRead_done.mpr (.inl ⟨decide_eq_true hmem, ?_, rfl⟩)),
      fun hio hw => ?_⟩
    · rw [hw, read_word_eq_bytesWord, ht]
    · have hread : physRead pa .word t =
          .done (w, { t with draws := s.draws + 1, envTrace := .ioRead pa .word w :: s.envTrace }) := by
        rw [physRead_io t hio, hw, ht]
        rfl
      exact hrun hread
  · simp only [runWord, hi]
  · rintro (he | he) <;> simp only [runWord, he, rejectWord, conclude_trap]
  · simp only [runWord, he, rejectWord, conclude_refuse]

/-! ### Reset -/

/-- An empty TLB is a map within any capacity. -/
theorem tlbWf_nil (capacity : Nat) : tlbWf [] capacity = true := by
  simp [tlbWf, risingKeys]

/-- Settles O59: memory, the TLBs and the flag lists are empty, the registers 0, the reset vector is a multiple of 4. -/
theorem resetInv : Obligations.ResetInv where
  mem := rfl
  itlb := tlbWf_nil _
  dtlb := tlbWf_nil _
  iaOfs := by decide
  resv := rfl
  shamt := by decide
  swr := by decide
  needsFlush := rfl
  needsPurge := rfl

end Sys2Proof.Proofs
end

section
/-! SUPPORT. The instructions that access memory (20_memory.md R73, R78, R106): a trap of the access abandons them, what
they do in the I/O range, and which bytes of memory they can change, with obligations O14, O16 and O51. -/

namespace Sys2Proof.Proofs

open Sys2Proof Sys2Proof.Machine Sys2Proof.Laws

/-! ### Loads and stores in the I/O range -/

theorem load_io {w : Width} {r : GReg} {seg : BitVec 2} {x pa : Word} {s : State}
    (haddr : dataAddress false w seg x s = .done pa) (hio : 0xF0000000 ≤ pa.toNat) :
    load w r seg x s = .done
      { (s.setGR r (lowBytes w (Config.ioAnswer s.draws))).retire with
        draws := s.draws + 1, envTrace := .ioRead pa w (lowBytes w (Config.ioAnswer s.draws)) :: s.envTrace } :=
  load_done.mpr ⟨pa, _, _, haddr, physRead_io s hio, rfl⟩

theorem store_io {w : Width} {r : GReg} {seg : BitVec 2} {x pa : Word} {s : State}
    (haddr : dataAddress true w seg x s = .done pa) (hio : 0xF0000000 ≤ pa.toNat) :
    store w r seg x s = .done
      (({ s with envTrace := .ioWrite pa w (lowBytes w (s.getGR r)) :: s.envTrace }.breakReservation pa).markStale
        pa).retire :=
  store_done.mpr ⟨pa, _, haddr, physWrite_io _ s hio, rfl⟩

/-- The word address as the rules write it. -/
theorem wordOf_eq_shift (pa : Word) : wordOf pa = pa >>> 2 <<< 2 := by
  have hpa := pa.isLt
  apply BitVec.eq_of_toNat_eq
  rw [wordOf_eq, toNat_dropLow2, BitVec.toNat_shiftLeft, BitVec.toNat_ushiftRight, Nat.shiftLeft_eq,
    Nat.shiftRight_eq_div_pow]
  omega

/-- The flags after a store: that of its word, and those set before (R120). -/
theorem contains_addAddr_wordOf (l : List Nat) (pa : Word) (k : Nat) :
    (addAddr l (wordOf pa).toNat).contains k = (decide (k = pa.toNat / 4 * 4) || l.contains k) := by
  rw [contains_addAddr, wordOf_eq, toNat_dropLow2]
  rfl

/-- Settles O14: the load forms are one load, the store forms one store. -/
theorem ioAccessResult : Obligations.IoAccessResult := by
  refine ⟨fun r seg a b base ofs s i w x pa hi haddr hio => ?_, fun r seg base ofs s i w pa hi haddr hio => ?_⟩
  · have hexec : exec i s = conclude s (load w r seg x s) := by
      simp only [List.mem_cons, List.not_mem_nil, or_false] at hi
      rcases hi with hi | hi | hi | hi | hi | hi <;> cases hi <;> rfl
    exact ⟨_, toNat_lowBytes w _, hexec.trans (congrArg (conclude s) (load_io haddr hio))⟩
  · have hexec : exec i s = conclude s (store w r seg (indexedOffset base ofs s) s) := by
      simp only [List.mem_cons, List.not_mem_nil, or_false] at hi
      rcases hi with hi | hi | hi <;> cases hi <;> rfl
    have hnext := hexec.trans (congrArg (conclude s) (store_io haddr hio))
    refine ⟨_, hnext, rfl, fun _ => rfl, rfl, ⟨rfl, rfl, rfl, rfl, rfl, rfl⟩,
      ⟨rfl, rfl, rfl⟩, rfl, rfl, rfl, ?_, contains_addAddr_wordOf _ pa, contains_addAddr_wordOf _ pa⟩
    rw [← wordOf_eq_shift]
    rfl

/-! ### A trap of the access abandons the instruction (R106) -/

section
variable {write : Bool} {w : Width} {seg : BitVec 2} {x : Word} {s : State} {p : Trap}

theorem load_trap (r : GReg) (h : dataAddress false w seg x s = .trap p) : load w r seg x s = .trap p := by
  rw [load, memRead, h, bind_trap_left, bind_trap_left]

theorem store_trap (r : GReg) (h : dataAddress true w seg x s = .trap p) : store w r seg x s = .trap p := by
  rw [store, memWrite, h, bind_trap_left, bind_trap_left]

theorem loadReserved_trap (r : GReg) (h : dataAddress false .word seg x s = .trap p) :
    loadReserved r seg x s = .trap p := by
  rw [loadReserved, h, bind_trap_left]

theorem exec_stwc_trap {base : BitVec 3} {ofs : BitVec 12} (r : GReg)
    (h : dataAddress true .word seg (indexedOffset base ofs s) s = .trap p) :
    exec (.stwc r base seg ofs) s = takeTrap p s := by
  rw [exec, execStwc, h, bind_trap_left, conclude_trap]

theorem fetchOperand_regIdx_trap {a b : GReg} (r : GReg)
    (h : dataAddress false w seg (regIdxOffset a b s) s = .trap p) :
    fetchOperand r (.regIdx w seg a b) s = .trap p := by
  rw [fetchOperand, memRead, h, bind_trap_left, bind_trap_left]

theorem fetchOperand_indexed_trap {base : BitVec 3} {ofs : BitVec 12} (r : GReg)
    (h : dataAddress false w seg (indexedOffset base ofs s) s = .trap p) :
    fetchOperand r (.indexed w base seg ofs) s = .trap p := by
  rw [fetchOperand, memRead, h, bind_trap_left, bind_trap_left]

end

/-- An instruction of the operand format takes the trap of its operand. -/
theorem exec_operand_trap {r : GReg} {opd : Operand} {s : State} {p : Trap} (h : fetchOperand r opd s = .trap p)
    (c l o : Bool) (cc : CmpCond) :
    ∀ i ∈ [Instr.add r c l o opd, .sub r c l o opd, .and r c l opd, .or r c l opd, .xor r c l opd, .cmp r cc opd],
      exec i s = takeTrap p s := by
  intro i hi
  simp only [List.mem_cons, List.not_mem_nil, or_false] at hi
  rcases hi with rfl | rfl | rfl | rfl | rfl | rfl
  · rw [exec, execAdd, h, bind_trap_left, conclude_trap]
  · rw [exec, execSub, h, bind_trap_left, conclude_trap]
  · rw [exec, execAnd, logical, h, bind_trap_left, conclude_trap]
  · rw [exec, execOr, logical, h, bind_trap_left, conclude_trap]
  · rw [exec, execXor, logical, h, bind_trap_left, conclude_trap]
  · rw [exec, execCmp, h, bind_trap_left, conclude_trap]

/-- RFI in the state that a trap entry leaves, which is privileged (R341). -/
theorem exec_rfi_trapEntry (p : Trap) (s : State) :
    exec .rfi (trapEntry p s) = .next (trapReturn (trapEntry p s)) := by
  rw [exec, execRfi, privileged_of_kernel _ rfl, conclude_done]

/-- It goes back to the interrupted address and status (60_exceptions.md R345, R361). -/
theorem trapReturn_trapEntry_ia (p : Trap) (s : State) (h : wordAligned s.iaOfs = true) :
    (trapReturn (trapEntry p s)).iaSeg = s.iaSeg ∧ (trapReturn (trapEntry p s)).iaOfs = s.iaOfs ∧
      (trapReturn (trapEntry p s)).st = s.st := by
  rw [trapReturn_iaSeg, trapReturn_iaOfs, trapReturn_st, getCR_trapEntry_17, getCR_trapEntry_18, getCR_trapEntry_19,
    statusOfWord_statusWord]
  exact ⟨rfl, of_decide_eq_true h, rfl⟩

/-- Settles O16: each form is a load, a store, LDWR, STWC or of the operand format, and all of them begin with the
address; the rest is the entry of the trap and the return from it. -/
theorem accessTrapAbandons : Obligations.AccessTrapAbandons := by
  intro r seg a b base ofs c l o cc s i write w w' x p hi haddr
  refine ⟨?_, fun u hu => ?_⟩
  · simp only [List.mem_cons, List.not_mem_nil, or_false] at hi
    rcases hi with hi | hi | hi | hi | hi | hi | hi | hi | hi | hi | hi | hi | hi | hi | hi | hi | hi | hi | hi | hi | hi |
      hi | hi <;> cases hi
    iterate 6 exact congrArg (conclude s) (load_trap r haddr)
    iterate 3 exact congrArg (conclude s) (store_trap r haddr)
    · exact congrArg (conclude s) (loadReserved_trap r haddr)
    · exact exec_stwc_trap r haddr
    iterate 6 exact exec_operand_trap (fetchOperand_regIdx_trap r haddr) c l o cc _ (by simp)
    iterate 6 exact exec_operand_trap (fetchOperand_indexed_trap r haddr) c l o cc _ (by simp)
  · obtain ⟨-, rfl⟩ := takeTrap_next.mp hu
    exact ⟨rfl, rfl, fun _ => rfl, getCR_trapEntry_18 p s, getCR_trapEntry_19 p s, fun h =>
      ⟨_, exec_rfi_trapEntry p s, trapReturn_trapEntry_ia p s h⟩⟩

/-! ### Which bytes of memory an instruction can change -/

theorem sameMemory_of_mem {s t : State} (h : t.mem = s.mem) : SameMemory s t :=
  fun _ => by rw [h]

theorem isTrapEntryFrom_mem {s t : State} (h : IsTrapEntryFrom s t) : t.mem = s.mem := by
  obtain ⟨p, hp⟩ := h
  obtain ⟨-, rfl⟩ := takeTrap_next.mp hp
  rfl

theorem registerEffect_mem {r : GReg} {s t : State} (h : RegisterEffect r s t) : t.mem = s.mem := by
  obtain ⟨d, e, v, rfl⟩ := h
  rfl

theorem sumEffect_mem {r : GReg} {l : Bool} {s t : State} (h : SumEffect r l s t) : t.mem = s.mem := by
  obtain ⟨d, e, v, cb, -, rfl⟩ := h
  rfl

theorem linkEffect_mem {r : GReg} {s t : State} (h : LinkEffect r s t) : t.mem = s.mem := by
  obtain ⟨a, v, rfl⟩ := h
  rfl

theorem jumpEffect_mem {s t : State} (h : JumpEffect s t) : t.mem = s.mem := by
  obtain ⟨a, rfl⟩ := h
  rfl

/-- A store at an address that can only be `pa` changes no byte outside those at `pa`. -/
theorem storeEffect_sameMemoryOutside {w : Width} {s t : State} {admits : Word → Prop} {pa : Word}
    (hpa : ∀ q, admits q → q = pa) (h : StoreEffect w s admits t) :
    SameMemoryOutside pa.toNat (widthBytes w) s t := by
  obtain ⟨q, m, e, f, g, rv, hq, rfl, -, houtside⟩ := h
  obtain rfl := hpa q hq
  exact houtside

theorem dataAddress_unique {write : Bool} {w : Width} {seg : BitVec 2} {x pa : Word} {s : State}
    (h : dataAddress write w seg x s = .done pa) (q : Word) (hq : dataAddress write w seg x s = .done q) : q = pa :=
  Attempt.done.inj (hq.symm.trans h)

/-- A trap changes no byte, so the effect alone says which bytes an instruction can change. -/
theorem sameMemory_of_exec {i : Instr} {s t : State} (h : exec i s = .next t) (heff : Effect i s t → t.mem = s.mem) :
    SameMemory s t :=
  sameMemory_of_mem ((exec_effect i s t h).elim isTrapEntryFrom_mem heff)

theorem sameMemoryOutside_of_exec {i : Instr} {lo n : Nat} {s t : State} (h : exec i s = .next t)
    (heff : Effect i s t → SameMemoryOutside lo n s t) : SameMemoryOutside lo n s t :=
  (exec_effect i s t h).elim (fun htrap a _ => sameMemory_of_mem (isTrapEntryFrom_mem htrap) a) heff

/-- Settles O51, by the effect of each instruction. -/
theorem memoryFrame : Obligations.MemoryFrame := by
  intro i s t h
  cases i
  case stw | sth | stb =>
    exact fun pa hpa => sameMemoryOutside_of_exec h fun he =>
      storeEffect_sameMemoryOutside (dataAddress_unique hpa) he
  case stwa =>
    exact sameMemoryOutside_of_exec h fun he => storeEffect_sameMemoryOutside (fun _ hq => hq) he.2
  case stwc =>
    refine fun pa hpa => sameMemoryOutside_of_exec h ?_
    rintro ⟨q, m, e, f, g, v, d, hq, rfl, -, houtside⟩
    obtain rfl := dataAddress_unique hpa q hq
    exact houtside
  case ldwReg | ldhReg | ldbReg | ldwOfs | ldhOfs | ldbOfs | ldil | addil | ldo | and | or | xor | cmp | cmr | extr
      | dep | dsr | shla | lsid | prb => exact sameMemory_of_exec h fun he => registerEffect_mem he
  case ldwa | ldwax | ldpa => exact sameMemory_of_exec h fun he => registerEffect_mem he.2
  case add | sub => exact sameMemory_of_exec h fun he => sumEffect_mem he
  case bl | blr => exact sameMemory_of_exec h fun he => linkEffect_mem he
  case b | br | bv | bvr | cbr | tbr => exact sameMemory_of_exec h fun he => jumpEffect_mem he
  case mr r z d m x =>
    cases d
    case false => exact sameMemory_of_exec h fun he => registerEffect_mem he
    case true =>
      refine sameMemory_of_exec h fun he => ?_
      obtain ⟨c, n, e, rfl⟩ := moveToSpecial_effect he
      rfl
  case ldwr =>
    refine sameMemory_of_exec h ?_
    rintro ⟨d, e, v, rv, rfl⟩
    rfl
  case gate | ble =>
    refine sameMemory_of_exec h ?_
    rintro ⟨o, v, rfl⟩
    rfl
  case be =>
    refine sameMemory_of_exec h ?_
    rintro ⟨o, rfl⟩
    rfl
  case mst =>
    refine sameMemory_of_exec h ?_
    rintro ⟨-, v, b, rfl⟩
    rfl
  case itlb | ptlb =>
    refine sameMemory_of_exec h ?_
    rintro ⟨-, l, d, rfl⟩
    exact withTlb_mem s _ l
  case pca =>
    refine sameMemory_of_exec h ?_
    rintro ⟨-, p, q, rfl⟩
    rfl
  case rfi =>
    refine sameMemory_of_exec h ?_
    rintro ⟨-, rfl⟩
    rfl
  case diag | brk => exact sameMemory_of_exec h False.elim

end Sys2Proof.Proofs
end

section
/-! SUPPORT. Decoder and encoder (30_encoding.md R130 to R154): each undoes the other, with obligations O1 to O3. -/

namespace Sys2Proof.Proofs

open Sys2Proof Sys2Proof.Laws

/-! ### Decoding what was encoded -/

@[simp] theorem opcodeOf_or (x y : Word) : opcodeOf (x ||| y) = opcodeOf x ||| opcodeOf y := field_or x y 26 6

@[simp] theorem opcodeOf_opcode (op : BitVec 6) : opcodeOf (opcode op) = op := field_place_same op 26 (by decide)

/-- A field placed below the opcode leaves it 0. -/
theorem opcodeOf_place {n : Nat} (v : BitVec n) (lo : Nat) (h : lo + n ≤ 26) : opcodeOf (place v lo) = 0#6 :=
  field_place_disjoint v 26 lo 6 (by omega) (.inr h)

theorem opcodeOf_placeFlag (c : Bool) (k : Nat) (h : k < 26) : opcodeOf (placeFlag c k) = 0#6 :=
  opcodeOf_place (BitVec.ofBool c) k h

@[simp] theorem opcodeOf_encodeOperand (opd : Operand) : opcodeOf (encodeOperand opd) = 0#6 :=
  field_encodeOperand_high opd 26 6 (by decide)

theorem field_opcode (op : BitVec 6) (lo n : Nat) (h : lo + n ≤ 26) : field (opcode op) lo n = 0#n :=
  field_place_disjoint op lo 26 n (by decide) (.inl h)

theorem flag_opcode (op : BitVec 6) (k : Nat) (h : k < 26) : flag (opcode op) k = false :=
  flag_place_disjoint op k 26 (by decide) (.inl h)

/-- The fields of an encoded instruction are the ones it was made of (30_encoding.md R149), one format at a time. -/
theorem parse_encode {i : Instr} (h : i.wf = true) : parse (encode i) = .ok i := by
  cases i
  case rfi => rfl
  case brk | lsid | ldil | addil | b | bl | br | blr | bv | bvr | gate | be | ble | diag | ldwa | ldwax | stwa | ldpa
      | cmr | cbr | tbr =>
    simp [encode, parse, opcodeOf_place, field_opcode, field_place_same, field_place_disjoint]
  case extr | dep | dsr | shla | mr | prb | itlb | ptlb | pca =>
    simp [encode, parse, opcodeOf_place, opcodeOf_placeFlag, field_opcode, flag_opcode, field_place_same,
      field_place_disjoint, field_placeFlag_disjoint, flag_placeFlag_same, flag_placeFlag_disjoint,
      flag_place_disjoint]
  case mst r mode =>
    cases mode <;>
      simp [encode, encodeMst, parse, parseMst, opcodeOf_place, field_opcode, field_place_same, field_place_disjoint]
  case add | sub | and | or | xor | cmp =>
    simp [encode, parse, opcodeOf_place, opcodeOf_placeFlag, field_opcode, flag_opcode, field_place_same,
      field_place_disjoint, field_placeFlag_disjoint, flag_placeFlag_same, flag_placeFlag_disjoint,
      flag_place_disjoint, flag_encodeOperand_high, field_encodeOperand_high, parseOperand_or_encodeOperand]
  case ldwReg | ldhReg | ldbReg | ldwOfs | ldhOfs | ldbOfs =>
    simp [encode, parse, parseLoad, opcodeOf_place, field_opcode, field_place_same, field_place_disjoint,
      field_encodeOperand_high, parseOperand_or_encodeOperand]
  case stw | sth | stb =>
    simp [encode, parse, parseStore, opcodeOf_place, field_opcode, field_place_same, field_place_disjoint,
      field_encodeOperand_high, parseOperand_or_encodeOperand]
  case ldwr | stwc =>
    simp [encode, parse, parseReserved, opcodeOf_place, field_opcode, field_place_same, field_place_disjoint,
      field_encodeOperand_high, parseOperand_or_encodeOperand]
  case ldo r opd =>
    cases opd
    case imm | indexed =>
      simp [encode, parse, parseLdo, opcodeOf_place, field_opcode, field_place_same, field_place_disjoint,
        field_encodeOperand_high, parseOperand_or_encodeOperand]
    -- no other operand is well formed in LDO
    all_goals cases h

/-- The encoder sets no bit that R149 marks 0. -/
theorem encode_reserved {i : Instr} (h : i.wf = true) : encode i &&& reservedMask (encode i) = 0#32 := by
  cases i with
  | ldwReg => exact EncodeReserved.ldwReg _ _ _ _ h
  | ldwOfs => exact EncodeReserved.ldwOfs _ _ _ _ h
  | ldhReg => exact EncodeReserved.ldhReg _ _ _ _ h
  | ldhOfs => exact EncodeReserved.ldhOfs _ _ _ _ h
  | ldbReg => exact EncodeReserved.ldbReg _ _ _ _ h
  | ldbOfs => exact EncodeReserved.ldbOfs _ _ _ _ h
  | stw => exact EncodeReserved.stw _ _ _ _ h
  | sth => exact EncodeReserved.sth _ _ _ _ h
  | stb => exact EncodeReserved.stb _ _ _ _ h
  | ldwr => exact EncodeReserved.ldwr _ _ _ _ h
  | stwc => exact EncodeReserved.stwc _ _ _ _ h
  | ldwa => exact EncodeReserved.ldwa _ _ _ h
  | ldwax => exact EncodeReserved.ldwax _ _ _ h
  | stwa => exact EncodeReserved.stwa _ _ _ h
  | ldil => exact EncodeReserved.ldil _ _ h
  | addil => exact EncodeReserved.addil _ _ h
  | ldo => exact EncodeReserved.ldo _ _ h
  | b => exact EncodeReserved.b _ h
  | bl => exact EncodeReserved.bl _ _ h
  | br => exact EncodeReserved.br _ h
  | blr => exact EncodeReserved.blr _ _ h
  | bv => exact EncodeReserved.bv _ h
  | bvr => exact EncodeReserved.bvr _ _ h
  | be => exact EncodeReserved.be _ _ _ h
  | ble => exact EncodeReserved.ble _ _ _ h
  | gate => exact EncodeReserved.gate _ _ h
  | cbr => exact EncodeReserved.cbr _ _ _ _ h
  | tbr => exact EncodeReserved.tbr _ _ _ h
  | add => exact EncodeReserved.add _ _ _ _ _ h
  | sub => exact EncodeReserved.sub _ _ _ _ _ h
  | and => exact EncodeReserved.and _ _ _ _ h
  | or => exact EncodeReserved.or _ _ _ _ h
  | xor => exact EncodeReserved.xor _ _ _ _ h
  | cmp => exact EncodeReserved.cmp _ _ _ h
  | cmr => exact EncodeReserved.cmr _ _ _ _ h
  | extr => exact EncodeReserved.extr _ _ _ _ _ _ h
  | dep => exact EncodeReserved.dep _ _ _ _ _ _ _ h
  | dsr => exact EncodeReserved.dsr _ _ _ _ _ h
  | shla => exact EncodeReserved.shla _ _ _ _ _ _ _ h
  | lsid => exact EncodeReserved.lsid _ _ h
  | mr => exact EncodeReserved.mr _ _ _ _ _ h
  | mst => exact EncodeReserved.mst _ _ h
  | ldpa => exact EncodeReserved.ldpa _ _ _ _ h
  | prb => exact EncodeReserved.prb _ _ _ _ _ h
  | itlb => exact EncodeReserved.itlb _ _ _ _ _ h
  | ptlb => exact EncodeReserved.ptlb _ _ _ h
  | pca => exact EncodeReserved.pca _ _ _ _ h
  | diag => exact EncodeReserved.diag _ _ _ h
  | rfi => exact EncodeReserved.rfi h
  | brk => exact EncodeReserved.brk _ _ h

/-- With the default policy a word decodes exactly when no reserved bit is set and its fields are read (R132). -/
theorem decode_ok_iff {w : Word} {i : Instr} : decode w = .ok i ↔ w &&& reservedMask w = 0#32 ∧ parse w = .ok i := by
  rw [decode]
  split_ifs with h
  · simp [h]
  · simp [h, Config.reservedPolicy]

/-- Settles O1: the encoded word passes the test of the reserved bits, and its fields are read back. -/
theorem decodeEncode : Obligations.DecodeEncode :=
  fun _ h => decode_ok_iff.mpr ⟨encode_reserved h, parse_encode h⟩

/-- Settles O3, by running the decoder on the nine words. -/
theorem sampleWordsDecode : Obligations.SampleWordsDecode := by
  unfold Obligations.SampleWordsDecode
  decide

/-! ### Fields of a word as parts of it -/

/-- A placed field is the word under the field's mask. -/
theorem place_field (w : Word) (lo n : Nat) : place (field w lo n) lo = w &&& place (BitVec.allOnes n) lo := by
  ext i hi
  by_cases hlo : lo ≤ i
  · simp [place, field, hi, hlo, Nat.not_lt.mpr hlo, Bool.and_comm]
  · simp [place, Nat.lt_of_not_le hlo]

theorem placeFlag_flag (w : Word) (k : Nat) : placeFlag (flag w k) k = w &&& place 1#1 k := by
  rw [show (1#1 : BitVec 1) = BitVec.allOnes 1 from rfl, ← place_field, placeFlag]
  congr 1
  ext i hi
  obtain rfl : i = 0 := by omega
  simp [flag, field]

theorem opcode_of_toNat {w : Word} {n : Nat} (h : (opcodeOf w).toNat = n) :
    opcode (BitVec.ofNat 6 n) = w &&& 0xFC000000#32 := by
  rw [← h, BitVec.ofNat_toNat, BitVec.setWidth_eq]
  exact place_field w 26 6

theorem field_and (x y : Word) (lo n : Nat) : field (x &&& y) lo n = field x lo n &&& field y lo n := by
  ext i hi
  simp [field]

/-- A word is what a mask keeps of it when the bits that the mask drops are 0. -/
theorem and_eq_self_of_cover {w r c : Word} (hr : w &&& r = 0#32) (hc : c ||| r = BitVec.allOnes 32) : w &&& c = w := by
  calc w &&& c = w &&& c ||| w &&& r := by rw [hr, BitVec.or_zero]
    _ = w := by rw [← and_or_mask, hc, BitVec.and_allOnes]

@[simp] theorem cmpCondBits_of (c : BitVec 3) : cmpCondBits (cmpCondOf c) = c := by
  revert c
  decide

@[simp] theorem testCondBits_of (c : BitVec 3) : testCondBits (testCondOf c) = c := by
  revert c
  decide

theorem segFieldOk_of_and {a : BitVec 4} (h : a &&& 8#4 = 0#4) : segFieldOk a = true := by
  revert a
  decide

theorem segFieldOk_of_reserved {w m : Word} (hw : w &&& m = 0#32) (hm : field m 4 4 = 8#4) :
    segFieldOk (field w 4 4) = true := by
  have h := congrArg (fun v => field v 4 4) hw
  simp only [field_and, hm] at h
  exact segFieldOk_of_and h

theorem specialFieldOk_of_and {m : Bool} {s : BitVec 6} (h : s &&& (if m then 32#6 else 56#6) = 0#6) :
    specialFieldOk m s = true := by
  revert m s
  decide

theorem encodeMst_parseMst (w : Word) :
    encodeMst (parseMst w) = w &&& if field w 20 2 = 0#2 then 0x0030000F#32 else 0x0030003F#32 := by
  have hmode : place (field w 20 2) 20 = w &&& 0x00300000#32 := place_field w 20 2
  have hreg : place (field w 0 4) 0 = w &&& 0xF#32 := place_field w 0 4
  have hval : place (field w 0 6) 0 = w &&& 0x3F#32 := place_field w 0 6
  have cases4 : ∀ m : BitVec 2, m = 0#2 ∨ m = 1#2 ∨ m = 2#2 ∨ m = 3#2 := by decide
  rcases cases4 (field w 20 2) with hm | hm | hm | hm <;> rw [hm] at hmode <;>
    simp [parseMst, hm, encodeMst, hmode, hreg, hval, ← and_or_mask]

/-- The mode field of an indexed operand: width group, then index register (30_encoding.md R135). -/
theorem field_append_field (w : Word) : field w 17 2 ++ field w 14 3 = opModeOf w := by
  ext i hi
  simp only [opModeOf, field, BitVec.getElem_append, BitVec.getElem_extractLsb']
  split_ifs
  · rfl
  · congr 1
    omega

/-! ### The operand of a word -/

/-- What the operand of a word can be, with the mode that makes it so (30_encoding.md R134, R135). -/
inductive OperandOf (w : Word) : Operand → Prop where
  | imm (mode : opModeOf w = 0#5) : OperandOf w (.imm (field w 0 14))
  | reg (mode : opModeOf w = 1#5) : OperandOf w (.reg (field w 0 4))
  | regs (mode : opModeOf w = 2#5) : OperandOf w (.regs (field w 4 4) (field w 0 4))
  | mode3 (mode : opModeOf w = 3#5) : OperandOf w (.mode3 (field w 0 14))
  | regIdx (wd : Width) (mode : opModeOf w = regIdxMode wd) :
      OperandOf w (.regIdx wd (field w 12 2) (field w 4 4) (field w 0 4))
  | mode7 (mode : opModeOf w = 7#5) : OperandOf w (.mode7 (field w 0 14))
  | indexed (wd : Width) (group : field w 17 2 = widthGroup wd) :
      OperandOf w (.indexed wd (field w 14 3) (field w 12 2) (field w 0 12))

theorem eq_three_of_eight_le_append {g : BitVec 2} {b : BitVec 3} (h1 : g.toNat ≠ 1) (h2 : g.toNat ≠ 2)
    (h : 8 ≤ (g ++ b).toNat) : g = 3#2 := by
  revert g b
  decide

theorem operandOf_parseOperand (w : Word) : OperandOf w (parseOperand w) := by
  have mode {n : Nat} (h : (opModeOf w).toNat = n) : opModeOf w = BitVec.ofNat 5 n := by rw [← h]; simp
  unfold parseOperand
  split
  case h_1 h => exact .imm (mode h)
  case h_2 h => exact .reg (mode h)
  case h_3 h => exact .regs (mode h)
  case h_4 h => exact .mode3 (mode h)
  case h_5 h => exact .regIdx .word (mode h)
  case h_6 h => exact .regIdx .half (mode h)
  case h_7 h => exact .regIdx .byte (mode h)
  case h_8 h => exact .mode7 (mode h)
  case h_9 =>
    have hge : 8 ≤ (field w 17 2 ++ field w 14 3).toNat := by
      simp only [imp_false] at *
      rw [field_append_field]
      omega
    have group {g : Nat} (h : (field w 17 2).toNat = g) : field w 17 2 = BitVec.ofNat 2 g := by rw [← h]; simp
    split
    case h_1 h => exact .indexed .word (group h)
    case h_2 h => exact .indexed .half (group h)
    case h_3 h1 h2 => exact .indexed .byte (eq_three_of_eight_le_append h1 h2 hge)

/-- An operand has the mode of its word. -/
theorem modeOf_parseOperand (w : Word) : modeOf (parseOperand w) = opModeOf w := by
  have h := operandOf_parseOperand w
  generalize parseOperand w = opd at h
  cases h with
  | indexed wd group => rw [modeOf, ← group, field_append_field]
  | regIdx wd mode => exact mode.symm
  | _ mode => exact mode.symm

/-- The bits of opMode and opArg that the layout of a mode uses (30_encoding.md R134). -/
def operandMask (mode : BitVec 5) : Word := 0x0007FFFF#32 &&& ~~~(opArgMask mode)

theorem opArgMask_indexed (wd : Width) (base : BitVec 3) : opArgMask (widthGroup wd ++ base) = 0#32 := by
  revert base
  cases wd <;> decide

/-- Mode 0 is placed like every other mode. -/
theorem encodeOperand_imm (val : BitVec 14) : encodeOperand (.imm val) = place 0#5 14 ||| place val 0 := by
  rw [encodeOperand, place_zero, BitVec.zero_or]

/-- Encoding an operand again keeps the bits that its mode's layout uses. -/
theorem encodeOperand_parseOperand (w : Word) :
    encodeOperand (parseOperand w) = w &&& operandMask (opModeOf w) := by
  have hmode : place (opModeOf w) 14 = w &&& 0x0007C000#32 := place_field w 14 5
  have h := operandOf_parseOperand w
  rw [← modeOf_parseOperand] at hmode ⊢
  generalize parseOperand w = opd at h hmode ⊢
  cases h with
  | indexed wd group =>
    rw [operandMask, modeOf, opArgMask_indexed, encodeOperand, ← group]
    simp only [place_field, ← and_or_mask]
    rfl
  | regIdx wd mode =>
    simp only [modeOf] at hmode ⊢
    simp only [encodeOperand, hmode, place_field, ← and_or_mask]
    cases wd <;> rfl
  | imm mode =>
    rw [encodeOperand_imm]
    simp only [modeOf] at hmode ⊢
    simp only [hmode, place_field, ← and_or_mask]
    rfl
  | _ mode =>
    simp only [modeOf] at hmode
    simp only [encodeOperand, hmode, place_field, ← and_or_mask, modeOf]
    rfl

theorem opModeOf_indexed_toNat {w : Word} {wd : Width} (group : field w 17 2 = widthGroup wd) :
    (opModeOf w).toNat = 8 * (widthGroup wd).toNat + (field w 14 3).toNat := by
  have append : ∀ (g : BitVec 2) (b : BitVec 3), (g ++ b).toNat = 8 * g.toNat + b.toNat := by decide
  rw [← field_append_field, append, group]

/-! ### Encoding what was decoded -/

/-- The word holds exactly this instruction. -/
def WordHolds (w : Word) (i : Instr) : Prop := i.wf = true ∧ encode i = w

theorem operandMask_or_opArgMask (mode : BitVec 5) : operandMask mode ||| opArgMask mode = 0x0007FFFF#32 := by
  revert mode
  decide

/-- The cover of a word by the parts `c` above its operand, the parts of its operand, and its reserved bits. -/
theorem and_operand_eq_self {w c r : Word} (hr : w &&& (r ||| opArgMask (opModeOf w)) = 0#32)
    (hc : c ||| r = 0xFFF80000#32) : w &&& (c ||| operandMask (opModeOf w)) = w := by
  refine and_eq_self_of_cover hr ?_
  calc c ||| operandMask (opModeOf w) ||| (r ||| opArgMask (opModeOf w))
      = c ||| r ||| (operandMask (opModeOf w) ||| opArgMask (opModeOf w)) := by ac_rfl
    _ = BitVec.allOnes 32 := by rw [operandMask_or_opArgMask, hc]; rfl

/-- A word of opcodes 0x18 to 0x1C is its opcode, register and operand. -/
theorem encode_memoryWord {w : Word} {n : Nat} {opd : Operand} (hop : (opcodeOf w).toNat = n)
    (hr : w &&& (0x00380000#32 ||| opArgMask (opModeOf w)) = 0#32) (hopd : parseOperand w = opd) :
    opcode (BitVec.ofNat 6 n) ||| place (field w 22 4) 22 ||| encodeOperand opd = w := by
  rw [opcode_of_toNat hop, place_field, ← hopd, encodeOperand_parseOperand, ← and_or_mask, ← and_or_mask]
  exact and_operand_eq_self hr (by decide)

theorem loadArgMask_regIdx (wd : Width) (seg : BitVec 2) (a b : GReg) :
    loadArgMask (modeOf (.regIdx wd seg a b)) = opArgMask (modeOf (.regIdx wd seg a b)) := by
  cases wd <;> rfl

theorem loadArgMask_indexed (wd : Width) (base : BitVec 3) : loadArgMask (widthGroup wd ++ base) = 0#32 := by
  revert base
  cases wd <;> decide

/-- An indexed operand has no reserved bits. -/
theorem opArgMask_of_indexed {w : Word} {wd : Width} {base : BitVec 3} {seg : BitVec 2} {ofs : BitVec 12}
    (h : parseOperand w = .indexed wd base seg ofs) : opArgMask (opModeOf w) = 0#32 := by
  rw [← modeOf_parseOperand, h, modeOf, opArgMask_indexed]

/-- An immediate operand has no reserved bits. -/
theorem opArgMask_of_imm {w : Word} {val : BitVec 14} (h : parseOperand w = .imm val) :
    opArgMask (opModeOf w) = 0#32 := by
  rw [← modeOf_parseOperand, h]
  rfl

theorem loadArgMask_of_indexed {w : Word} {wd : Width} {base : BitVec 3} {seg : BitVec 2} {ofs : BitVec 12}
    (h : parseOperand w = .indexed wd base seg ofs) : loadArgMask (opModeOf w) = opArgMask (opModeOf w) := by
  rw [opArgMask_of_indexed h, ← modeOf_parseOperand, h, modeOf, loadArgMask_indexed]

theorem loadArgMask_of_regIdx {w : Word} {wd : Width} {seg : BitVec 2} {a b : GReg}
    (h : parseOperand w = .regIdx wd seg a b) : loadArgMask (opModeOf w) = opArgMask (opModeOf w) := by
  rw [← modeOf_parseOperand, h, loadArgMask_regIdx]

theorem parseLoad_holds {w : Word} {i : Instr} (hop : (opcodeOf w).toNat = 0x18)
    (hr : w &&& (0x00380000#32 ||| loadArgMask (opModeOf w)) = 0#32) (h : parseLoad w = .ok i) : WordHolds w i := by
  unfold parseLoad at h
  split at h
  case h_1 hopd | h_2 hopd | h_3 hopd =>
    cases h
    exact ⟨rfl, encode_memoryWord hop (loadArgMask_of_regIdx hopd ▸ hr) hopd⟩
  case h_4 hopd | h_5 hopd | h_6 hopd =>
    cases h
    exact ⟨rfl, encode_memoryWord hop (loadArgMask_of_indexed hopd ▸ hr) hopd⟩
  case h_7 => cases h

/-- The reserved bits of a word whose operand has none. -/
theorem and_option_mask {w : Word} (hr : w &&& 0x00380000#32 = 0#32) (harg : opArgMask (opModeOf w) = 0#32) :
    w &&& (0x00380000#32 ||| opArgMask (opModeOf w)) = 0#32 := by
  rw [harg]
  exact hr

theorem parseStore_holds {w : Word} {i : Instr} (hop : (opcodeOf w).toNat = 0x19)
    (hr : w &&& 0x00380000#32 = 0#32) (h : parseStore w = .ok i) : WordHolds w i := by
  unfold parseStore at h
  split at h
  case h_1 hopd | h_2 hopd | h_3 hopd =>
    cases h
    exact ⟨rfl, encode_memoryWord hop (and_option_mask hr (opArgMask_of_indexed hopd)) hopd⟩
  case h_4 => cases h

/-- LDWR and STWC, which are `mk` of their operand. -/
theorem parseReserved_holds {w : Word} {i : Instr} {mk : GReg → BitVec 3 → BitVec 2 → BitVec 12 → Instr} {n : Nat}
    (hmk : ∀ r base seg ofs, (mk r base seg ofs).wf = true ∧ encode (mk r base seg ofs) =
      opcode (BitVec.ofNat 6 n) ||| place r 22 ||| encodeOperand (.indexed .word base seg ofs))
    (hop : (opcodeOf w).toNat = n) (hr : w &&& 0x00380000#32 = 0#32) (h : parseReserved w mk = .ok i) :
    WordHolds w i := by
  unfold parseReserved at h
  split at h
  case h_1 base seg ofs hopd =>
    cases h
    obtain ⟨hwf, hencode⟩ := hmk (field w 22 4) base seg ofs
    exact ⟨hwf, hencode.trans (encode_memoryWord hop (and_option_mask hr (opArgMask_of_indexed hopd)) hopd)⟩
  case h_2 => cases h

theorem parseLdo_holds {w : Word} {i : Instr} (hop : (opcodeOf w).toNat = 0x1C)
    (hr : w &&& 0x00380000#32 = 0#32) (h : parseLdo w = .ok i) : WordHolds w i := by
  unfold parseLdo at h
  split at h
  case h_1 hopd =>
    cases h
    exact ⟨rfl, encode_memoryWord hop (and_option_mask hr (opArgMask_of_imm hopd)) hopd⟩
  case h_2 hopd =>
    cases h
    exact ⟨rfl, encode_memoryWord hop (and_option_mask hr (opArgMask_of_indexed hopd)) hopd⟩
  case h_3 => cases h

/-- The selector of MR names an existing register when its reserved bits are 0. -/
theorem mr_holds {w : Word} (hop : (opcodeOf w).toNat = 0x09)
    (hr : w &&& (if flag w 19 then 0x0007FFE0#32 else 0x0007FFF8#32) = 0#32) :
    WordHolds w (.mr (field w 22 4) (flag w 21) (flag w 20) (flag w 19) (field w 0 6)) := by
  refine ⟨specialFieldOk_of_and ?_, ?_⟩
  · have h := congrArg (fun v => field v 0 6) hr
    rw [field_and] at h
    cases hm : flag w 19 <;> rw [hm] at h <;> exact h
  · simp only [encode, opcode_of_toNat hop, place_field, placeFlag_flag, ← and_or_mask]
    refine and_eq_self_of_cover hr ?_
    cases flag w 19 <;> decide

theorem mst_holds {w : Word} (hop : (opcodeOf w).toNat = 0x0A)
    (hr : w &&& (if field w 20 2 = 0#2 then 0x000FFFF0#32 else 0x000FFFC0#32) = 0#32) :
    WordHolds w (.mst (field w 22 4) (parseMst w)) := by
  refine ⟨rfl, ?_⟩
  simp only [encode, opcode_of_toNat hop, place_field, encodeMst_parseMst, ← and_or_mask]
  refine and_eq_self_of_cover hr ?_
  split <;> decide

/-- The cases are numbered as the rows of `parse`: `h_1` is BRK, `h_43` RFI, `h_44` the unassigned opcodes. -/
theorem parse_holds {w : Word} {i : Instr} (hr : w &&& reservedMask w = 0#32) (h : parse w = .ok i) : WordHolds w i := by
  unfold parse at h
  split at h <;> rename_i hop <;> simp only [reservedMask, hop] at hr
  case h_10 =>
    cases h
    exact mr_holds hop hr
  case h_11 =>
    cases h
    exact mst_holds hop hr
  case h_18 => exact parseLoad_holds hop hr h
  case h_19 => exact parseStore_holds hop hr h
  case h_20 | h_21 => exact parseReserved_holds (fun _ _ _ _ => ⟨rfl, rfl⟩) hop hr h
  case h_22 => exact parseLdo_holds hop hr h
  case h_44 => cases h
  -- ADD, SUB, CMP
  case h_12 | h_13 | h_17 =>
    cases h
    refine ⟨rfl, ?_⟩
    simp only [encode, opcode_of_toNat hop, place_field, placeFlag_flag, cmpCondBits_of, encodeOperand_parseOperand,
      ← and_or_mask]
    exact and_operand_eq_self (r := 0#32) (by rw [BitVec.zero_or]; exact hr) (by decide)
  -- AND, OR, XOR: the third option bit is marked 0
  case h_14 | h_15 | h_16 =>
    cases h
    refine ⟨rfl, ?_⟩
    simp only [encode, opcode_of_toNat hop, place_field, placeFlag_flag, encodeOperand_parseOperand, ← and_or_mask]
    exact and_operand_eq_self hr (by decide)
  -- BE, BLE, LDPA, PRB, ITLB, PTLB, PCA: the leftmost bit of the segment field is marked 0
  case h_29 | h_30 | h_34 | h_35 | h_36 | h_37 | h_38 =>
    cases h
    refine ⟨segFieldOk_of_reserved hr (by decide), ?_⟩
    simp only [encode, opcode_of_toNat hop, place_field, placeFlag_flag, ← and_or_mask]
    exact and_eq_self_of_cover hr (by decide)
  -- the layouts without operand and segment field
  all_goals
    cases h
    refine ⟨rfl, ?_⟩
    simp only [encode, opcode_of_toNat hop, place_field, placeFlag_flag, cmpCondBits_of, testCondBits_of,
      ← and_or_mask]
    exact and_eq_self_of_cover hr (by decide)

/-- Settles O2: with no reserved bit set, the fields that the decoder reads are the whole word. -/
theorem encodeDecode : Obligations.EncodeDecode := by
  intro w i h
  obtain ⟨hr, hp⟩ := decode_ok_iff.mp h
  exact parse_holds hr hp

end Sys2Proof.Proofs
end

section
/-! SUPPORT. Words that are no instruction (30_encoding.md R143, R151, R152): unassigned opcodes and operand modes that an
opcode does not have, with obligations O4 and O5. -/

namespace Sys2Proof.Proofs

open Sys2Proof Sys2Proof.Machine Sys2Proof.Laws

/-! ### What a word without reserved bits runs as -/

theorem decode_of_clear {w : Word} (hr : w &&& reservedMask w = 0#32) : decode w = parse w := if_pos hr

theorem runWord_of_parse_ok {w : Word} {i : Instr} (s : State) (hr : w &&& reservedMask w = 0#32)
    (h : parse w = .ok i) : runWord w s = exec i s := by
  rw [runWord, decode_of_clear hr, h]

/-- A word that is rejected for its opcode or its operand mode takes trap 5 (R151, R152). -/
theorem runWord_of_parse_error {w : Word} {e : DecodeError} (s : State) (hr : w &&& reservedMask w = 0#32)
    (h : parse w = .error e) (he : e = .unassignedOpcode ∨ e = .illegalOpMode) :
    runWord w s = takeTrap (instrTrap .illegalInstruction s) s := by
  rw [runWord, decode_of_clear hr, h]
  rcases he with rfl | rfl <;> rfl

/-! ### Unassigned opcodes -/

/-- An unassigned opcode has no reserved field and no row in the opcode map. -/
theorem parse_unassigned {w : Word}
    (h : (opcodeOf w).toNat ∈ [0x0B, 0x0C, 0x0D, 0x0E, 0x0F, 0x16, 0x17, 0x1D, 0x1E, 0x1F, 0x2B, 0x2C, 0x2D, 0x2E, 0x2F,
      0x36, 0x37, 0x38, 0x39, 0x3A, 0x3B]) :
    reservedMask w = 0#32 ∧ parse w = .error .unassignedOpcode := by
  unfold reservedMask parse
  generalize (opcodeOf w).toNat = op at h ⊢
  fin_cases h <;> exact ⟨rfl, rfl⟩

/-- Settles O4: such a word has no reserved field, so its other bits do not matter. -/
theorem unassignedOpcodeTraps : Obligations.UnassignedOpcodeTraps := by
  intro w s hir h
  obtain ⟨hmask, hparse⟩ := parse_unassigned h
  have hrun := runWord_of_parse_error s (by rw [hmask, BitVec.and_zero]) hparse (.inl rfl)
  rw [instrTrap, hir] at hrun
  exact ⟨hrun, rfl⟩

/-! ### Operand modes that an opcode does not have -/

theorem parseOperand_of_mode3 {w : Word} (h : opModeOf w = 3#5) : parseOperand w = .mode3 (field w 0 14) := by
  simp [parseOperand, h]

theorem parseOperand_of_mode7 {w : Word} (h : opModeOf w = 7#5) : parseOperand w = .mode7 (field w 0 14) := by
  simp [parseOperand, h]

theorem opMode_of_regIdx {w : Word} {wd : Width} (mode : opModeOf w = regIdxMode wd) :
    4 ≤ (opModeOf w).toNat ∧ (opModeOf w).toNat ≤ 6 := by
  rw [mode]
  cases wd <;> decide

theorem opMode_of_indexed {w : Word} {wd : Width} (group : field w 17 2 = widthGroup wd) :
    8 ≤ (opModeOf w).toNat ∧ (wd = .word → (opModeOf w).toNat < 16) := by
  rw [opModeOf_indexed_toNat group]
  have hbase := (field w 14 3).isLt
  cases wd <;> simp [widthGroup] <;> omega

theorem parseLoad_illegal {w : Word} (h : (opModeOf w).toNat ≤ 3 ∨ opModeOf w = 7#5) :
    parseLoad w = .error .illegalOpMode := by
  replace h : (opModeOf w).toNat ≤ 3 ∨ (opModeOf w).toNat = 7 := h.imp_right fun h => by rw [h]; rfl
  have hopd := operandOf_parseOperand w
  rw [parseLoad]
  generalize parseOperand w = opd at hopd ⊢
  cases hopd with
  | regIdx wd mode => have := opMode_of_regIdx mode; omega
  | indexed wd group => have := opMode_of_indexed group; omega
  | _ => rfl

theorem parseStore_illegal {w : Word} (h : (opModeOf w).toNat ≤ 7) : parseStore w = .error .illegalOpMode := by
  have hopd := operandOf_parseOperand w
  rw [parseStore]
  generalize parseOperand w = opd at hopd ⊢
  cases hopd with
  | indexed wd group => have := opMode_of_indexed group; omega
  | _ => rfl

theorem parseReserved_illegal {w : Word} {mk : GReg → BitVec 3 → BitVec 2 → BitVec 12 → Instr}
    (h : (opModeOf w).toNat ≤ 7 ∨ 16 ≤ (opModeOf w).toNat) : parseReserved w mk = .error .illegalOpMode := by
  have hopd := operandOf_parseOperand w
  rw [parseReserved]
  generalize parseOperand w = opd at hopd ⊢
  cases hopd with
  | indexed wd group =>
    obtain ⟨hge, hword⟩ := opMode_of_indexed group
    cases wd with
    | word => have := hword rfl; omega
    | half | byte => rfl
  | _ => rfl

theorem parseLdo_illegal {w : Word} (h1 : 1 ≤ (opModeOf w).toNat) (h7 : (opModeOf w).toNat ≤ 7) :
    parseLdo w = .error .illegalOpMode := by
  have hopd := operandOf_parseOperand w
  rw [parseLdo]
  generalize parseOperand w = opd at hopd ⊢
  cases hopd with
  | imm mode => simp [mode] at h1
  | indexed wd group => have := opMode_of_indexed group; omega
  | _ => rfl

/-- The undefined modes of opcode 0x18 have no layout, so opArg is not looked at (notes/assumptions/32.md). -/
theorem loadArgMask_illegal {mode : BitVec 5} (h : mode.toNat ≤ 3 ∨ mode = 7#5) : loadArgMask mode = 0#32 := by
  revert mode
  decide

/-- A word of the opcodes 0x10 to 0x15 is one of six instructions with the operand of the word. -/
theorem parse_operandFormat {w : Word}
    (h : opcodeOf w = 0x10#6 ∨ opcodeOf w = 0x11#6 ∨ opcodeOf w = 0x12#6 ∨ opcodeOf w = 0x13#6 ∨ opcodeOf w = 0x14#6 ∨
      opcodeOf w = 0x15#6) :
    ∃ r c l o cc, ∃ i ∈ [Instr.add r c l o (parseOperand w), .sub r c l o (parseOperand w), .and r c l (parseOperand w),
      .or r c l (parseOperand w), .xor r c l (parseOperand w), .cmp r cc (parseOperand w)], parse w = .ok i := by
  refine ⟨field w 22 4, flag w 21, flag w 20, flag w 19, cmpCondOf (field w 19 3), ?_⟩
  rcases h with h | h | h | h | h | h <;> simp [parse, h]

theorem fetchOperand_undefined {r : GReg} {opd : Operand} {arg : BitVec 14} {s : State}
    (h : opd = .mode3 arg ∨ opd = .mode7 arg) : fetchOperand r opd s = .trap (instrTrap .illegalInstruction s) := by
  rcases h with rfl | rfl <;> rfl

theorem effectiveOffset_illegal {opd : Operand} {s : State} (himm : ∀ v, opd ≠ .imm v)
    (hindexed : ∀ w base seg ofs, opd ≠ .indexed w base seg ofs) :
    effectiveOffset opd s = .trap (instrTrap .illegalInstruction s) := by
  cases opd with
  | imm v => exact absurd rfl (himm v)
  | indexed w base seg ofs => exact absurd rfl (hindexed w base seg ofs)
  | _ => rfl

theorem exec_ldo_illegal {r : GReg} {opd : Operand} {s : State} (himm : ∀ v, opd ≠ .imm v)
    (hindexed : ∀ w base seg ofs, opd ≠ .indexed w base seg ofs) :
    exec (.ldo r opd) s = takeTrap (instrTrap .illegalInstruction s) s := by
  rw [exec, execLdo, effectiveOffset_illegal himm hindexed, bind_trap_left, conclude_trap]

/-- MST is privileged first; mode 3 is looked at in privileged mode only (44_system_control.md R283). -/
theorem exec_mst_mode3 {r : GReg} {val : BitVec 6} {s : State} (hx : s.st.x = false) :
    exec (.mst r (.mode3 val)) s = takeTrap (instrTrap .illegalInstruction s) s := by
  rw [exec, execMst, privileged_of_kernel _ hx, mstBits, bind_trap_left, conclude_trap]

/-- A word of the opcodes 0x10 to 0x15 in mode 3 or 7 traps when its operand is fetched. -/
theorem runWord_undefined_mode {w : Word} {s : State}
    (hop : opcodeOf w = 0x10#6 ∨ opcodeOf w = 0x11#6 ∨ opcodeOf w = 0x12#6 ∨ opcodeOf w = 0x13#6 ∨
      opcodeOf w = 0x14#6 ∨ opcodeOf w = 0x15#6)
    (hmode : opModeOf w = 3#5 ∨ opModeOf w = 7#5) (hr : w &&& reservedMask w = 0#32) :
    runWord w s = takeTrap (instrTrap .illegalInstruction s) s := by
  obtain ⟨r, c, l, o, cc, i, hi, hp⟩ := parse_operandFormat hop
  rw [runWord_of_parse_ok s hr hp]
  exact exec_operand_trap (fetchOperand_undefined (hmode.imp parseOperand_of_mode3 parseOperand_of_mode7)) c l o cc i hi

theorem opArgMask_undefined {mode : BitVec 5} (h : mode = 3#5 ∨ mode = 7#5) : opArgMask mode = 0#32 := by
  rcases h with rfl | rfl <;> rfl

/-- Settles O5: the modes trap in the execution of ADD to CMP, LDO and MST, and for the other opcodes in the decoder; in
neither way does an undefined mode have reserved bits in opArg. -/
theorem illegalModesTrap : Obligations.IllegalModesTrap := by
  refine ⟨fun r c l o cc val opd arg s => ⟨fun h => exec_operand_trap (fetchOperand_undefined h) c l o cc,
    exec_ldo_illegal, exec_mst_mode3⟩, fun w s h => ?_⟩
  rcases h with ⟨hop, hmode⟩ | ⟨hop, hopt, hmode⟩ | ⟨hopt, h⟩
  · refine runWord_undefined_mode (by tauto) hmode ?_
    rcases hop with hop | hop | hop <;> simp [reservedMask, hop, opArgMask_undefined hmode]
  · refine runWord_undefined_mode (by tauto) hmode ?_
    rcases hop with hop | hop | hop <;> simp [reservedMask, hop, opArgMask_undefined hmode, hopt]
  · rcases h with ⟨hop, hmode⟩ | ⟨hop, hmode⟩ | ⟨hop | hop, hmode⟩ | ⟨hop, h1, h7⟩
    · exact runWord_of_parse_error s (by simp [reservedMask, hop, loadArgMask_illegal hmode, hopt])
        (by simp [parse, hop, parseLoad_illegal hmode]) (.inr rfl)
    · exact runWord_of_parse_error s (by simp [reservedMask, hop, hopt])
        (by simp [parse, hop, parseStore_illegal hmode]) (.inr rfl)
    · exact runWord_of_parse_error s (by simp [reservedMask, hop, hopt])
        (by simp [parse, hop, parseReserved_illegal hmode]) (.inr rfl)
    · exact runWord_of_parse_error s (by simp [reservedMask, hop, hopt])
        (by simp [parse, hop, parseReserved_illegal hmode]) (.inr rfl)
    · exact runWord_of_parse_error s (by simp [reservedMask, hop, hopt])
        (by simp [parse, hop, parseLdo_illegal h1 h7]) (.inr rfl)

end Sys2Proof.Proofs
end

section
/-! SUPPORT. The results of the memory reference instructions (40_memory_reference.md R172 to R194): what a read and a
write leave in memory and in the I/O range, and from them the loads, the stores, the reservation and the absolute
accesses, with obligations O13, O15, O17, O18 and O45. -/

namespace Sys2Proof.Proofs

open Sys2Proof Sys2Proof.Machine Sys2Proof.Laws

/-! ### Reads and writes below the I/O range -/

/-- A read below the I/O range is served by memory and changes nothing. -/
theorem physRead_memory {pa : Word} {w : Width} (s : State) (h : pa.toNat + widthBytes w ≤ 0xF0000000) :
    physRead pa w s = .done (s.mem.read pa.toNat w, s) :=
  physRead_done.mpr (.inl ⟨decide_eq_true h, rfl, rfl⟩)

/-- A write below the I/O range stores the low bytes of the value and hands nothing to the environment. -/
theorem physWrite_memory_effect {pa : Word} {w : Width} {v : Word} {s t : State} (h : physWrite pa w v s = .done t)
    (hmem : pa.toNat + widthBytes w ≤ 0xF0000000) :
    t.mem.read pa.toNat w = lowBytes w v ∧ SameMemoryOutside pa.toNat (widthBytes w) s t ∧ t.envTrace = s.envTrace := by
  have houtside : SameMemoryOutside pa.toNat (widthBytes w) s t := physWrite_byte_outside h
  rcases physWrite_done.mp h with ⟨-, rfl⟩ | ⟨hnot, -, -⟩
  · exact ⟨read_write_same s.mem pa.toNat w v, houtside, rfl⟩
  · exact absurd hmem (of_decide_eq_false hnot)

/-- A write in the I/O range changes no byte of memory and hands the low bytes of the value to the environment. -/
theorem physWrite_io_effect {pa : Word} {w : Width} {v : Word} {s t : State} (h : physWrite pa w v s = .done t)
    (hio : 0xF0000000 ≤ pa.toNat) :
    SameMemory s t ∧ t.envTrace = .ioWrite pa w (lowBytes w v) :: s.envTrace := by
  cases h.symm.trans (physWrite_io v s hio)
  exact ⟨fun _ => rfl, rfl⟩

/-! ### What every write leaves -/

/-- `t` is `s` after a write that overlaps the word at `word`, up to the bytes of memory and the trace of the
environment: a reservation of that word is lost (R193), its two flags are set (20_memory.md R120). -/
structure AfterWrite (word : Word) (s t : State) : Prop where
  gr : t.gr = s.gr
  control : SameControl s t
  inputs : SameInputs s t
  draws : t.draws = s.draws
  iaOfs : t.iaOfs = s.iaOfs
  resv : t.resv = if s.resv = some word then none else s.resv
  needsFlush (k : Nat) : t.needsFlush.contains k = (decide (k = word.toNat) || s.needsFlush.contains k)
  needsPurge (k : Nat) : t.needsPurge.contains k = (decide (k = word.toNat) || s.needsPurge.contains k)

/-- In memory and in the I/O range alike. -/
theorem physWrite_afterWrite {pa : Word} {w : Width} {v : Word} {s t : State} (h : physWrite pa w v s = .done t) :
    AfterWrite (wordOf pa) s t := by
  rcases physWrite_done.mp h with ⟨-, rfl⟩ | ⟨-, -, rfl⟩
  all_goals exact ⟨rfl, ⟨rfl, rfl, rfl, rfl, rfl, rfl⟩, ⟨rfl, rfl, rfl⟩, rfl, rfl, rfl,
    contains_addAddr s.needsFlush _, contains_addAddr s.needsPurge _⟩

theorem wordOf_of_mod {pa : Word} (h : pa.toNat % 4 = 0) : wordOf pa = pa :=
  of_decide_eq_true ((wordAligned_iff pa).mpr h)

/-- A word access overlaps the word at its own address. -/
theorem physWrite_word_afterWrite {pa v : Word} {s t : State} (halign : pa.toNat % 4 = 0)
    (h : physWrite pa .word v s = .done t) : AfterWrite pa s t :=
  wordOf_of_mod halign ▸ physWrite_afterWrite h

/-! ### Loads and stores (R172 to R179) -/

/-- Settles O13: the six forms are one load, and below the I/O range it reads memory. -/
theorem loadResult : Obligations.LoadResult := by
  intro r seg a b base ofs s i w x pa hi haddr hmem
  have hexec : exec i s = conclude s (load w r seg x s) := by
    simp only [List.mem_cons, List.not_mem_nil, or_false] at hi
    rcases hi with hi | hi | hi | hi | hi | hi <;> cases hi <;> rfl
  have hload : load w r seg x s = .done (s.setGR r (s.mem.read pa.toNat w)).retire :=
    load_done.mpr ⟨pa, _, _, haddr, physRead_memory s hmem, rfl⟩
  rw [hexec, hload, conclude_done]

/-- Settles O15: the three stores are one store; the rest is what its write leaves. -/
theorem storeResult : Obligations.StoreResult := by
  intro r seg base ofs s i w pa hi haddr hmem
  have hexec : exec i s = conclude s (store w r seg (indexedOffset base ofs s) s) := by
    simp only [List.mem_cons, List.not_mem_nil, or_false] at hi
    rcases hi with hi | hi | hi <;> cases hi <;> rfl
  obtain ⟨u, hu⟩ := physWrite_aligned (s.getGR r) s (dataAddress_aligned haddr)
  have hstore : store w r seg (indexedOffset base ofs s) s = .done u.retire := store_done.mpr ⟨pa, u, haddr, hu, rfl⟩
  obtain ⟨hread, houtside, htrace⟩ := physWrite_memory_effect hu hmem
  have hafter := physWrite_afterWrite hu
  rw [hexec, hstore, ← wordOf_eq_shift, ← toNat_dropLow2, ← wordOf_eq]
  exact ⟨u.retire, rfl, hread, houtside, hafter.gr, { hafter.control with }, { hafter.inputs with }, hafter.draws,
    htrace, congrArg (· + 4#32) hafter.iaOfs, hafter.resv, hafter.needsFlush, hafter.needsPurge⟩

/-! ### The reservation (R191 to R194) -/

/-- STWC stores iff the reservation is on the word and no failure is drawn (R192). -/
theorem stwcSucceeds_iff {pa : Word} {s : State} :
    stwcSucceeds pa s = true ↔ s.resv = some pa ∧ Config.stwcFails s.draws = false := by
  simp [stwcSucceeds, stwcDraw, Config.stwcMayFail]

theorem stwcSucceeds_eq_false_iff {pa : Word} {s : State} :
    stwcSucceeds pa s = false ↔ s.resv ≠ some pa ∨ Config.stwcFails s.draws = true := by
  rw [← Bool.not_eq_true, stwcSucceeds_iff, not_and_or, Bool.not_eq_false]

theorem exec_stwc_found {r : GReg} {seg : BitVec 2} {base : BitVec 3} {ofs : BitVec 12} {s : State} {pa : Word}
    (haddr : dataAddress true .word seg (indexedOffset base ofs s) s = .done pa) :
    exec (.stwc r base seg ofs) s = conclude s (storeConditional r pa s) := by
  rw [exec, execStwc, haddr, bind_done_left]

/-- Settles O17: LDWR is a read that takes the reservation; STWC is split by whether it succeeds, and what a success
stores is what its write leaves. -/
theorem reservationResult : Obligations.ReservationResult := by
  rintro r seg base ofs s pa x rfl
  refine ⟨fun haddr => ⟨fun hmem => ?_, fun hio => ?_⟩, fun haddr _ => ?_⟩
  · exact congrArg (conclude s) (loadReserved_done.mpr ⟨pa, _, _, haddr, physRead_memory s hmem, rfl⟩)
  · exact congrArg (conclude s) (loadReserved_done.mpr ⟨pa, _, _, haddr, physRead_io s hio, rfl⟩)
  · have halign : aligned .word pa = true := dataAddress_aligned haddr
    rw [exec_stwc_found haddr]
    cases hsucceeds : stwcSucceeds pa s with
    | true =>
      obtain ⟨u, hu⟩ := physWrite_aligned (s.getGR r) { s with draws := s.draws + 1 } halign
      have hafter := physWrite_word_afterWrite (aligned_iff.mp halign) hu
      have hmemory := physWrite_memory_effect hu
      have hio := physWrite_io_effect hu
      rw [storeConditional_done.mpr (.inl ⟨hsucceeds, u, hu, rfl⟩)]
      refine ⟨_, rfl, rfl, fun q hq => ?_, { hafter.control with }, { hafter.inputs with }, hafter.draws,
        congrArg (· + 4#32) hafter.iaOfs, fun _ => ⟨?_, hmemory, hio, hafter.needsFlush,
        hafter.needsPurge⟩, fun hfails => ?_⟩
      · rw [getGR_retire, getGR_setGR, if_neg hq]
        exact getGR_congr hafter.gr q
      · rw [getGR_retire, getGR_setGR, if_pos rfl]
      · exact absurd hsucceeds (by rw [stwcSucceeds_eq_false_iff.mpr hfails]; decide)
    | false =>
      rw [storeConditional_done.mpr (.inr ⟨hsucceeds, rfl⟩)]
      refine ⟨_, rfl, rfl, sameGRBut_of_gr_set rfl, ⟨rfl, rfl, rfl, rfl, rfl, rfl⟩, ⟨rfl, rfl, rfl⟩, rfl, rfl,
        fun hholds => ?_, fun _ => ⟨?_, fun _ => rfl, rfl, rfl, rfl⟩⟩
      · exact absurd (stwcSucceeds_iff.mpr hholds) (by rw [hsucceeds]; decide)
      · rw [getGR_retire, getGR_setGR, if_pos rfl]

theorem takeTrap_resv {p : Trap} {s t : State} (h : takeTrap p s = .next t) : t.resv = none := by
  obtain ⟨-, rfl⟩ := takeTrap_next.mp h
  rfl

/-- RFI in privileged mode is the return from a trap (44_system_control.md R296). -/
theorem exec_rfi_privileged {s : State} (h : s.st.x = false) : exec .rfi s = .next (trapReturn s) := by
  rw [exec, execRfi, privileged_of_kernel _ h, conclude_done]

/-- Settles O45: RFI returns or takes a trap, and both clear the reservation. -/
theorem reservationCleared : Obligations.ReservationCleared := by
  refine ⟨fun p s t => takeTrap_resv, fun s t h => ?_, fun s hx => ⟨_, exec_rfi_privileged hx, rfl⟩⟩
  rcases conclude_next.mp h with hdone | ⟨p, -, htrap⟩
  · obtain ⟨-, hreturn⟩ := privileged_done.mp hdone
    cases hreturn
    rfl
  · exact takeTrap_resv htrap

/-! ### Absolute accesses (R180 to R182) -/

section
variable {r : GReg} {pa : Word} {s : State}

theorem loadAbsolute_read {v : Word} {u : State} (hx : s.st.x = false) (halign : pa.toNat % 4 = 0)
    (h : physRead pa .word s = .done (v, u)) : loadAbsolute r pa s = .done (u.setGR r v).retire :=
  loadAbsolute_done.mpr ⟨hx, aligned_iff.mpr halign, v, u, h, rfl⟩

theorem loadAbsolute_misaligned (hx : s.st.x = false) (h : pa.toNat % 4 ≠ 0) :
    loadAbsolute r pa s = .trap (dataTrap .alignment 0#32 pa s) := by
  rw [loadAbsolute, privileged_of_kernel _ hx, plainAddress_misaligned s h, bind_trap_left]

end

section
variable {r b : GReg} {ofs : BitVec 18} {s : State}

theorem exec_stwa_aligned (hx : s.st.x = false) (halign : (absoluteOffset b ofs s).toNat % 4 = 0) :
    ∃ u, physWrite (absoluteOffset b ofs s) .word (s.getGR r) s = .done u ∧ exec (.stwa r ofs b) s = .next u.retire := by
  have ha : aligned .word (absoluteOffset b ofs s) = true := aligned_iff.mpr halign
  obtain ⟨u, hu⟩ := physWrite_aligned (s.getGR r) s ha
  refine ⟨u, hu, ?_⟩
  rw [exec, execStwa, privileged_of_kernel _ hx, plainAddress_done.mpr ⟨ha, rfl⟩, bind_done_left, hu, bind_done_left,
    conclude_done]

theorem exec_stwa_misaligned (hx : s.st.x = false) (h : (absoluteOffset b ofs s).toNat % 4 ≠ 0) :
    exec (.stwa r ofs b) s = takeTrap (dataTrap .alignment 0#32 (absoluteOffset b ofs s) s) s := by
  rw [exec, execStwa, privileged_of_kernel _ hx, plainAddress_misaligned s h, bind_trap_left, conclude_trap]

end

/-- Settles O18: both loads are one absolute load; an aligned STWA is one write, and what it leaves does not depend on
where the word is but for memory and the trace. -/
theorem absoluteAccessResult : Obligations.AbsoluteAccessResult := by
  refine ⟨fun r a b ofs s i pa hi hx => ?_, ?_⟩
  · have hexec : exec i s = conclude s (loadAbsolute r pa s) := by
      simp only [List.mem_cons, List.not_mem_nil, or_false] at hi
      rcases hi with hi | hi <;> cases hi <;> rfl
    rw [hexec]
    refine ⟨fun halign hmem => ?_, fun halign hio => ?_, fun hmis => ?_⟩
    · have hfits : pa.toNat + widthBytes .word ≤ 0xF0000000 := by
        rw [widthBytes]
        omega
      rw [loadAbsolute_read hx halign (physRead_memory s hfits), conclude_done]
    · rw [loadAbsolute_read hx halign (physRead_io s hio)]
      rfl
    · rw [loadAbsolute_misaligned hx hmis, conclude_trap]
  · intro r b ofs s pa hpa hx
    obtain rfl : pa = absoluteOffset b ofs s := hpa
    refine ⟨fun halign hmem => ?_, fun halign hio => ?_, exec_stwa_misaligned hx⟩
    · have hfits : (absoluteOffset b ofs s).toNat + widthBytes .word ≤ 0xF0000000 := by
        rw [widthBytes]
        omega
      obtain ⟨u, hu, hnext⟩ := exec_stwa_aligned (r := r) hx halign
      obtain ⟨hread, houtside, htrace⟩ := physWrite_memory_effect hu hfits
      have hafter := physWrite_word_afterWrite halign hu
      exact ⟨u.retire, hnext, hread, houtside, hafter.gr, { hafter.control with }, { hafter.inputs with }, hafter.draws,
        htrace, congrArg (· + 4#32) hafter.iaOfs, hafter.resv, hafter.needsFlush, hafter.needsPurge⟩
    · obtain ⟨u, hu, hnext⟩ := exec_stwa_aligned (r := r) hx halign
      obtain ⟨hsame, htrace⟩ := physWrite_io_effect hu hio
      have hafter := physWrite_word_afterWrite halign hu
      exact ⟨u.retire, hnext, hsame, hafter.gr, { hafter.control with }, { hafter.inputs with }, hafter.draws,
        congrArg (· + 4#32) hafter.iaOfs, htrace, hafter.resv, hafter.needsFlush, hafter.needsPurge⟩

end Sys2Proof.Proofs
end

section
/-! SUPPORT. The immediate instructions (41_immediate.md R201 to R205): the pattern of a left aligned immediate, what LDIL,
ADDIL and LDO do, and the two halves of a word that a pair loads, with obligations O19 and O20. -/

namespace Sys2Proof.Proofs

open Sys2Proof Sys2Proof.Machine Sys2Proof.Laws

/-! ### The three instructions -/

/-- A left aligned immediate is the field over ten zeros. -/
theorem leftImmediate_eq_append (val : BitVec 22) : leftImmediate val = val ++ 0#10 := by
  apply BitVec.eq_of_toNat_eq
  rw [toNat_leftImmediate, toNat_append_eq, BitVec.toNat_ofNat]
  omega

theorem exec_ldil (r : GReg) (val : BitVec 22) (s : State) :
    exec (.ldil r val) s = .next (s.setGR r (leftImmediate val)).retire := rfl

theorem exec_addil (r : GReg) (val : BitVec 22) (s : State) :
    exec (.addil r val) s = .next (s.setGR r (s.getGR r + leftImmediate val)).retire := rfl

/-- LDO in a mode it has puts the effective offset into GR[r]. -/
theorem exec_ldo_done {r : GReg} {opd : Operand} {s : State} {v : Word} (h : effectiveOffset opd s = .done v) :
    exec (.ldo r opd) s = .next (s.setGR r v).retire := by
  rw [exec, execLdo, h, bind_done_left, conclude_done]

theorem exec_ldo_imm (r : GReg) (val : BitVec 14) (s : State) :
    exec (.ldo r (.imm val)) s = .next (s.setGR r (lseWord val)).retire :=
  exec_ldo_done (effectiveOffset_done.mpr (.inl ⟨val, rfl, rfl⟩))

theorem exec_ldo_indexed (r : GReg) (w : Width) (base : BitVec 3) (seg : BitVec 2) (ofs : BitVec 12) (s : State) :
    exec (.ldo r (.indexed w base seg ofs)) s = .next (s.setGR r (indexedOffset base ofs s)).retire :=
  exec_ldo_done (effectiveOffset_done.mpr (.inr ⟨w, base, seg, ofs, rfl, rfl⟩))

/-- Settles O19: the equations of the three instructions, with the immediate written as the field over ten zeros. -/
theorem immediateResult : Obligations.ImmediateResult := by
  intro r val val' w base seg ofs s
  rw [← leftImmediate_eq_append]
  exact ⟨exec_ldil r val s, exec_addil r val s, exec_ldo_imm r val' s, exec_ldo_indexed r w base seg ofs s⟩

/-! ### The pair LDIL, LDO (R202) -/

/-- A field whose rightmost bit is 0 has the value of its left bits. -/
theorem lse_append_zero {n : Nat} (x : BitVec n) : lse (x ++ 0#1) = (x.toNat : Int) := by
  have hleft : (x ++ 0#1).extractLsb' 1 n = x := BitVec.extractLsb'_append_eq_left
  have hsign : ((x ++ 0#1).extractLsb' 0 1).toNat = 0 := by
    rw [toNat_signBit, toNat_append_eq]
    exact Nat.mul_mod_left x.toNat 2
  rw [lse_eq_leftBits_sub_signBit, hleft, hsign]
  omega

/-- `R%val` as the offset field of LDO: 0, its ten bits, and the sign bit 0. -/
def rightOffset (v : Word) : BitVec 12 := 0#1 ++ v.extractLsb' 0 10 ++ 0#1

/-- The offset field of `R%val` is extended to `val & 0x3FF`. -/
theorem toNat_lseWord_rightOffset (v : Word) : (lseWord (rightOffset v)).toNat = v.toNat % 1024 := by
  have hlse : lse (rightOffset v) = ((0#1 ++ v.extractLsb' 0 10).toNat : Int) := lse_append_zero _
  rw [lseWord, hlse, BitVec.ofInt_natCast, BitVec.toNat_ofNat, toNat_append_eq, BitVec.toNat_ofNat,
    BitVec.extractLsb'_toNat, Nat.shiftRight_zero]
  omega

/-- `L%val` left aligned plus `R%val` is `val`: quotient and remainder by 1024. -/
theorem leftImmediate_add_rightOffset (v : Word) :
    leftImmediate (v.extractLsb' 10 22) + lseWord (rightOffset v) = v := by
  have hv := v.isLt
  apply BitVec.eq_of_toNat_eq
  rw [BitVec.toNat_add, toNat_leftImmediate, toNat_lseWord_rightOffset, BitVec.extractLsb'_toNat,
    Nat.shiftRight_eq_div_pow]
  omega

/-- After LDIL with `L%val` into its index register, LDO with `R%val` adds up to `val`. -/
theorem indexedOffset_after_ldil (v : Word) (base : BitVec 3) (s : State) :
    indexedOffset base (rightOffset v) (s.setGR (indexReg base) (leftImmediate (v.extractLsb' 10 22))).retire = v := by
  rw [indexedOffset, getGR_retire, getGR_setGR, if_pos rfl, leftImmediate_add_rightOffset]

/-- Settles O20: LDO adds its half to the half that LDIL left in the index register; the words of the example are
decoded by evaluation. -/
theorem ldilLdoPair : Obligations.LdilLdoPair := by
  refine ⟨fun v r base seg s => ?_, by decide, by decide, fun s t h => ?_⟩
  · have hldo := exec_ldo_indexed r .word base seg (rightOffset v)
      (s.setGR (indexReg base) (leftImmediate (v.extractLsb' 10 22))).retire
    rw [indexedOffset_after_ldil] at hldo
    refine ⟨_, _, exec_ldil (indexReg base) (v.extractLsb' 10 22) s, hldo, ?_, fun q hr (hbase : q ≠ indexReg base) => ?_⟩
    · rw [getGR_retire, getGR_setGR, if_pos rfl]
    · rw [getGR_retire, getGR_setGR, if_neg hr, getGR_retire, getGR_setGR, if_neg hbase]
  · cases h
    rw [getGR_retire, getGR_setGR, if_pos rfl]
    decide

end Sys2Proof.Proofs
end

section
/-! SUPPORT. The branch instructions (42_branch.md R211 to R228): what setting a target does to the IA, the table of
the register test, the level that GATE leaves, and obligations O21 to O25. -/

namespace Sys2Proof.Proofs

open Sys2Proof Sys2Proof.Machine Sys2Proof.Laws

/-! ### Branch targets (10_state.md R29, 42_branch.md R211) -/

/-- Dropping the two low bits is a shift out and back. -/
theorem dropLow2_eq_shift (t : Word) : dropLow2 t = t >>> 2 <<< 2 := by
  have ht := t.isLt
  apply BitVec.eq_of_toNat_eq
  rw [toNat_dropLow2, BitVec.toNat_shiftLeft, BitVec.toNat_ushiftRight, Nat.shiftLeft_eq, Nat.shiftRight_eq_div_pow]
  omega

/-- A word count as a distance in bytes. -/
theorem shiftLeft_two_eq_mul (v : Word) : v <<< 2 = 4#32 * v := by
  rw [BitVec.shiftLeft_eq_mul_twoPow, BitVec.mul_comm]
  rfl

theorem dropLow2_of_wordAligned {t : Word} (h : wordAligned t = true) : dropLow2 t = t :=
  of_decide_eq_true h

/-- A target that is a word count away from a word address is one. -/
theorem wordAligned_add_four_mul {pc : Word} (v : Word) (h : wordAligned pc = true) :
    wordAligned (pc + 4#32 * v) = true := by
  rw [wordAligned_iff] at h ⊢
  rw [BitVec.toNat_add, BitVec.toNat_mul, BitVec.toNat_ofNat]
  omega

/-- A target in a register loses its two low bits. -/
theorem setPc_eq_shift (s : State) (t : Word) : s.setPc t = { s with iaOfs := t >>> 2 <<< 2 } := by
  rw [State.setPc, dropLow2_eq_shift]

section
variable {pc : Word} (s : State) (h : wordAligned pc = true)
include h

theorem setPc_add_branchOffset {n : Nat} (ofs : BitVec n) :
    s.setPc (pc + branchOffset ofs) = { s with iaOfs := pc + BitVec.ofInt 32 (4 * lse ofs) } := by
  rw [State.setPc, dropLow2_add_branchOffset ofs h, branchOffset]

theorem setPc_add_wordCount (v : Word) : s.setPc (pc + v <<< 2) = { s with iaOfs := pc + 4#32 * v } := by
  rw [State.setPc, shiftLeft_two_eq_mul, dropLow2_of_wordAligned (wordAligned_add_four_mul v h)]

end

/-! ### Branches within a segment (R216 to R221)

Each sets its target after the link, if there is one. -/

theorem exec_b (ofs : BitVec 22) (s : State) : exec (.b ofs) s = .next (s.setPc (s.iaOfs + branchOffset ofs)) := rfl

theorem exec_bl (r : GReg) (ofs : BitVec 22) (s : State) :
    exec (.bl r ofs) s = .next ((s.setGR r (s.iaOfs + 4#32)).setPc (s.iaOfs + branchOffset ofs)) := rfl

theorem exec_br (b : GReg) (s : State) : exec (.br b) s = .next (s.setPc (s.iaOfs + s.getGR b <<< 2)) := rfl

theorem exec_blr (r b : GReg) (s : State) :
    exec (.blr r b) s = .next ((s.setGR r (s.iaOfs + 4#32)).setPc (s.iaOfs + s.getGR b <<< 2)) := rfl

theorem exec_bv (b : GReg) (s : State) : exec (.bv b) s = .next (s.setPc (s.getGR b)) := rfl

theorem exec_bvr (a b : GReg) (s : State) :
    exec (.bvr a b) s = .next (s.setPc (s.getGR b + s.getGR a <<< 2)) := rfl

/-- Settles O21: relative targets are word addresses because the branch is at one; the others drop their low bits. -/
theorem localBranchResult : Obligations.LocalBranchResult := by
  intro r a b ofs s hpc
  refine ⟨?_, ?_, ?_, ?_, ?_, ?_⟩
  · rw [exec_b, setPc_add_branchOffset s hpc]
  · rw [exec_bl, setPc_add_branchOffset _ hpc]
  · rw [exec_br, setPc_add_wordCount s hpc]
  · rw [exec_blr, setPc_add_wordCount _ hpc]
  · rw [exec_bv, setPc_eq_shift]
  · rw [exec_bvr, shiftLeft_two_eq_mul, setPc_eq_shift]

/-! ### External branches (R222, R223) -/

theorem exec_be (ofs : BitVec 18) (a : BitVec 4) (b : GReg) (s : State) :
    exec (.be ofs a b) s =
      .next ({ s with iaSeg := externalSegment a s }.setPc (s.getGR b + branchOffset ofs)) := rfl

theorem exec_ble (ofs : BitVec 18) (a : BitVec 4) (b : GReg) (s : State) :
    exec (.ble ofs a b) s =
      .next ({ (s.setSR 0#3 s.iaSeg).setGR 0#4 (s.iaOfs + 4#32) with iaSeg := externalSegment a s }.setPc
        (s.getGR b + branchOffset ofs)) := rfl

/-- The segment register by the number in the field. -/
theorem externalSegment_eq (a : BitVec 4) (s : State) :
    externalSegment a s = if s.st.c then s.getSR (BitVec.ofNat 3 a.toNat) else s.iaSeg := by
  rw [externalSegment, segReg, BitVec.ofNat_toNat]

/-- Settles O22: segment and offset are computed from the state before the link. -/
theorem externalBranchResult : Obligations.ExternalBranchResult := by
  intro ofs a b s _
  constructor
  · rw [exec_be, setPc_eq_shift, externalSegment_eq, branchOffset]
  · rw [exec_ble, setPc_eq_shift, externalSegment_eq, branchOffset]

/-! ### GATE (R224, R225) -/

theorem exec_gate (r : GReg) (ofs : BitVec 22) (s : State) :
    exec (.gate r ofs) s =
      .next ({ s.setGR r (if s.st.x then 1#32 else 0#32) with st := { s.st with x := gateLevel s } }.setPc
        (s.iaOfs + branchOffset ofs)) := rfl

theorem gateLevel_untranslated {s : State} (hc : s.st.c = false) : gateLevel s = false := by
  simp [gateLevel, hc]

theorem gateLevel_bypassed {s : State} (hc : s.st.c = true) (hseg : s.iaSeg = 0#32) : gateLevel s = s.st.x := by
  simp [gateLevel, hc, hseg, bypassed_zero]

/-- With an entry for the page the level depends on the page's type alone. -/
theorem gateLevel_hit {s : State} {e : TlbEntry} (hc : s.st.c = true) (hseg : s.iaSeg ≠ 0#32)
    (h : tlbLookup s.itlb s.iaSeg s.iaOfs = some e) :
    gateLevel s = if e.prot.type = 3#2 then s.st.x && e.prot.pl1 else s.st.x := by
  simp [gateLevel, hc, bypassed_eq_false hseg, h, gatewayLevel, Config.gateLevelField]

/-- Settles O23: the new level is `gateLevel`, by the three ways the page of the GATE can be mapped. -/
theorem gateResult : Obligations.GateResult := by
  intro r ofs s hpc
  refine ⟨gateLevel s, ?_, gateLevel_untranslated, gateLevel_bypassed,
    fun e hc hseg he => ⟨fun hg => ?_, fun hg => ?_⟩⟩
  · rw [exec_gate, setPc_add_branchOffset _ hpc]
  · rw [gateLevel_hit hc hseg he, if_pos hg]
  · rw [gateLevel_hit hc hseg he, if_neg hg]

/-! ### Conditional branches and moves (R226 to R228, 43_computational.md R253) -/

theorem exec_cbr (cond : CmpCond) (ofs : BitVec 15) (a b : GReg) (s : State) :
    exec (.cbr cond ofs a b) s = .next (branchIf (cmpHolds cond (s.getGR a) (s.getGR b)) ofs s) := rfl

theorem exec_tbr (cond : TestCond) (ofs : BitVec 15) (b : GReg) (s : State) :
    exec (.tbr cond ofs b) s = .next (branchIf (testHolds cond (s.getGR b)) ofs s) := rfl

theorem exec_cmr (r : GReg) (cond : TestCond) (a b : GReg) (s : State) :
    exec (.cmr r cond a b) s =
      .next (if testHolds cond (s.getGR b) then (s.setGR r (s.getGR a)).retire else s.retire) := rfl

/-- Taken or not, a conditional branch changes the IA alone. -/
theorem branchIf_eq {s : State} (taken : Bool) (ofs : BitVec 15) (h : wordAligned s.iaOfs = true) :
    branchIf taken ofs s =
      { s with iaOfs := s.iaOfs + if taken then BitVec.ofInt 32 (4 * lse ofs) else 4#32 } := by
  cases taken
  · rfl
  · exact setPc_add_branchOffset s h ofs

theorem cmpHolds_ne (x y : Word) : cmpHolds .ne x y = (x != y) :=
  decide_not

/-- Settles O24: seven rows of the table are the model's comparisons by definition, NE is the negation of EQ. -/
theorem cbrResult : Obligations.CbrResult := by
  intro cond ofs a b s hpc
  rw [exec_cbr, branchIf_eq _ ofs hpc]
  cases cond
  case ne => rw [cmpHolds_ne]
  case eq | lt | gt | ls | le | ge | hi => rfl

/-! The tests LT, EQ and OD read a register; the other five are made of them. -/

theorem testHolds_eq (v : Word) : testHolds .eq v = (v == 0#32) := rfl

theorem testHolds_lt (v : Word) : testHolds .lt v = v.msb :=
  BitVec.msb_eq_toInt.symm

theorem testHolds_od (v : Word) : testHolds .od v = v.getLsbD 0 :=
  (Nat.testBit_zero v.toNat).symm

theorem testHolds_le (v : Word) : testHolds .le v = (v.msb || v == 0#32) := by
  have hzero : v = 0#32 ↔ v.toInt = 0 := BitVec.toInt_inj.symm
  rw [← testHolds_lt, ← testHolds_eq, Bool.eq_iff_iff, Bool.or_eq_true]
  simp only [testHolds, decide_eq_true_iff, hzero]
  omega

theorem testHolds_ne (v : Word) : testHolds .ne v = (v != 0#32) :=
  decide_not

theorem testHolds_ge (v : Word) : testHolds .ge v = !v.msb := by
  rw [← testHolds_lt, testHolds, testHolds, ← decide_not, decide_eq_decide]
  omega

theorem testHolds_gt (v : Word) : testHolds .gt v = (!v.msb && v != 0#32) := by
  have hle : testHolds .gt v = !testHolds .le v := by
    rw [testHolds, testHolds, ← decide_not, decide_eq_decide]
    omega
  rw [hle, testHolds_le, Bool.not_or, bne]

theorem testHolds_ev (v : Word) : testHolds .ev v = !v.getLsbD 0 := by
  rw [← testHolds_od, testHolds, testHolds, ← decide_not, decide_eq_decide]
  omega

/-- Settles O25: the table is `testHolds`, which decides the branch and the move. -/
theorem tbrCmrResult : Obligations.TbrCmrResult := by
  intro cond ofs r a b s holds hpc hholds
  have htest : testHolds cond (s.getGR b) = holds := by
    rw [hholds]
    cases cond
    case eq => exact testHolds_eq _
    case lt => exact testHolds_lt _
    case gt => exact testHolds_gt _
    case ev => exact testHolds_ev _
    case ne => exact testHolds_ne _
    case le => exact testHolds_le _
    case ge => exact testHolds_ge _
    case od => exact testHolds_od _
  rw [exec_tbr, exec_cmr, htest, branchIf_eq holds ofs hpc]
  exact ⟨rfl, rfl⟩

end Sys2Proof.Proofs
end

section
/-! SUPPORT. The computational instructions (43_computational.md R241 to R270): the operand fetch, sums with their carry
and overflow, the logical operations and bit fields bit by bit, shifts of double words, and obligations O26 to O34. -/

namespace Sys2Proof.Proofs

open Sys2Proof Sys2Proof.Machine Sys2Proof.Laws

/-! ### Operand fetch (R241) -/

section
variable {w : Width} {seg : BitVec 2} {s t : State} {pa v : Word}

theorem fetchOperand_regIdx_done {a b : GReg} (r : GReg)
    (haddr : dataAddress false w seg (regIdxOffset a b s) s = .done pa) (hread : physRead pa w s = .done (v, t)) :
    fetchOperand r (.regIdx w seg a b) s = .done (s.getGR r, v, t) := by
  rw [fetchOperand, memRead_done.mpr ⟨pa, haddr, hread⟩, bind_done_left]

theorem fetchOperand_indexed_done {base : BitVec 3} {ofs : BitVec 12} (r : GReg)
    (haddr : dataAddress false w seg (indexedOffset base ofs s) s = .done pa) (hread : physRead pa w s = .done (v, t)) :
    fetchOperand r (.indexed w base seg ofs) s = .done (s.getGR r, v, t) := by
  rw [fetchOperand, memRead_done.mpr ⟨pa, haddr, hread⟩, bind_done_left]

end

/-- Settles O26: the three modes without memory are equations; the others answer what the read at their address does,
from memory or from the environment. -/
theorem operandFetch : Obligations.OperandFetch := by
  intro r val a b w seg base ofs s
  refine ⟨rfl, rfl, rfl, fun opd x pa hmode haddr => ?_⟩
  have hfetch {v : Word} {t : State} (hread : physRead pa w s = .done (v, t)) :
      fetchOperand r opd s = .done (s.getGR r, v, t) := by
    simp only [List.mem_cons, List.not_mem_nil, or_false] at hmode
    rcases hmode with hmode | hmode <;> cases hmode
    · exact fetchOperand_regIdx_done r haddr hread
    · exact fetchOperand_indexed_done r haddr hread
  exact ⟨fun hmem => hfetch (physRead_memory s hmem),
    fun hio => ⟨_, toNat_lowBytes w _, hfetch (physRead_io s hio)⟩⟩

/-! ### Sums: carry and overflow (R243 to R246) -/

/-- An instruction that ends in the test for overflow traps iff it has O and its result overflows. -/
theorem conclude_overflow {out : Host.Outcome State Fault Refusal} {o ovf : Bool} {p : Trap} {s u : State}
    (h : out = conclude s (if o && ovf then .trap p else .done u)) :
    (o = false ∨ ovf = false → out = .next u) ∧ (o = true → ovf = true → out = takeTrap p s) := by
  subst h
  constructor
  · rintro (rfl | rfl)
    · rfl
    · rw [Bool.and_false]
      rfl
  · rintro rfl rfl
    rfl

/-- The carry written by a sum whose operand fetch left ST as it was. -/
theorem setCarry_retire {s t : State} (h : SameButEnv s t) (l cb : Bool) (r : GReg) (v : Word) :
    (setCarry l cb (t.setGR r v)).retire =
      { (t.setGR r v).retire with st := { s.st with cb := if l then s.st.cb else cb } } := by
  obtain ⟨d, e, rfl⟩ := sameButEnv_iff.mp h
  cases l <;> rfl

theorem carryIn_eq (c : Bool) (s : State) : carryIn c s = if c = true ∧ s.st.cb = true then 1 else 0 := by
  simp only [carryIn, Bool.and_eq_true]

theorem outsideSigned_eq (x : Int) : outsideSigned x = decide (¬(-2 ^ 31 ≤ x ∧ x < 2 ^ 31)) := by
  rw [Bool.eq_iff_iff, outsideSigned_iff, decide_eq_true_iff]
  omega

theorem outsideUnsigned_natCast (n : Nat) : outsideUnsigned n = decide (2 ^ 32 ≤ n) := by
  rw [Bool.eq_iff_iff, outsideUnsigned_iff, decide_eq_true_iff]
  omega

section
variable {r : GReg} {c l o : Bool} {opd : Operand} {s t : State} {x y : Word}

theorem exec_add_done (h : fetchOperand r opd s = .done (x, y, t)) :
    exec (.add r c l o opd) s = conclude s
      (if o && addOverflow l x y (carryIn c s) then .trap (instrTrap .overflow s)
        else .done (setCarry l (addCarry x y (carryIn c s))
          (t.setGR r (BitVec.ofInt 32 (addUnsigned x y (carryIn c s))))).retire) := by
  rw [exec, execAdd, h, bind_done_left]

theorem exec_sub_done (h : fetchOperand r opd s = .done (x, y, t)) :
    exec (.sub r c l o opd) s = conclude s
      (if o && subOverflow l x y (carryIn c s) then .trap (instrTrap .overflow s)
        else .done (setCarry l (subCarry x y (carryIn c s))
          (t.setGR r (BitVec.ofInt 32 (subUnsigned x y (carryIn c s))))).retire) := by
  rw [exec, execSub, h, bind_done_left]

end

/-! ### ADD (R243) -/

/-- The sum in 33 bits, which is exact with a carry input of 0 or 1. -/
def wideSum (x y : Word) (cin : Nat) : BitVec 33 := x.setWidth 33 + y.setWidth 33 + BitVec.ofNat 33 cin

section
variable (x y : Word) {cin : Nat} (hcin : cin ≤ 1)
include hcin

theorem toNat_wideSum : (wideSum x y cin).toNat = x.toNat + y.toNat + cin := by
  have hx := x.isLt
  have hy := y.isLt
  rw [wideSum, BitVec.toNat_add, BitVec.toNat_add, BitVec.toNat_setWidth, BitVec.toNat_setWidth, BitVec.toNat_ofNat]
  omega

theorem ofInt_addUnsigned : BitVec.ofInt 32 (addUnsigned x y cin) = (wideSum x y cin).setWidth 32 := by
  have hcast : addUnsigned x y cin = ((x.toNat + y.toNat + cin : Nat) : Int) := by
    rw [addUnsigned]
    push_cast
    rfl
  rw [hcast, ← toNat_wideSum x y hcin, BitVec.ofInt_natCast, BitVec.ofNat_toNat]

/-- The leftmost of the 33 bits says that the sum needs it. -/
theorem msb_wideSum : (wideSum x y cin).msb = decide (2 ^ 32 ≤ x.toNat + y.toNat + cin) := by
  rw [BitVec.msb_eq_decide, toNat_wideSum x y hcin]

theorem addCarry_eq_msb : addCarry x y cin = (wideSum x y cin).msb := by
  rw [msb_wideSum x y hcin]
  exact Bool.eq_iff_iff.mpr ((addCarry_iff x y cin).trans decide_eq_true_iff.symm)

theorem addOverflow_eq (l : Bool) :
    addOverflow l x y cin = if l then (wideSum x y cin).msb
      else decide (x.toInt + y.toInt + cin < -2 ^ 31 ∨ 2 ^ 31 ≤ x.toInt + y.toInt + cin) := by
  cases l with
  | false => exact Bool.eq_iff_iff.mpr ((addOverflow_signed x y cin).trans decide_eq_true_iff.symm)
  | true =>
    rw [if_pos rfl, msb_wideSum x y hcin]
    exact Bool.eq_iff_iff.mpr ((addOverflow_unsigned x y cin).trans decide_eq_true_iff.symm)

end

/-- Settles O27: the exact sum of the model is the 33-bit sum, the carry and the unsigned overflow its leftmost bit. -/
theorem addResult : Obligations.AddResult := by
  intro r c l o opd s t x y cin sum ovf hfetch hcin hsum hovf
  rw [← carryIn_eq] at hcin
  subst hcin
  have hle := carryIn_le_one c s
  obtain rfl : sum = wideSum x y (carryIn c s) := hsum
  rw [← addOverflow_eq x y hle] at hovf
  have hexec := exec_add_done (c := c) (l := l) (o := o) hfetch
  rw [← hovf, setCarry_retire (fetchOperand_sameButEnv hfetch), addCarry_eq_msb x y hle, ofInt_addUnsigned x y hle]
    at hexec
  exact conclude_overflow hexec

/-! ### SUB (R245, R246) -/

theorem ofInt_subUnsigned (x y : Word) (cin : Nat) :
    BitVec.ofInt 32 (subUnsigned x y cin) = x - y + BitVec.ofNat 32 cin := by
  have hword (v : Word) : BitVec.ofInt 32 (v.toNat : Int) = v := by
    rw [BitVec.ofInt_natCast, BitVec.ofNat_toNat, BitVec.setWidth_eq]
  rw [subUnsigned, Int.sub_eq_add_neg, BitVec.ofInt_add, BitVec.ofInt_add, BitVec.ofInt_neg, hword, hword,
    BitVec.ofInt_natCast, ← BitVec.sub_eq_add_neg]

theorem subCarry_eq (x y : Word) (cin : Nat) :
    subCarry x y cin = decide (x.toNat + cin < y.toNat ∨ y.toNat + 2 ^ 32 ≤ x.toNat + cin) :=
  Bool.eq_iff_iff.mpr ((subCarry_iff x y cin).trans decide_eq_true_iff.symm)

theorem subOverflow_eq (l : Bool) (x y : Word) (cin : Nat) :
    subOverflow l x y cin = if l then decide (x.toNat + cin < y.toNat ∨ y.toNat + 2 ^ 32 ≤ x.toNat + cin)
      else decide (x.toInt - y.toInt + cin < -2 ^ 31 ∨ 2 ^ 31 ≤ x.toInt - y.toInt + cin) := by
  cases l with
  | false => exact Bool.eq_iff_iff.mpr ((subOverflow_signed x y cin).trans decide_eq_true_iff.symm)
  | true => exact Bool.eq_iff_iff.mpr ((subOverflow_unsigned x y cin).trans decide_eq_true_iff.symm)

/-- Settles O28: the borrow and both overflows are comparisons of the exact difference with the range. -/
theorem subResult : Obligations.SubResult := by
  intro r c l o opd s t x y cin borrow ovf hfetch hcin hborrow hovf
  rw [← carryIn_eq] at hcin
  subst hcin
  rw [hborrow, ← subOverflow_eq] at hovf
  have hexec := exec_sub_done (c := c) (l := l) (o := o) hfetch
  rw [← hovf, setCarry_retire (fetchOperand_sameButEnv hfetch), subCarry_eq, ← hborrow, ofInt_subUnsigned] at hexec
  exact conclude_overflow hexec

/-! ### AND, OR, XOR and CMP (R248 to R252) -/

theorem getLsbD_complementIf (c : Bool) (v : Word) {k : Nat} (hk : k < 32) :
    (complementIf c v).getLsbD k = xor c (v.getLsbD k) := by
  cases c with
  | false => exact (Bool.false_xor _).symm
  | true => rw [complementIf, if_pos rfl, BitVec.getLsbD_not, decide_eq_true hk, Bool.true_and, Bool.true_xor]

/-- A logical operation that works bit by bit gives its result bit by bit under both options. -/
theorem conclude_logical {wordOp : Word → Word → Word} {op : Bool → Bool → Bool}
    (hop : ∀ (x y : Word) (k : Nat), (wordOp x y).getLsbD k = op (x.getLsbD k) (y.getLsbD k))
    {r : GReg} {opd : Operand} {s t : State} {x y : Word} (n c : Bool) (h : fetchOperand r opd s = .done (x, y, t)) :
    ∃ v : Word, conclude s (logical wordOp r n c opd s) = .next (t.setGR r v).retire ∧
      ∀ k : Nat, k < 32 → v.getLsbD k = xor n (op (x.getLsbD k) (xor c (y.getLsbD k))) := by
  refine ⟨_, congrArg (conclude s) (logical_done.mpr ⟨x, y, t, h, rfl⟩), fun k hk => ?_⟩
  rw [getLsbD_complementIf n _ hk, hop, getLsbD_complementIf c y hk]

/-- Settles O29: each of the three operations works bit by bit. -/
theorem logicalResult : Obligations.LogicalResult := by
  intro r n c opd s t x y i op hfetch hi
  simp only [List.mem_cons, List.not_mem_nil, or_false] at hi
  rcases hi with hi | hi | hi <;> cases hi
  · exact conclude_logical (fun _ _ _ => BitVec.getLsbD_and) n c hfetch
  · exact conclude_logical (fun _ _ _ => BitVec.getLsbD_or) n c hfetch
  · exact conclude_logical (fun _ _ _ => BitVec.getLsbD_xor) n c hfetch

theorem exec_cmp_done {r : GReg} {cond : CmpCond} {opd : Operand} {s t : State} {x y : Word}
    (h : fetchOperand r opd s = .done (x, y, t)) :
    exec (.cmp r cond opd) s = .next (t.setGR r (boolWord (cmpHolds cond x y))).retire := by
  rw [exec, execCmp, h, bind_done_left, conclude_done]

/-- Settles O30: seven rows of the table are the model's comparisons by definition, NE is the negation of EQ. -/
theorem cmpResult : Obligations.CmpResult := by
  intro r cond opd s t x y hfetch
  rw [exec_cmp_done hfetch, boolWord]
  cases cond
  case ne => rw [cmpHolds_ne]
  case eq | lt | gt | ls | le | ge | hi => rfl

/-! ### Bit fields (R256 to R260) -/

/-- SHAMT is the low five bits of CR2 (10_state.md R41). -/
theorem toNat_shamt (s : State) : (shamt s).toNat = (s.getCR 2#5).toNat % 32 := BitVec.toNat_setWidth _ _

theorem fieldPosition_eq (a : Bool) (pos : BitVec 5) (s : State) :
    fieldPosition a pos s = if a then (s.getCR 2#5).toNat % 32 else pos.toNat := by
  rw [fieldPosition, toNat_shamt]

theorem fieldFits_iff {p : Nat} {len : BitVec 5} : fieldFits p len.toNat = true ↔ len ≠ 0#5 ∧ p + len.toNat ≤ 32 := by
  rw [fieldFits, Bool.and_eq_true, decide_eq_true_iff, decide_eq_true_iff, ← BitVec.toNat_ne_iff_ne]
  rfl

theorem fieldFits_eq_false_iff {p : Nat} {len : BitVec 5} :
    fieldFits p len.toNat = false ↔ len = 0#5 ∨ 32 < p + len.toNat := by
  rw [← Bool.not_eq_true, fieldFits_iff, not_and_or, not_not, Nat.not_le]

/-- Bit `k` of a field moved to the right end. -/
theorem getLsbD_shifted_lowMask (p len : Nat) (v : Word) {k : Nat} (hk : k < 32) :
    ((v >>> p) &&& lowMask len).getLsbD k = (v.getLsbD (p + k) && decide (k < len)) := by
  rw [BitVec.getLsbD_and, BitVec.getLsbD_ushiftRight, lowMask_bit len k hk]

/-- The ones above a field of `len` bits. -/
theorem getLsbD_onesAbove (len : Nat) {k : Nat} (hk : k < 32) :
    (0xFFFFFFFF#32 <<< len).getLsbD k = decide (len ≤ k) := by
  have hones : (0xFFFFFFFF#32).getLsbD (k - len) = true :=
    (BitVec.getLsbD_allOnes (v := 32)).trans (decide_eq_true (by omega))
  rw [BitVec.getLsbD_shiftLeft, hones, decide_eq_true hk, Bool.true_and, Bool.and_true, ← decide_not, decide_eq_decide]
  omega

theorem getLsbD_extractField (sx : Bool) {p len : Nat} (v : Word) (hlen : len ≠ 0) (hfits : p + len ≤ 32) {k : Nat}
    (hk : k < 32) :
    (extractField sx p len v).getLsbD k = if k < len then v.getLsbD (p + k) else sx && v.getLsbD (p + len - 1) := by
  have hsign : ((v >>> p) &&& lowMask len).getLsbD (len - 1) = v.getLsbD (p + len - 1) := by
    rw [getLsbD_shifted_lowMask p len v (by omega), decide_eq_true (by omega), Bool.and_true,
      Nat.add_sub_assoc (by omega)]
  rw [extractField, hsign]
  cases hext : sx && v.getLsbD (p + len - 1) with
  | false =>
    rw [if_neg Bool.false_ne_true, getLsbD_shifted_lowMask p len v hk]
    by_cases hin : k < len
    · rw [decide_eq_true hin, Bool.and_true, if_pos hin]
    · rw [decide_eq_false hin, Bool.and_false, if_neg hin]
  | true =>
    rw [if_pos rfl, BitVec.getLsbD_or, getLsbD_shifted_lowMask p len v hk, getLsbD_onesAbove len hk]
    by_cases hin : k < len
    · rw [decide_eq_true hin, decide_eq_false (Nat.not_le.mpr hin), Bool.and_true, Bool.or_false, if_pos hin]
    · rw [decide_eq_true (Nat.not_lt.mp hin), Bool.or_true, if_neg hin]

/-- The mask of a field with `p` bits to its right. -/
theorem getLsbD_fieldMask (p len : Nat) {k : Nat} (hk : k < 32) :
    (lowMask len <<< p).getLsbD k = decide (p ≤ k ∧ k < p + len) := by
  rw [BitVec.getLsbD_shiftLeft, lowMask_bit len _ (by omega), Bool.eq_iff_iff]
  simp only [Bool.and_eq_true, Bool.not_eq_true', decide_eq_true_iff, decide_eq_false_iff_not]
  omega

theorem getLsbD_depositField (p len : Nat) (old src : Word) {k : Nat} (hk : k < 32) :
    (depositField p len old src).getLsbD k =
      if p ≤ k ∧ k < p + len then src.getLsbD (k - p) else old.getLsbD k := by
  rw [depositField, BitVec.getLsbD_or, BitVec.getLsbD_and, BitVec.getLsbD_and, BitVec.getLsbD_not,
    getLsbD_fieldMask p len hk]
  by_cases hin : p ≤ k ∧ k < p + len
  · rw [BitVec.getLsbD_shiftLeft, decide_eq_false (Nat.not_lt.mpr hin.1)]
    simp [hin, hk]
  · simp [hin, hk]

/-- The immediate of DEP has zeros to the left of its four bits. -/
theorem getLsbD_depSource (i : Bool) (b : GReg) (s : State) {k : Nat} (hk : k < 32) :
    (depSource i b s).getLsbD k = if i then b.getLsbD k else (s.getGR b).getLsbD k := by
  cases i with
  | false => rfl
  | true => rw [depSource, if_pos rfl, if_pos rfl, BitVec.getLsbD_setWidth, decide_eq_true hk, Bool.true_and]

/-- Settles O31: both write their value because the field fits; the bits are those of the extracted field and of the
register with the field replaced. -/
theorem bitFieldResult : Obligations.BitFieldResult := by
  intro r sx z a i len pos b s p hp hlen hfits
  rw [← fieldPosition_eq] at hp
  subst hp
  have hwrite (v : Word) : writeFieldResult (fieldFits (fieldPosition a pos s) len.toNat) r v s =
      .done (s.setGR r v).retire := writeFieldResult_done.mpr ⟨fieldFits_iff.mpr ⟨hlen, hfits⟩, rfl⟩
  refine ⟨⟨_, congrArg (conclude s) (hwrite _), fun k hk => ?_⟩, ⟨_, congrArg (conclude s) (hwrite _), fun k hk => ?_⟩⟩
  · exact getLsbD_extractField sx (s.getGR b) (fun h => hlen (BitVec.eq_of_toNat_eq h)) hfits hk
  · rw [getLsbD_depositField _ _ _ _ hk, getLsbD_depSource i b s (by omega)]
    cases z <;> simp

/-- Settles O32: a field that does not fit is all that the refusal of both depends on. -/
theorem unfitFieldRefused : Obligations.UnfitFieldRefused := by
  intro r o1 a o2 len pos b s p hp hunfit i hi
  rw [← fieldPosition_eq] at hp
  subst hp
  have hrefuse (v : Word) : writeFieldResult (fieldFits (fieldPosition a pos s) len.toNat) r v s = .refuse .bitField :=
    writeFieldResult_refuse.mpr ⟨fieldFits_eq_false_iff.mpr hunfit, rfl⟩
  simp only [List.mem_cons, List.not_mem_nil, or_false] at hi
  rcases hi with rfl | rfl
  · rw [exec, execExtr, hrefuse, conclude_refuse]
  · rw [exec, execDep, hrefuse, conclude_refuse]

/-! ### DSR and LSID (R264 to R270) -/

/-- The shift amount of DSR is chosen as the position of a field is. -/
theorem toNat_shiftAmount (a : Bool) (sa : BitVec 5) (s : State) :
    (if a then shamt s else sa).toNat = if a then (s.getCR 2#5).toNat % 32 else sa.toNat := by
  rw [apply_ite BitVec.toNat, toNat_shamt]

theorem doubleShift_eq (n : BitVec 5) (b a : Word) :
    doubleShift n b a = BitVec.ofNat 32 ((b.toNat * 2 ^ 32 + a.toNat) / 2 ^ n.toNat) := by
  apply BitVec.eq_of_toNat_eq
  exact (toNat_doubleShift n b a).trans (BitVec.toNat_ofNat _ 32).symm

theorem segSelect_eq (x : Word) : segSelect x = BitVec.ofNat 3 (4 + x.toNat / 2 ^ 30) := by
  have hx := x.isLt
  apply BitVec.eq_of_toNat_eq
  rw [toNat_segSelect, BitVec.toNat_ofNat]
  omega

/-- Settles O33: the shift and the selection on numbers. -/
theorem dsrLsidResult : Obligations.DsrLsidResult := by
  intro r a sa ra rb s n hn
  rw [← toNat_shiftAmount] at hn
  rw [hn, ← doubleShift_eq, ← segSelect_eq]
  exact ⟨rfl, rfl⟩

/-! ### SHLA (R268) -/

theorem shlaShift_eq (a : Word) (sa : BitVec 2) : shlaShift a sa = BitVec.ofNat 32 (a.toNat * 2 ^ sa.toNat) := by
  apply BitVec.eq_of_toNat_eq
  rw [shlaShift, BitVec.toNat_shiftLeft, Nat.shiftLeft_eq, BitVec.toNat_ofNat]

/-- The overflow of the shift or of the addition, on numbers. -/
theorem shlaOverflow_eq (l : Bool) (a b : Word) (sa : BitVec 2) :
    shlaOverflow l a b sa =
      if l then decide (2 ^ 32 ≤ a.toNat * 2 ^ sa.toNat ∨ 2 ^ 32 ≤ (shlaShift a sa).toNat + b.toNat)
      else decide (¬(-2 ^ 31 ≤ a.toInt * 2 ^ sa.toNat ∧ a.toInt * 2 ^ sa.toNat < 2 ^ 31) ∨
        ¬(-2 ^ 31 ≤ (shlaShift a sa).toInt + b.toInt ∧ (shlaShift a sa).toInt + b.toInt < 2 ^ 31)) := by
  rw [shlaOverflow, addUnsigned, addSigned, Nat.cast_zero, add_zero, add_zero]
  congr 1
  · rw [Bool.decide_or, ← outsideUnsigned_natCast, ← outsideUnsigned_natCast]
    push_cast
    rfl
  · rw [Bool.decide_or, outsideSigned_eq, outsideSigned_eq]

/-- Settles O34: the shift is the product modulo `2^32`, and the test is of the exact product and the exact sum. -/
theorem shlaResult : Obligations.ShlaResult := by
  intro r z l o sa a b s tb sh ovf htb hsh hovf
  obtain rfl : tb = shlaAddend z b s := htb
  rw [← shlaShift_eq] at hsh
  subst hsh
  rw [← shlaOverflow_eq] at hovf
  subst hovf
  exact conclude_overflow rfl

end Sys2Proof.Proofs
end

section
/-! SUPPORT. The system control instructions on registers and status (44_system_control.md R280 to R283, R296 to R299):
the control registers as MR reads and writes them, the six status bits of MST, RFI, BRK and DIAG, and obligations O35,
O36, O41 and O42. -/

namespace Sys2Proof.Proofs

open Sys2Proof Sys2Proof.Machine Sys2Proof.Laws

/-! ### The control registers of MR (10_state.md R39, R41) -/

theorem readCR_swr (s : State) :
    readCR 0#5 s = (Config.switches s.draws,
      { s with draws := s.draws + 1, envTrace := .swrRead (Config.switches s.draws) :: s.envTrace }) := rfl

theorem readCR_stored {n : CReg} (s : State) (h : n ≠ 0#5) : readCR n s = (s.getCR n, s) := if_neg h

theorem writeCR_swr (v : Word) (s : State) : writeCR 0#5 v s = { s with envTrace := .swrWrite v :: s.envTrace } := rfl

/-- CR2 keeps the value modulo 32. -/
theorem writeCR_shamt (v : Word) (s : State) : writeCR 2#5 v s = s.setCR 2#5 (BitVec.ofNat 32 (v.toNat % 32)) := by
  have hfive : v &&& 0x1F#32 = BitVec.ofNat 32 (v.toNat % 32) := by
    apply BitVec.eq_of_toNat_eq
    rw [BitVec.toNat_and, BitVec.toNat_ofNat (v.toNat % 32) 32, Nat.mod_eq_of_lt (by omega)]
    exact Nat.and_two_pow_sub_one_eq_mod v.toNat 5
  rw [← hfive]
  rfl

theorem writeCR_stored {n : CReg} (v : Word) (s : State) (hswr : n ≠ 0#5) (hshamt : n ≠ 2#5) :
    writeCR n v s = s.setCR n v := by
  rw [writeCR, if_neg hswr, if_neg hshamt]

/-! ### MR (R280, R281) -/

/-- The register that MR's field names is that of its own number. -/
theorem specialCR_eq_ofNat (x : BitVec 6) : specialCR x = BitVec.ofNat 5 x.toNat := (BitVec.ofNat_toNat 5 x).symm

theorem specialSR_eq_ofNat (x : BitVec 6) : specialSR x = BitVec.ofNat 3 x.toNat := (BitVec.ofNat_toNat 3 x).symm

theorem specialCR_of_toNat {x : BitVec 6} {n : Nat} (h : x.toNat = n) : specialCR x = BitVec.ofNat 5 n := by
  rw [specialCR_eq_ofNat, h]

/-- Different numbers below 32 are different control registers. -/
theorem specialCR_ne {x : BitVec 6} {n : Nat} (hx : x.toNat < 32) (hn : n < 32) (h : x.toNat ≠ n) :
    specialCR x ≠ BitVec.ofNat 5 n := by
  rw [specialCR_eq_ofNat, Ne, ← BitVec.toNat_inj, BitVec.toNat_ofNat, BitVec.toNat_ofNat]
  omega

/-- Every control register but CR2 is a privileged target. -/
theorem privilegedTarget_cr (x : BitVec 6) : privilegedTarget true x = decide (specialCR x ≠ 2#5) := by
  rw [privilegedTarget, if_pos rfl, Config.privCrWrite, decide_eq_decide, Ne, Ne, ← BitVec.toNat_inj]
  rfl

/-- Of the segment registers SR4 to SR7 are. -/
theorem privilegedTarget_sr (x : BitVec 6) : privilegedTarget false x = decide (4 ≤ (specialSR x).toNat) := rfl

theorem privilegedTarget_sr_of_lt {x : BitVec 6} (h : x.toNat < 8) :
    privilegedTarget false x = decide (4 ≤ x.toNat) := by
  rw [privilegedTarget_sr, specialSR_eq_ofNat, BitVec.toNat_ofNat, Nat.mod_eq_of_lt h]

section
variable {x : BitVec 6} {s : State} (r : GReg) (z : Bool)

theorem exec_mr_toCR (h : (s.st.x && privilegedTarget true x) = false) :
    exec (.mr r z true true x) s = .next (writeCR (specialCR x) (if z then 0#32 else s.getGR r) s).retire :=
  congrArg (conclude s) (moveToSpecial_done.mpr ⟨h, rfl⟩)

theorem exec_mr_toSR (h : (s.st.x && privilegedTarget false x) = false) :
    exec (.mr r z true false x) s = .next (s.setSR (specialSR x) (if z then 0#32 else s.getGR r)).retire :=
  congrArg (conclude s) (moveToSpecial_done.mpr ⟨h, rfl⟩)

theorem exec_mr_privileged {m : Bool} (hx : s.st.x = true) (h : privilegedTarget m x = true) :
    exec (.mr r z true m x) s = takeTrap (instrTrap .privilegedOperation s) s := by
  have hmove : moveToSpecial r z m x s = .trap (instrTrap .privilegedOperation s) := if_pos (by rw [hx, h]; rfl)
  exact congrArg (conclude s) hmove

end

theorem exec_mr_zero (r : GReg) (m : Bool) (x : BitVec 6) (s : State) :
    exec (.mr r true false m x) s = .next (s.setGR r 0#32).retire := rfl

theorem exec_mr_fromSR (r : GReg) (x : BitVec 6) (s : State) :
    exec (.mr r false false false x) s = .next (s.setGR r (s.getSR (specialSR x))).retire := rfl

theorem exec_mr_fromCR (r : GReg) (x : BitVec 6) (s : State) :
    exec (.mr r false false true x) s =
      .next ((readCR (specialCR x) s).2.setGR r (readCR (specialCR x) s).1).retire := rfl

/-- Settles O35: which register the field names, whether its write is privileged, and what CR0 and CR2 do with a value. -/
theorem mrResult : Obligations.MrResult := by
  rintro r z m x s v rfl
  refine ⟨fun h8 hmode => ?_, fun h8 hx h4 => ?_, fun h32 h0 h2 hx => ?_, fun h2 => ?_, fun h0 hx => ?_,
    fun h32 h2 hx => ?_, exec_mr_zero r m x s, fun _ => ?_, fun h32 h0 => ?_, fun h0 => ?_⟩
  · have hallowed : (s.st.x && privilegedTarget false x) = false := by
      rw [privilegedTarget_sr_of_lt h8]
      rcases hmode with hx | h4
      · rw [hx, Bool.false_and]
      · rw [decide_eq_false (by omega), Bool.and_false]
    rw [exec_mr_toSR r z hallowed, specialSR_eq_ofNat]
  · exact exec_mr_privileged r z hx ((privilegedTarget_sr_of_lt h8).trans (decide_eq_true h4))
  · rw [exec_mr_toCR r z (by rw [hx, Bool.false_and]),
      writeCR_stored _ s (specialCR_ne h32 (by decide) h0) (specialCR_ne h32 (by decide) h2), specialCR_eq_ofNat]
  · have hcr := specialCR_of_toNat h2
    have hallowed : (s.st.x && privilegedTarget true x) = false := by
      rw [privilegedTarget_cr, hcr, Bool.and_eq_false_iff]
      exact .inr rfl
    rw [exec_mr_toCR r z hallowed, hcr, writeCR_shamt]
  · rw [exec_mr_toCR r z (by rw [hx, Bool.false_and]), specialCR_of_toNat h0, writeCR_swr]
    rfl
  · refine exec_mr_privileged r z hx ((privilegedTarget_cr x).trans (decide_eq_true ?_))
    exact specialCR_ne h32 (by decide) h2
  · rw [exec_mr_fromSR, specialSR_eq_ofNat]
  · rw [exec_mr_fromCR, readCR_stored s (specialCR_ne h32 (by decide) h0), specialCR_eq_ofNat]
  · rw [exec_mr_fromCR, specialCR_of_toNat h0, readCR_swr]
    rfl

/-! ### MST (R283) -/

/-- Six flags in a row, read bit by bit from the right. -/
theorem getLsbD_sixFlags (a b c d e f : Bool) (i : Fin 6) :
    (BitVec.ofBool a ++ BitVec.ofBool b ++ BitVec.ofBool c ++ BitVec.ofBool d ++ BitVec.ofBool e ++
      BitVec.ofBool f : BitVec 6).getLsbD i = ![f, e, d, c, b, a] i := by
  revert i a b c d e f
  decide

/-- The low six bits of the status word, by the places that O44 gives them. -/
theorem statusMask_eq_append (st : Status) :
    statusMask st = BitVec.ofBool st.u26 ++ BitVec.ofBool st.u27 ++ BitVec.ofBool st.u28 ++ BitVec.ofBool st.p ++
      BitVec.ofBool st.d ++ BitVec.ofBool st.e := by
  obtain ⟨-, -, -, -, -, -, -, h26, h27, h28, hp, hd, he⟩ := statusWordLayout st
  apply BitVec.eq_of_getLsbD_eq
  intro i hi
  have hmask : (statusMask st).getLsbD i = (statusWord st).getLsbD i := by
    rw [statusMask, BitVec.getLsbD_extractLsb', Nat.zero_add, decide_eq_true hi, Bool.true_and]
  rw [hmask, getLsbD_sixFlags st.u26 st.u27 st.u28 st.p st.d st.e ⟨i, hi⟩]
  interval_cases i
  exacts [he, hd, hp, h28, h27, h26]

theorem exec_mst_done {r : GReg} {mode : MstMode} {s : State} {v : BitVec 6} (hx : s.st.x = false)
    (h : mstBits mode s = .done v) :
    exec (.mst r mode) s =
      .next { s.setGR r ((statusMask s.st).setWidth 32) with st := setStatusMask s.st v }.retire := by
  rw [exec, execMst, privileged_of_kernel _ hx, h, bind_done_left, conclude_done]

/-- Settles O36: the three modes differ in the new bits only. -/
theorem mstResult : Obligations.MstResult := by
  intro r b val mode s old new hx hold hmode
  rw [← statusMask_eq_append] at hold
  subst hold
  have hbits : mstBits mode s = .done new := by
    simp only [List.mem_cons, Prod.mk.injEq, List.not_mem_nil, or_false] at hmode
    rcases hmode with ⟨rfl, rfl⟩ | ⟨rfl, rfl⟩ | ⟨rfl, rfl⟩
    · rw [mstBits, BitVec.setWidth_eq_extractLsb' (by decide)]
    · rfl
    · rfl
  rw [exec_mst_done hx hbits]
  rfl

/-! ### RFI (R296), BRK (R299) and DIAG (R298) -/

/-- Settles O41: RFI is the return of `trapReturn`, and the entry of a trap is in privileged mode. -/
theorem rfiResult : Obligations.RfiResult := by
  refine ⟨?_, fun p s u halign hu => ?_⟩
  · rintro s w hx rfl
    rw [exec_rfi_privileged hx, trapReturn, dropLow2_eq_shift]
    rfl
  · obtain ⟨-, rfl⟩ := takeTrap_next.mp hu
    obtain ⟨hseg, hofs, hst⟩ := trapReturn_trapEntry_ia p s halign
    exact ⟨_, exec_rfi_trapEntry p s, hseg, hofs, hst, rfl, rfl, fun _ => rfl, rfl⟩

theorem exec_brk (info1 : BitVec 4) (info2 : BitVec 16) (s : State) :
    exec (.brk info1 info2) s = takeTrap (instrTrap .breakInstruction s) s := rfl

theorem exec_diag_privileged {r a b : GReg} {s : State} (hx : s.st.x = false) :
    exec (.diag r a b) s = .refused .diagCommand := by
  rw [exec, execDiag, privileged_of_kernel _ hx, conclude_refuse]

/-- Settles O42: BRK is a trap like any other, so the vector table base decides. -/
theorem brkAndDiag : Obligations.BrkAndDiag := by
  refine ⟨rfl, rfl, fun info1 info2 r a b s => ⟨fun h => ?_, fun h => ?_, exec_diag_privileged⟩⟩
  · rw [exec_brk, takeTrap_aligned (vectorAligned_iff.mpr h)]
    rfl
  · rw [exec_brk, takeTrap_refused (Bool.eq_false_iff.mpr (mt vectorAligned_iff.mp h))]

end Sys2Proof.Proofs
end

section
/-! SUPPORT. The system control instructions on addresses (44_system_control.md R285 to R294): the physical address of
LDPA, the answer of PRB, the line of PCA and its flags, and obligations O37, O38 and O40. -/

namespace Sys2Proof.Proofs

open Sys2Proof Sys2Proof.Machine Sys2Proof.Laws

/-! ### LDPA (R286) -/

section
variable {seg : BitVec 2} {x segid vofs : Word} {s : State}

theorem physicalAddress_off (hd : s.st.d = false) : physicalAddress seg x s = .done x := by
  rw [physicalAddress, hd]
  rfl

theorem physicalAddress_bypassed (hd : s.st.d = true) (hva : virtualAddress seg x s = (0#32, vofs)) :
    physicalAddress seg x s = .done vofs := by
  rw [physicalAddress, hd, hva, bypassed_zero]
  rfl

/-- With translation on, outside segment 0: the three answers of the lookup. -/
theorem physicalAddress_translated (hd : s.st.d = true) (hva : virtualAddress seg x s = (segid, vofs))
    (hseg : segid ≠ 0#32) :
    (∀ e, tlbLookup s.dtlb segid vofs = some e → foreign e = false →
      physicalAddress seg x s = .done (entryAddress e vofs)) ∧
    (∀ e, tlbLookup s.dtlb segid vofs = some e → foreign e = true → physicalAddress seg x s = .refuse .foreignBank) ∧
    (tlbLookup s.dtlb segid vofs = none → physicalAddress seg x s = .trap (bareTrap .nonAccessDataTlbMiss)) := by
  simp only [physicalAddress, hd, hva, bypassed_eq_false hseg, dataTlb_eq, Bool.not_true, Bool.false_eq_true, if_false]
  exact ⟨fun e h hf => by simp only [h, hf, Bool.false_eq_true, if_false], fun e h hf => by simp only [h, hf, if_true],
    fun h => by simp only [h]⟩

end

theorem exec_ldpa_privileged {r : GReg} {seg : BitVec 2} {a : BitVec 4} {b : GReg} {s : State} (hx : s.st.x = false) :
    exec (.ldpa r seg a b) s =
      conclude s ((physicalAddress seg (s.getGR b) s).bind fun v => .done (s.setGR r v).retire) := by
  rw [exec, execLdpa, privileged_of_kernel _ hx]

/-- Settles O37, by the answers of the translation. -/
theorem ldpaResult : Obligations.LdpaResult := by
  intro r seg a b s segid vofs hx hva
  rw [exec_ldpa_privileged hx]
  refine ⟨fun hd => ?_, fun hd hseg => ?_, fun e hd hseg hfind hbank hcpu => ?_, fun e hd hseg hfind hforeign => ?_,
    fun hd hseg hmiss => ?_⟩
  · rw [physicalAddress_off hd, bind_done_left, conclude_done]
  · subst hseg
    rw [physicalAddress_bypassed hd hva, bind_done_left, conclude_done]
  all_goals obtain ⟨hhome, haway, hnone⟩ := physicalAddress_translated hd hva hseg
  · rw [hhome e hfind (foreign_eq_false hbank hcpu), bind_done_left, conclude_done, entryAddress]
  · rw [haway e hfind (foreign_iff.mpr hforeign), bind_refuse_left, conclude_refuse]
  · rw [hnone hmiss, bind_trap_left, conclude_trap]

/-! ### PRB (R288) -/

theorem probeAllowed_iff {m pl : Bool} {e : TlbEntry} {s : State} :
    probeAllowed m pl e s = true ↔
      (if m then writeAllowed e pl else readAllowed e pl) = true ∧ (s.st.p = true → pidOk e m s = true) := by
  rw [probeAllowed, Bool.and_eq_true]
  cases s.st.p <;> simp

section
variable {m pl : Bool} {seg : BitVec 2} {x segid vofs : Word} {s : State}

theorem probe_bypassed (hva : virtualAddress seg x s = (0#32, vofs)) : probe m pl seg x s = .done true := by
  rw [probe, hva, bypassed_zero]
  rfl

theorem probe_hit {e : TlbEntry} (hva : virtualAddress seg x s = (segid, vofs)) (hseg : segid ≠ 0#32)
    (h : tlbLookup s.dtlb segid vofs = some e) : probe m pl seg x s = .done (probeAllowed m pl e s) := by
  simp only [probe, hva, bypassed_eq_false hseg, dataTlb_eq, h, Bool.false_eq_true, if_false]

theorem probe_miss (hva : virtualAddress seg x s = (segid, vofs)) (hseg : segid ≠ 0#32)
    (h : tlbLookup s.dtlb segid vofs = none) : probe m pl seg x s = .trap (bareTrap .nonAccessDataTlbMiss) := by
  simp only [probe, hva, bypassed_eq_false hseg, dataTlb_eq, h, Bool.false_eq_true, if_false]

end

/-- 1 and 0 are the two levels. -/
theorem probeLevel_boolWord (pl : Bool) : probeLevel (boolWord pl) = .done pl := by
  cases pl <;> rfl

theorem exec_prb_level {r : GReg} {seg : BitVec 2} {m pl : Bool} {a : BitVec 4} {b : GReg} {s : State}
    (h : s.getGR r = boolWord pl) :
    exec (.prb r seg m a b) s =
      conclude s ((probe m pl seg (s.getGR b) s).bind fun ok => .done (s.setGR r (boolWord ok)).retire) := by
  rw [exec, execPrb, h, probeLevel_boolWord, bind_done_left]

/-- Settles O38: the level is looked at first, then the address, then the entry. -/
theorem prbResult : Obligations.PrbResult := by
  refine ⟨fun r seg m a b s pl segid vofs hlevel hva => ?_, fun r seg m a b s hlevel => ?_⟩
  · rw [exec_prb_level hlevel]
    refine ⟨fun hseg => ?_, fun e hseg hfind => ?_, fun hseg hmiss => ?_⟩
    · subst hseg
      rw [probe_bypassed hva, bind_done_left, conclude_done]
      rfl
    · rw [probe_hit hva hseg hfind, bind_done_left, conclude_done, boolWord]
      simp only [probeAllowed_iff]
    · rw [probe_miss hva hseg hmiss, bind_trap_left, conclude_trap]
  · rw [exec, execPrb, probeLevel_refuse hlevel, bind_refuse_left, conclude_refuse]

/-! ### PCA (R293, 20_memory.md R120, R121) -/

section
variable {t : Bool} {a : BitVec 4} {b : GReg} {s : State}

theorem lineAddress_bypassed (hseg : s.getSR (segReg a) = 0#32) : lineAddress t a b s = .done (s.getGR b) := by
  rw [lineAddress, hseg, bypassed_zero]
  rfl

/-- Outside segment 0: the three answers of the lookup. -/
theorem lineAddress_translated (hseg : s.getSR (segReg a) ≠ 0#32) :
    (∀ e, tlbLookup (s.tlbOf t) (s.getSR (segReg a)) (s.getGR b) = some e → foreign e = false →
      lineAddress t a b s = .done (entryAddress e (s.getGR b))) ∧
    (∀ e, tlbLookup (s.tlbOf t) (s.getSR (segReg a)) (s.getGR b) = some e → foreign e = true →
      lineAddress t a b s = .refuse .foreignBank) ∧
    (tlbLookup (s.tlbOf t) (s.getSR (segReg a)) (s.getGR b) = none →
      lineAddress t a b s = .trap (bareTrap (if t then .nonAccessDataTlbMiss else .nonAccessInstrTlbMiss))) := by
  simp only [lineAddress, bypassed_eq_false hseg, Bool.false_eq_true, if_false]
  exact ⟨fun e h hf => by simp only [h, hf, Bool.false_eq_true, if_false], fun e h hf => by simp only [h, hf, if_true],
    fun h => by simp only [h]⟩

end

/-- A line is four bytes. -/
theorem inLine_eq (pa : Word) (k : Nat) : inLine pa k = decide (k / 4 = pa.toNat / 4) := rfl

theorem not_inLine (pa : Word) (k : Nat) : (!inLine pa k) = decide (k / 4 ≠ pa.toNat / 4) := by
  rw [inLine_eq, ← decide_not]

theorem contains_filter (l : List Nat) (p : Nat → Bool) (k : Nat) :
    (l.filter p).contains k = (l.contains k && p k) := by
  rw [Bool.eq_iff_iff, Bool.and_eq_true, List.contains_iff_mem, List.contains_iff_mem, List.mem_filter]

/-- A data flush clears the flag in the line (R293). -/
theorem contains_flushLine (pa : Word) (s : State) (k : Nat) :
    (flushLine pa s).needsFlush.contains k = (s.needsFlush.contains k && decide (k / 4 ≠ pa.toNat / 4)) := by
  rw [flushLine, contains_filter, not_inLine]

/-- An instruction purge clears it for the words of the line that are flushed (R293). -/
theorem contains_purgeInstrLine (pa : Word) (s : State) (k : Nat) :
    (purgeInstrLine pa s).needsPurge.contains k =
      (s.needsPurge.contains k && (decide (k / 4 ≠ pa.toNat / 4) || s.needsFlush.contains k)) := by
  rw [purgeInstrLine, contains_filter, Bool.not_and, not_inLine, Bool.not_not]

/-- The line holds an unflushed store. -/
theorem any_inLine_iff {l : List Nat} {pa : Word} : l.any (inLine pa) = true ↔ ∃ k ∈ l, k / 4 = pa.toNat / 4 := by
  simp only [List.any_eq_true, inLine_eq, decide_eq_true_eq]

section
variable {pa : Word} {s : State}

theorem purgeCache_flush : purgeCache true false pa s = .done (flushLine pa s) := rfl

theorem purgeCache_instr {f : Bool} : purgeCache false f pa s = .done (purgeInstrLine pa s) := rfl

theorem purgeCache_clean (h : ∀ k ∈ s.needsFlush, k / 4 ≠ pa.toNat / 4) : purgeCache true true pa s = .done s := by
  have hclean : ¬ s.needsFlush.any (inLine pa) = true := by
    rw [any_inLine_iff]
    rintro ⟨k, hmem, hline⟩
    exact h k hmem hline
  exact if_neg hclean

theorem purgeCache_unflushed (h : ∃ k ∈ s.needsFlush, k / 4 = pa.toNat / 4) :
    purgeCache true true pa s = .refuse .purgeOfUnflushedLine :=
  if_pos (any_inLine_iff.mpr h)

end

theorem exec_pca_privileged {t f : Bool} {a : BitVec 4} {b : GReg} {s : State} (hx : s.st.x = false) :
    exec (.pca t f a b) s =
      conclude s ((lineAddress t a b s).bind fun pa => (purgeCache t f pa s).bind fun u => .done u.retire) := by
  rw [exec, execPca, privileged_of_kernel _ hx]

/-- Settles O40: first the address of the line, then what T and F do to its flags. -/
theorem pcaResult : Obligations.PcaResult := by
  rintro t f a b s pa segid hx rfl
  rw [exec_pca_privileged hx]
  refine ⟨fun haddr => ?_, fun e hseg hfind hforeign => ?_, fun hseg hmiss => ?_⟩
  · have hline : lineAddress t a b s = .done pa := by
      rcases haddr with ⟨hseg, rfl⟩ | ⟨hseg, e, hfind, hbank, hcpu, rfl⟩
      · exact lineAddress_bypassed hseg
      · exact (lineAddress_translated hseg).1 e hfind (foreign_eq_false hbank hcpu)
    rw [hline, bind_done_left]
    refine ⟨?_, ?_, ?_, ?_⟩
    · rintro rfl rfl
      rw [purgeCache_flush, bind_done_left, conclude_done]
      exact ⟨_, rfl, contains_flushLine pa s⟩
    · rintro rfl rfl hclean
      rw [purgeCache_clean hclean, bind_done_left, conclude_done]
    · rintro rfl rfl hdirty
      rw [purgeCache_unflushed hdirty, bind_refuse_left, conclude_refuse]
    · rintro rfl
      rw [purgeCache_instr, bind_done_left, conclude_done]
      exact ⟨_, rfl, contains_purgeInstrLine pa s⟩
  all_goals obtain ⟨-, haway, hnone⟩ := lineAddress_translated (t := t) (b := b) hseg
  · rw [haway e hfind (foreign_iff.mpr hforeign), bind_refuse_left, conclude_refuse]
  · rw [hnone hmiss, bind_trap_left, conclude_trap]

end Sys2Proof.Proofs
end

section
/-! SUPPORT. ITLB and PTLB (44_system_control.md R289 to R291): lookups after an entry was given up, the entry that ITLB
writes, and obligation O39. -/

namespace Sys2Proof.Proofs

open Sys2Proof Sys2Proof.Machine Sys2Proof.Laws

/-! ### The entry given up (10_state.md R57) -/

/-- Giving up one entry leaves the lookup of every key but its own. -/
theorem exists_tlbFind_eraseIdx (l : Tlb) (i : Nat) :
    ∃ victim, ∀ k, k ≠ victim → tlbFind (l.eraseIdx i) k = tlbFind l k := by
  induction l generalizing i with
  | nil => exact ⟨0, fun _ _ => rfl⟩
  | cons e r ih =>
    cases i with
    | zero => exact ⟨entryKey e, fun k hk => (if_neg hk.symm).symm⟩
    | succ i =>
      obtain ⟨victim, hrest⟩ := ih i
      refine ⟨victim, fun k hk => ?_⟩
      rw [List.eraseIdx_cons_succ, tlbFind, tlbFind, hrest k hk]

theorem exists_tlbFind_makeRoom (t : Bool) (l : Tlb) (s : State) :
    ∃ victim, ∀ k, k ≠ victim → tlbFind (makeRoom t l s) k = tlbFind l k := by
  rw [makeRoom]
  split
  · exact exists_tlbFind_eraseIdx l _
  · exact ⟨0, fun _ _ => rfl⟩

/-- A TLB that is not full gives up nothing. -/
theorem makeRoom_of_lt {t : Bool} {l : Tlb} (s : State) (h : l.length < tlbCapacity t) : makeRoom t l s = l :=
  if_neg (by omega)

/-! ### The entry written (R289, 10_state.md R54) -/

theorem entryKey_fillEntry (m : Bool) (w : Word) (e : TlbEntry) : entryKey (fillEntry m w e) = entryKey e := by
  cases m <;> rfl

theorem fillEntry_v (m : Bool) (w : Word) (e : TlbEntry) : (fillEntry m w e).v = m := by
  cases m <;> rfl

theorem fillEntry_address (w : Word) (e : TlbEntry) :
    (fillEntry false w e).addr = addrOfWord w ∧ (fillEntry false w e).prot = e.prot := ⟨rfl, rfl⟩

theorem fillEntry_protection (w : Word) (e : TlbEntry) :
    (fillEntry true w e).prot = protOfWord w ∧ (fillEntry true w e).addr = e.addr := ⟨rfl, rfl⟩

/-- The entry `e` and the map `room` that ITLB starts from: the entry of the key in the map as it is, or a new one in a map
with room for it. -/
def Allocated (t : Bool) (key : Nat) (s : State) (e : TlbEntry) (room : Tlb) : Prop :=
  entryKey e = key ∧
    ((tlbFind (s.tlbOf t) key = some e ∧ room = s.tlbOf t) ∨
      (tlbFind (s.tlbOf t) key = none ∧ room = makeRoom t (s.tlbOf t) s))

/-- ITLB puts the filled entry into that map. -/
theorem insertTranslation_allocated (r : GReg) (t m : Bool) (a : BitVec 4) (b : GReg) (s : State) :
    ∃ e room d, Allocated t (tlbKey (s.getSR (segReg a)) (pageOf (s.getGR b))) s e room ∧
      insertTranslation r t m a b s =
        { s.withTlb t (tlbPut room (fillEntry m (s.getGR r) e)) with draws := d } := by
  simp only [insertTranslation, allocate]
  cases hfind : tlbFind (s.tlbOf t) (tlbKey (s.getSR (segReg a)) (pageOf (s.getGR b))) with
  | some e => exact ⟨e, _, s.draws, ⟨tlbFind_key hfind, .inl ⟨hfind, rfl⟩⟩, by cases t <;> rfl⟩
  | none =>
    exact ⟨freshEntry (s.getSR (segReg a)) (pageOf (s.getGR b)) s, _, s.draws + 3, ⟨rfl, .inr ⟨hfind, rfl⟩⟩,
      by cases t <;> rfl⟩

section
variable {t : Bool} {key : Nat} {s : State} {e : TlbEntry} {room : Tlb} (h : Allocated t key s e room)
include h

/-- If the key had an entry, it is that one. -/
theorem allocated_old {old : TlbEntry} (hold : tlbFind (s.tlbOf t) key = some old) : e = old := by
  obtain ⟨-, ⟨hfind, -⟩ | ⟨hfind, -⟩⟩ := h
  · exact Option.some.inj (hfind.symm.trans hold)
  · cases hfind.symm.trans hold

/-- With the key in the map, or room for one more entry, nothing is given up. -/
theorem allocated_room_eq (hroom : (tlbFind (s.tlbOf t) key).isSome = true ∨ (s.tlbOf t).length < tlbCapacity t) :
    room = s.tlbOf t := by
  obtain ⟨-, ⟨-, rfl⟩ | ⟨hfind, rfl⟩⟩ := h
  · rfl
  · refine makeRoom_of_lt s (hroom.resolve_left ?_)
    rw [hfind]
    exact Bool.false_ne_true

theorem allocated_victim : ∃ victim, ∀ k, k ≠ victim → tlbFind room k = tlbFind (s.tlbOf t) k := by
  obtain ⟨-, ⟨-, rfl⟩ | ⟨-, rfl⟩⟩ := h
  · exact ⟨0, fun _ _ => rfl⟩
  · exact exists_tlbFind_makeRoom t (s.tlbOf t) s

/-- Lookups after ITLB: the filled entry, and every other key as in the map it started from. -/
theorem allocated_tlbFind (m : Bool) (w : Word) (k : Nat) :
    tlbFind (tlbPut room (fillEntry m w e)) k = if k = key then some (fillEntry m w e) else tlbFind room k := by
  rw [tlbFind_tlbPut, entryKey_fillEntry, h.1]

end

/-! ### The frame of both instructions -/

/-- `u` is `s` after an instruction that changes the TLB of `t` alone. -/
structure SameButTlb (t : Bool) (s u : State) : Prop where
  other : u.tlbOf (!t) = s.tlbOf (!t)
  gr : u.gr = s.gr
  sr : u.sr = s.sr
  cr : u.cr = s.cr
  st : u.st = s.st
  iaSeg : u.iaSeg = s.iaSeg
  memory : SameMemory s u
  marks : SameMarks s u
  inputs : SameInputs s u
  iaOfs : u.iaOfs = s.iaOfs + 4#32

theorem sameButTlb_withTlb (t : Bool) (l : Tlb) (d : Nat) (s : State) :
    SameButTlb t s { s.withTlb t l with draws := d }.retire := by
  cases t <;> exact ⟨rfl, rfl, rfl, rfl, rfl, rfl, fun _ => rfl, ⟨rfl, rfl, rfl⟩, ⟨rfl, rfl, rfl⟩, rfl⟩

theorem tlbOf_withTlb_retire (t : Bool) (l : Tlb) (d : Nat) (s : State) :
    State.tlbOf { s.withTlb t l with draws := d }.retire t = l := by
  cases t <;> rfl

theorem exec_itlb_privileged {r : GReg} {t m : Bool} {a : BitVec 4} {b : GReg} {s : State} (hx : s.st.x = false) :
    exec (.itlb r t m a b) s = .next (insertTranslation r t m a b s).retire := by
  rw [exec, execItlb, privileged_of_kernel _ hx, conclude_done]

theorem exec_ptlb_privileged {t : Bool} {a : BitVec 4} {b : GReg} {s : State} (hx : s.st.x = false) :
    exec (.ptlb t a b) s = .next { s.withTlb t (tlbRemove (s.tlbOf t)
      (tlbKey (s.getSR (segReg a)) (pageOf (s.getGR b)))) with draws := s.draws }.retire := by
  rw [exec, execPtlb, privileged_of_kernel _ hx, conclude_done]
  cases t <;> rfl

/-- Settles O39: both instructions replace the map of one TLB, ITLB by an insert, PTLB by a removal. -/
theorem tlbInstructionResult : Obligations.TlbInstructionResult := by
  rintro r t m a b s key w hx hkey rfl -
  rw [← pageOf] at hkey
  subst hkey
  constructor
  · obtain ⟨e, room, d, halloc, hinsert⟩ := insertTranslation_allocated r t m a b s
    obtain ⟨other, gr, sr, cr, st, iaSeg, memory, marks, inputs, iaOfs⟩ :=
      sameButTlb_withTlb t (tlbPut room (fillEntry m (s.getGR r) e)) d s
    refine ⟨_, fillEntry m (s.getGR r) e, (exec_itlb_privileged hx).trans (by rw [hinsert]), ?_, fillEntry_v m _ e, ?_, ?_,
      fun hroom k hk => ?_, ?_, other, gr, sr, cr, st, iaSeg, memory, marks, inputs, iaOfs⟩
    · rw [tlbOf_withTlb_retire, allocated_tlbFind halloc, if_pos rfl]
    · rintro rfl
      exact ⟨(fillEntry_address _ e).1, fun old hold => by rw [allocated_old halloc hold, (fillEntry_address _ old).2]⟩
    · rintro rfl
      refine ⟨?_, fun old hold => by rw [allocated_old halloc hold, (fillEntry_protection _ old).2]⟩
      rw [(fillEntry_protection _ e).1]
      exact ⟨rfl, rfl, rfl, rfl, rfl, rfl, rfl, rfl⟩
    · rw [tlbOf_withTlb_retire, allocated_tlbFind halloc, if_neg hk, allocated_room_eq halloc hroom]
    · obtain ⟨victim, hkeep⟩ := allocated_victim halloc
      refine ⟨victim, fun k hk hvictim => ?_⟩
      rw [tlbOf_withTlb_retire, allocated_tlbFind halloc, if_neg hk, hkeep k hvictim]
  · obtain ⟨other, gr, sr, cr, st, iaSeg, memory, marks, inputs, iaOfs⟩ :=
      sameButTlb_withTlb t (tlbRemove (s.tlbOf t) (tlbKey (s.getSR (segReg a)) (pageOf (s.getGR b)))) s.draws s
    refine ⟨_, exec_ptlb_privileged hx, ?_, fun k hk => ?_, other, gr, sr, cr, st, iaSeg, memory, marks, inputs, iaOfs⟩
    · rw [tlbOf_withTlb_retire, tlbFind_tlbRemove, if_pos rfl]
    · rw [tlbOf_withTlb_retire, tlbFind_tlbRemove, if_neg hk]

end Sys2Proof.Proofs
end

section
/-! SUPPORT. What user mode cannot change (60_exceptions.md R364): the inputs and the flags of stored words by the effect of
each instruction, the control state by the few that write it, and obligation O47. -/

namespace Sys2Proof.Proofs

open Sys2Proof Sys2Proof.Machine Sys2Proof.Laws

theorem user_not_privileged {s : State} (hx : s.st.x = true) : ¬ s.st.x = false := by
  rw [hx]
  decide

/-! ### The environment's inputs and the flags (20_memory.md R120) -/

/-- The inputs are unchanged and every flag that is set stays set. -/
structure KeepsInputsAndFlags (s t : State) : Prop where
  inputs : SameInputs s t
  flags : KeepsFlags s t.needsFlush t.needsPurge

/-- Unchanged lists keep every flag. -/
theorem keepsFlags_refl (s : State) : KeepsFlags s s.needsFlush s.needsPurge := ⟨fun _ h => h, fun _ h => h⟩

theorem registerEffect_keeps {r : GReg} {s t : State} (h : RegisterEffect r s t) : KeepsInputsAndFlags s t := by
  obtain ⟨d, e, v, rfl⟩ := h
  exact ⟨⟨rfl, rfl, rfl⟩, keepsFlags_refl s⟩

theorem sumEffect_keeps {r : GReg} {l : Bool} {s t : State} (h : SumEffect r l s t) : KeepsInputsAndFlags s t := by
  obtain ⟨d, e, v, cb, -, rfl⟩ := h
  exact ⟨⟨rfl, rfl, rfl⟩, keepsFlags_refl s⟩

theorem jumpEffect_keeps {s t : State} (h : JumpEffect s t) : KeepsInputsAndFlags s t := by
  obtain ⟨a, rfl⟩ := h
  exact ⟨⟨rfl, rfl, rfl⟩, keepsFlags_refl s⟩

theorem linkEffect_keeps {r : GReg} {s t : State} (h : LinkEffect r s t) : KeepsInputsAndFlags s t := by
  obtain ⟨a, v, rfl⟩ := h
  exact ⟨⟨rfl, rfl, rfl⟩, keepsFlags_refl s⟩

theorem storeEffect_keeps {w : Width} {s t : State} {admits : Word → Prop} (h : StoreEffect w s admits t) :
    KeepsInputsAndFlags s t := by
  obtain ⟨pa, m, e, f, g, rv, -, rfl, hflags, -⟩ := h
  exact ⟨⟨rfl, rfl, rfl⟩, hflags⟩

/-- PCA is the one instruction that clears flags, and it is privileged. -/
theorem effect_user_keeps {i : Instr} {s t : State} (hx : s.st.x = true) (h : Effect i s t) :
    KeepsInputsAndFlags s t := by
  cases i
  case ldwReg | ldhReg | ldbReg | ldwOfs | ldhOfs | ldbOfs | ldil | addil | ldo | and | or | xor | cmp | cmr | extr
      | dep | dsr | shla | lsid | prb => exact registerEffect_keeps h
  case ldwa | ldwax | ldpa | stwa | mst | itlb | ptlb | pca | rfi => exact absurd h.1 (user_not_privileged hx)
  case diag | brk => exact h.elim
  case stw | sth | stb => exact storeEffect_keeps h
  case ldwr =>
    obtain ⟨d, e, v, rv, rfl⟩ := h
    exact ⟨⟨rfl, rfl, rfl⟩, keepsFlags_refl s⟩
  case stwc =>
    obtain ⟨pa, m, e, f, g, v, d, -, rfl, hflags, -⟩ := h
    exact ⟨⟨rfl, rfl, rfl⟩, hflags⟩
  case b | br | bv | bvr | cbr | tbr => exact jumpEffect_keeps h
  case bl | blr => exact linkEffect_keeps h
  case add | sub => exact sumEffect_keeps h
  case gate | ble =>
    obtain ⟨o, v, rfl⟩ := h
    exact ⟨⟨rfl, rfl, rfl⟩, keepsFlags_refl s⟩
  case be =>
    obtain ⟨o, rfl⟩ := h
    exact ⟨⟨rfl, rfl, rfl⟩, keepsFlags_refl s⟩
  case mr r z d m x =>
    cases d
    case false => exact registerEffect_keeps h
    case true =>
      obtain ⟨c, n, e, rfl⟩ := moveToSpecial_effect h
      exact ⟨⟨rfl, rfl, rfl⟩, keepsFlags_refl s⟩

/-! ### Control registers, segment registers and the status -/

/-- The control registers but CR2, the segment registers SR4 to SR7 and the status bits but CB and X are unchanged; X stays
1 but for GATE. -/
structure UserControl (i : Instr) (s t : State) : Prop where
  cr : ∀ n : CReg, n ≠ 2#5 → t.getCR n = s.getCR n
  sr : ∀ n : SReg, 4 ≤ n.toNat → t.getSR n = s.getSR n
  st : ∃ cb x, t.st = { s.st with cb := cb, x := x }
  level : t.st.x = false → ∃ r ofs, i = .gate r ofs

/-- An instruction that writes none of them. -/
theorem userControl_of_same {i : Instr} {s t : State} (hx : s.st.x = true) (hcr : t.cr = s.cr) (hsr : t.sr = s.sr)
    (hst : ∃ cb, t.st = { s.st with cb := cb }) : UserControl i s t := by
  obtain ⟨cb, hst⟩ := hst
  refine ⟨fun n _ => getCR_congr hcr n, fun n _ => getSR_congr hsr n, ⟨cb, s.st.x, hst⟩, fun hlevel => ?_⟩
  rw [hst] at hlevel
  exact absurd hlevel (user_not_privileged hx)

/-- MR in user mode writes CR2 or one of SR0 to SR3 (44_system_control.md R281). -/
theorem userControl_mr {r : GReg} {z m : Bool} {x : BitVec 6} {s t : State} (hx : s.st.x = true)
    (h : Effect (.mr r z true m x) s t) : UserControl (.mr r z true m x) s t := by
  obtain ⟨htarget, rfl⟩ := h
  rw [hx, Bool.true_and] at htarget
  have hlevel : s.st.x = false → ∃ r' ofs, Instr.mr r z true m x = .gate r' ofs :=
    fun hk => absurd hk (user_not_privileged hx)
  cases m
  case true =>
    rw [privilegedTarget_cr, decide_eq_false_iff_not, not_not] at htarget
    rw [if_pos rfl, htarget, writeCR_shamt]
    exact ⟨fun n hn => by rw [getCR_retire, getCR_setCR, if_neg hn], fun _ _ => rfl, ⟨s.st.cb, s.st.x, rfl⟩, hlevel⟩
  case false =>
    rw [privilegedTarget_sr, decide_eq_false_iff_not] at htarget
    refine ⟨fun _ _ => rfl, fun n hn => ?_, ⟨s.st.cb, s.st.x, rfl⟩, hlevel⟩
    have hne : n ≠ specialSR x := by
      rintro rfl
      exact htarget hn
    exact (getSR_setSR s _ n _).trans (if_neg hne)

theorem effect_userControl {i : Instr} {s t : State} (hx : s.st.x = true) (h : Effect i s t) : UserControl i s t := by
  rcases effect_sameControl h with hsame | hw
  · exact userControl_of_same hx hsame.cr hsame.sr ⟨s.st.cb, hsame.st⟩
  cases hw
  case mr => exact userControl_mr hx h
  case mst | itlb | ptlb | rfi => exact absurd h.1 (user_not_privileged hx)
  case gate r ofs =>
    obtain ⟨o, v, rfl⟩ := h
    exact ⟨fun _ _ => rfl, fun _ _ => rfl, ⟨s.st.cb, gateLevel s, rfl⟩, fun _ => ⟨r, ofs, rfl⟩⟩
  case be =>
    obtain ⟨o, rfl⟩ := h
    exact userControl_of_same hx rfl rfl ⟨s.st.cb, rfl⟩
  case ble =>
    obtain ⟨o, v, rfl⟩ := h
    refine ⟨fun _ _ => rfl, fun n hn => ?_, ⟨s.st.cb, s.st.x, rfl⟩, fun hk => absurd hk (user_not_privileged hx)⟩
    have hne : n ≠ 0#3 := by
      rintro rfl
      exact absurd hn (by decide)
    exact (getSR_setSR s 0#3 n s.iaSeg).trans (if_neg hne)
  case add | sub =>
    obtain ⟨d, e, v, cb, -, rfl⟩ := h
    exact userControl_of_same hx rfl rfl ⟨cb, rfl⟩

/-- Settles O47: a trap, or an effect in user mode, which writes no TLB. -/
theorem userModeContained : Obligations.UserModeContained := by
  intro i s t hx h
  refine (exec_effect i s t h).imp_right fun heff => ?_
  obtain ⟨hcr, hsr, hst, hlevel⟩ := effect_userControl hx heff
  obtain ⟨hinputs, hflush, hpurge⟩ := effect_user_keeps hx heff
  obtain ⟨-, -, htlb⟩ := effect_writers heff
  obtain ⟨hitlb, hdtlb⟩ := htlb.resolve_right fun ⟨hk, _⟩ => absurd hk (user_not_privileged hx)
  exact ⟨hcr, hsr, hitlb, hdtlb, hinputs, hflush, hpurge, hst, hlevel⟩

end Sys2Proof.Proofs
end

section
/-! SUPPORT. The test of the level before a privileged instruction (60_exceptions.md R347) and the gain of privilege (R365):
the instruction address and ST, which a trap saves, are those of the state before the step, with obligations O46 and O48. -/

namespace Sys2Proof.Proofs

open Sys2Proof Sys2Proof.Machine Sys2Proof.Laws

/-! ### Privileged instructions in user mode -/

/-- The level is tested before anything that the fields of the instruction say. -/
theorem conclude_privileged_user {s : State} (hx : s.st.x = true) (x : Attempt State) :
    conclude s (privileged s x) = takeTrap (instrTrap .privilegedOperation s) s := by
  rw [privileged_of_user x hx, conclude_trap]

/-- The instructions that are privileged in every form (R354). -/
theorem exec_eq_conclude_privileged {i : Instr} {r b a' : GReg} {mode : MstMode} {seg : BitVec 2} {a : BitVec 4}
    {t m f : Bool} {ofs : BitVec 18} (s : State)
    (hi : i ∈ [Instr.mst r mode, .ldpa r seg a b, .itlb r t m a b, .ptlb t a b, .pca t f a b, .rfi, .diag r a' b,
      .ldwa r ofs b, .ldwax r a' b, .stwa r ofs b]) :
    ∃ x, exec i s = conclude s (privileged s x) := by
  simp only [List.mem_cons, List.not_mem_nil, or_false] at hi
  rcases hi with rfl | rfl | rfl | rfl | rfl | rfl | rfl | rfl | rfl | rfl <;> exact ⟨_, rfl⟩

/-- A word with a reserved field set is refused before its instruction is looked at (30_encoding.md R132). -/
theorem runWord_reserved {w : Word} (s : State) (h : w &&& reservedMask w ≠ 0#32) :
    runWord w s = .refused .reservedField := by
  have hdecode : decode w = .error .reservedField := if_neg h
  obtain ⟨-, -, hrefused⟩ := stepRunsInstruction.2 w s
  exact hrefused hdecode

/-- Settles O46: each of the ten instructions is a privileged operation and nothing else. -/
theorem privilegeTestFirst : Obligations.PrivilegeTestFirst := by
  refine ⟨rfl, fun r b a' mode seg a t m f ofs s hx i hi => ?_, fun w s => runWord_reserved s⟩
  obtain ⟨x, hexec⟩ := exec_eq_conclude_privileged s hi
  exact hexec.trans (conclude_privileged_user hx x)

/-! ### The instruction address and ST before an instruction -/

/-- The instruction address and ST, which a trap saves, are unchanged. -/
structure SameIaAndStatus (s t : State) : Prop where
  iaSeg : t.iaSeg = s.iaSeg
  iaOfs : t.iaOfs = s.iaOfs
  st : t.st = s.st

/-- An event is consumed without a change to what its trap saves. -/
theorem pendingTrap_sameIaAndStatus {s u : State} {p : Trap} (h : pendingTrap s = some (p, u)) :
    SameIaAndStatus s u := by
  rcases pendingTrap_some h with ⟨-, -, -, rfl⟩ | ⟨-, -, rfl⟩ | ⟨-, -, -, rfl⟩ <;> exact ⟨rfl, rfl, rfl⟩

/-- Demotion leaves the user level, the lowest, as it is (20_memory.md R103). -/
theorem demote_st_user {s : State} (e : TlbEntry) (hx : s.st.x = true) : (demote e s).st = s.st := by
  rw [demote_st, hx, Bool.true_or, ← hx]

/-- A fetch in user mode demotes nothing, so ST is unchanged. -/
theorem fetch_user_sameIaAndStatus {s u : State} {w : Word} (hx : s.st.x = true) (h : fetch s = .done (w, u)) :
    SameIaAndStatus s u := by
  obtain ⟨pa, v, v', haddr, -, hread, rfl⟩ := fetch_done.mp h
  obtain ⟨d, e, rfl⟩ := sameButEnv_iff.mp (physRead_sameButEnv hread)
  rcases fetchAddress_done.mp haddr with ⟨-, -, rfl⟩ | ⟨-, -, entry, -, -, -, -, rfl⟩
  · exact ⟨rfl, rfl, rfl⟩
  · exact ⟨rfl, rfl, demote_st_user entry hx⟩

/-! ### The gain of privilege -/

/-- What shows a trap taken in the next state: ST and IA-SEG are 0, and CR17 to CR19 hold the status word and the
instruction address of `s` (R341). -/
def SavedByTrap (s t : State) : Prop :=
  t.st = Status.zero ∧ t.iaSeg = 0#32 ∧ t.getCR 17#5 = statusWord s.st ∧ t.getCR 18#5 = s.iaSeg ∧
    t.getCR 19#5 = s.iaOfs

theorem takeTrap_saves {s u t : State} {p : Trap} (hsame : SameIaAndStatus s u) (h : takeTrap p u = .next t) :
    SavedByTrap s t := by
  obtain ⟨-, rfl⟩ := takeTrap_next.mp h
  refine ⟨rfl, rfl, ?_, ?_, ?_⟩
  · rw [getCR_trapEntry_17, hsame.st]
  · rw [getCR_trapEntry_18, hsame.iaSeg]
  · rw [getCR_trapEntry_19, hsame.iaOfs]

/-- Settles O48: an event, the fetch and a word that is no instruction can only trap, and an instruction, which still runs
in user mode, traps or is bound by O47. -/
theorem privilegeGain : Obligations.PrivilegeGain := by
  intro s t hx hstep hlevel
  rcases step_next hstep with ⟨p, u, hpend, htrap⟩ | ⟨-, p, -, htrap⟩ | ⟨-, w, u, i, hfetch, hdecode, hexec⟩ |
      ⟨-, w, u, e, hfetch, -, htrap⟩
  · exact .inl (takeTrap_saves (pendingTrap_sameIaAndStatus hpend) htrap)
  · exact .inl (takeTrap_saves ⟨rfl, rfl, rfl⟩ htrap)
  · have hsame := fetch_user_sameIaAndStatus hx hfetch
    have hux : u.st.x = true := by rw [hsame.st, hx]
    rcases userModeContained i u t hux hexec with ⟨p, htrap⟩ | ⟨-, -, -, -, -, -, -, -, honlyGate⟩
    · exact .inl (takeTrap_saves hsame htrap)
    · obtain ⟨r, ofs, rfl⟩ := honlyGate hlevel
      exact .inr ⟨w, u, r, ofs, hfetch, hdecode, hexec⟩
  · exact .inl (takeTrap_saves (fetch_user_sameIaAndStatus hx hfetch) htrap)

end Sys2Proof.Proofs
end

section
/-! SUPPORT. The events between instructions (60_exceptions.md R352, R353, R356), in the order of their trap numbers, and
obligation O57. -/

namespace Sys2Proof.Proofs

open Sys2Proof Sys2Proof.Machine Sys2Proof.Laws

/-- An event is taken instead of the fetch. -/
theorem step_of_pendingTrap {s u : State} {p : Trap} (h : pendingTrap s = some (p, u)) : step s = takeTrap p u := by
  simp only [step, h]

section
variable {s : State}

theorem pendingTrap_machineCheck (hcheck : s.machineCheck = true) (hm : s.st.m = false) :
    pendingTrap s = some (bareTrap .machineCheck, { s with machineCheck := false }) := by
  simp [pendingTrap, hcheck, hm]

/-- A machine check that is not raised, or held by ST.M, leaves the turn to the later events. -/
theorem pendingTrap_no_machineCheck (h : s.machineCheck = false ∨ s.st.m = true) :
    pendingTrap s =
      if s.powerFailure then some (bareTrap .powerFailure, { s with powerFailure := false })
      else if s.st.e && decide (s.extIrq &&& s.getCR 23#5 ≠ 0#32) then some (bareTrap .externalInterrupt, s)
      else none := by
  have hheld : (s.machineCheck && !s.st.m) = false := by
    rcases h with h | h
    · rw [h, Bool.false_and]
    · rw [h, Bool.not_true, Bool.and_false]
  rw [pendingTrap, hheld, if_neg Bool.false_ne_true]

theorem pendingTrap_powerFailure (hcheck : s.machineCheck = false ∨ s.st.m = true) (hpower : s.powerFailure = true) :
    pendingTrap s = some (bareTrap .powerFailure, { s with powerFailure := false }) := by
  rw [pendingTrap_no_machineCheck hcheck, if_pos hpower]

theorem pendingTrap_externalInterrupt (hcheck : s.machineCheck = false ∨ s.st.m = true)
    (hpower : s.powerFailure = false) (he : s.st.e = true) (hirq : s.extIrq &&& s.getCR 23#5 ≠ 0#32) :
    pendingTrap s = some (bareTrap .externalInterrupt, s) := by
  simp [pendingTrap_no_machineCheck hcheck, hpower, he, hirq]

/-- An interrupt that ST.E or the mask of CR23 keeps away is not taken. -/
theorem pendingTrap_none (hcheck : s.machineCheck = false ∨ s.st.m = true) (hpower : s.powerFailure = false)
    (h : s.st.e = false ∨ s.extIrq &&& s.getCR 23#5 = 0#32) : pendingTrap s = none := by
  rcases h with he | hirq
  · simp [pendingTrap_no_machineCheck hcheck, hpower, he]
  · simp [pendingTrap_no_machineCheck hcheck, hpower, hirq]

end

/-- Settles O57: each event is the pending trap when no earlier one is, and the entry of the interrupt saves the address of
the instruction that has not started. -/
theorem asynchronousTraps : Obligations.AsynchronousTraps := by
  intro s
  refine ⟨fun hcheck hm => step_of_pendingTrap (pendingTrap_machineCheck hcheck hm),
    fun hcheck hpower => step_of_pendingTrap (pendingTrap_powerFailure hcheck hpower),
    fun hcheck hpower => ⟨fun he hirq => ?_, pendingTrap_none hcheck hpower⟩, rfl, rfl, rfl⟩
  have hpend := pendingTrap_externalInterrupt hcheck hpower he hirq
  have hstep := step_of_pendingTrap hpend
  refine ⟨hstep, fun t ht => ?_⟩
  obtain ⟨-, rfl⟩ := takeTrap_next.mp (hstep.symm.trans ht)
  exact getCR_trapEntry_19 _ s

end Sys2Proof.Proofs
end

section
/-! SUPPORT. What the first step after reset does before it executes anything (70_reset_and_hazards.md R391, R392, R396),
and obligation O58. -/

namespace Sys2Proof.Proofs

open Sys2Proof Sys2Proof.Machine

/-- No machine check and no power failure is raised at reset, and ST.E = 0 keeps every interrupt away (R396). -/
theorem pendingTrap_reset : pendingTrap State.reset = none :=
  have hcheck : State.reset.machineCheck = false := rfl
  have hpower : State.reset.powerFailure = false := rfl
  have he : State.reset.st.e = false := rfl
  pendingTrap_none (.inl hcheck) hpower (.inl he)

/-- ST.C = 0, so the first fetch reads the physical address RESET_VECTOR (R391, R392). -/
theorem fetchAddress_reset : fetchAddress State.reset = .done (Config.resetVector, State.reset) :=
  have hc : State.reset.st.c = false := rfl
  fetchAddress_untranslated hc

/-- Settles O58: the status bits and the fields are read off the reset state; that no event is taken and where the first
fetch reads follow from ST. -/
theorem resetState : Obligations.ResetState := by
  have hstatus : State.reset.st = Status.zero := rfl
  have hvector : Config.resetVector.toNat % 4 = 0 := by decide
  refine ⟨?_, rfl, rfl, hvector, rfl, rfl, rfl, rfl, rfl, rfl, pendingTrap_reset, fetchAddress_reset⟩
  rw [hstatus]
  exact ⟨rfl, rfl, rfl, rfl, rfl, rfl, rfl, rfl, rfl, rfl⟩

end Sys2Proof.Proofs
end
